-- ==== Sys2Proof/Word.lean ====
section
/-! DEFINITION. The words of the block: a byte (00_scope.md R9, 20_memory.md R44) and the 16-bit
frame-check accumulator (10_state.md R28), with their plainest arithmetic. -/

namespace Sys2Proof

/-- One byte; bit 0 is its least significant bit (R9). -/
abbrev Byte := BitVec 8

/-- The 16-bit FCS accumulator (R28). -/
abbrev Acc := BitVec 16

/-- A 3-bit sequence number, NS or NR (R77). -/
abbrev Seq := BitVec 3

/-- `zext_16(b)` of R10. -/
abbrev zext16 (b : Byte) : Acc := b.setWidth 16

end Sys2Proof
end

