-- ==== Sys2Proof/Config.lean ====
section
/-! DEFINITION. What an implementation fixes: the constants of R7, the construction parameters of
R6 and R27, and the free values (values the spec leaves without a value, 93_implementation_defined.md
U4, U5, U6, and the undefined result lanes of R121 and R122). -/

namespace Sys2Proof.Config

/-- `FLAG` (R7, R120). -/
abbrev FLAG : Byte := 0x7E
/-- `ESC` (R7, R120). -/
abbrev ESC : Byte := 0x7D
/-- The escape mask (R7, R120). -/
abbrev ESC_MASK : Byte := 0x20
/-- `FCS_INIT` (R7, R104). -/
abbrev FCS_INIT : Acc := 0xFFFF
/-- `FCS_POLY`, reflected (R7, R2). -/
abbrev FCS_POLY : Acc := 0x8408
/-- `FCS_XOROUT` (R7, R105). -/
abbrev FCS_XOROUT : Acc := 0xFFFF
/-- `FCS_GOOD`, the residual (R7, R106). -/
abbrev FCS_GOOD : Acc := 0xF0B8
/-- The broadcast address (R7, R74). -/
abbrev BROADCAST : Byte := 0xFF
/-- The minimum delimiter distance (R7, R158). -/
abbrev MIN_DISTANCE : Nat := 4

/-- The construction parameters of R6. They are constants of the built block (R27): no step changes
them, and every statement about a state holds for every value of them. -/
structure Params where
  /-- `CAP`, the capacity in bytes of the reassembly buffer. -/
  cap : Nat
  /-- `WCAP`, the capacity in bytes of the encoder's sink. -/
  wcap : Nat
  /-- `DCAP`, the capacity in bytes of the decoder's destination. -/
  dcap : Nat
  /-- `PMAX`, the largest payload length the host sends or accepts. -/
  pmax : Nat
deriving DecidableEq, Repr

/-- `IW` of R6: the smallest width with `2^IW > max(CAP, WCAP, DCAP)` (decision D4). -/
def Params.iw (p : Params) : Nat :=
  let m := max p.cap (max p.wcap p.dcap)
  if m = 0 then 0 else Nat.log2 m + 1

/-- The capacity obligations the builder of the block owes: the four the document requires (R252),
with `PMAX ≥ 1` (R6). -/
abbrev Params.meetsObligations (p : Params) : Prop :=
  1 ≤ p.pmax ∧ 2 * p.pmax + 8 ≤ p.cap ∧ 2 * p.pmax + 8 ≤ p.wcap ∧ p.pmax + 2 ≤ p.dcap

/-- The fifth row of R252: with it `DstOverflow` is impossible on arbitrary input. -/
abbrev Params.faultFree (p : Params) : Prop := p.cap - 3 ≤ p.dcap

/-- The block `State.reset` is built with. DESIGN CHOICE (assumption 1): the spec leaves the four
values open; these meet R252, the fault-free row included. Unsafe where a claim uses the numbers. -/
def params : Params := { cap := 64, wcap := 64, dcap := 64, pmax := 28 }

/-- The byte spaces of R40 that keep a content between operations. -/
inductive Space where
  | buf
  | dst
  | out
deriving DecidableEq, Repr

/-- What a cell nothing has written holds (R36, R37: unspecified after reset). A free value
(assumption 2): nothing constrains it, and a read of it is idempotent (R45). -/
opaque powerUpByte : Space → Nat → Byte

/-- The free value drawn number `d` for cell or lane `a` (U4, U5, U6; R121, R122). Nothing
constrains it (assumptions 3 to 6). -/
opaque freeByte : Nat → Nat → Byte

end Sys2Proof.Config
end

