-- ==== Sys2Proof/Machine/State.lean ====
section
/-! DEFINITION. The state of the assembled block as plain data: the parameters it was built with, the
reassembly buffer (R20 to R25), the operand and result spaces that keep a content (R34, R40), the
transient registers of a frame scan (R29), the result port (R230, R244), the inputs the outside has
presented (R31, R48) and the counter of free values. -/

namespace Sys2Proof.Machine

/-- A byte space of R40: the cells something has written, addresses strictly rising. An address with
no entry holds no written value; what a read of it gives is `Memory.read` of Ops.lean. -/
abbrev Memory := List Host.Cell

/-- The canonical form: strictly rising addresses. -/
abbrev Memory.wf (m : Memory) : Prop := (m.map Prod.fst).Pairwise (· < ·)

/-- The kind of a frame (R12, R77). -/
inductive Kind where
  | data
  | ack
  | nack
deriving DecidableEq, Repr

/-- The transient registers of one frame scan (R29): the scan index, the two delimiter indices (`none`
until found), the pending escape, the running FCS, the bytes written to `dst` so far (the write cursor
`cur` is their number), the logical body position, and the captured address, kind and sequence
number. -/
structure Scan where
  i : Nat
  frameStart : Option Nat
  frameStop : Option Nat
  escapePending : Bool
  fcs : Acc
  stored : List Byte
  pos : Nat
  addr : Option Byte
  kind : Option Kind
  seq : Option Seq
deriving DecidableEq, Repr

/-- The destination write cursor of R29. -/
abbrev Scan.cur (sc : Scan) : Nat := sc.stored.length

/-- The transient registers of one `FRM.ENC` (R30): the running FCS and the bytes pushed to the sink
so far; the output length `n` is their number. -/
structure Enc where
  fcs : Acc
  bytes : List Byte
deriving DecidableEq, Repr

/-- The output length of R30. -/
abbrev Enc.n (e : Enc) : Nat := e.bytes.length

/-- The status of an operation (R231). `ok` is `Frame` for `FRM.DEC`. The fifth status of that table,
`DstOverflow`, is the fault below. -/
inductive Status where
  | ok
  | noFrame
  | badFrame
  | invalidArgument
deriving DecidableEq, Repr

/-- The result tuple of an operation (R76, R230, R244): its status is `Result.status` of
Operands.lean, and a constructor has a field for each result that its rule defines. -/
inductive Result where
  /-- No operation has ended since reset. -/
  | idle
  /-- `FCS.INIT -> s`, `FCS.UPDATE -> s'` (R104, R102). -/
  | accumulator (s : Acc)
  /-- `FCS.FINAL -> lo, hi` (R105). -/
  | fcsBytes (lo hi : Byte)
  /-- `FCS.CHECK -> good` (R106). -/
  | check (good : Bool)
  /-- `ESC.ENC -> n, o0, o1` (R121). -/
  | escaped (n : Nat) (o0 o1 : Byte)
  /-- `ESC.DEC -> pending', valid, o` (R122). -/
  | unescaped (pending valid : Bool) (o : Byte)
  /-- `CTL.ENC -> ctrl` (R130). -/
  | control (ctrl : Byte)
  /-- `CTL.DEC -> kind, seq` (R150). -/
  | kindSeq (kind : Kind) (seq : Seq)
  /-- Status `InvalidArgument`, no field (R232). -/
  | invalidArgument
  /-- `FRM.ENC -> Ok, out, n` (R131). -/
  | encoded (out : List Byte) (n : Nat)
  /-- `FRM.DEC -> Frame(kind, seq, addr, dst[0 .. plen-1], plen, discard)` (R152 L15). -/
  | frame (kind : Kind) (seq : Seq) (addr : Byte) (payload : List Byte) (plen discard : Nat)
  /-- `FRM.DEC -> BadFrame(kind, seq, addr, discard)` (R152 L16); a field not reached is `none`
  (R161). -/
  | badFrame (kind : Option Kind) (seq : Option Seq) (addr : Option Byte) (discard : Nat)
  /-- `FRM.DEC -> NoFrame(discard)` (R152 L13). -/
  | noFrame (discard : Nat)
  /-- `BUF.UNUSED -> base, free` (R180). -/
  | unused (base free : Nat)
  /-- Status `Ok`, no other field (`BUF.APPEND`, `BUF.ERASE`, `BUF.CLEAR`). -/
  | ok
  /-- `BUF.DATA -> W, len` (R183). -/
  | window (w : List Byte) (len : Nat)
  /-- `BUF.CAP -> cap` (R186). -/
  | capacity (cap : Nat)
deriving DecidableEq, Repr

/-- What the outside presents to the block (assumptions 8, 11 and 17). -/
inductive Input where
  /-- The host issues an operation: the lanes of the issue port (R31, R76). -/
  | issue (lanes : List Byte)
  /-- The byte under the scan index of a frame scan in progress (R152's loop, one turn). -/
  | wire (b : Byte)
  /-- The window of the frame scan in progress ends (R152 L13, R165). -/
  | windowEnd
  /-- The transport's fill `MemWrite(buf, index, 1, b)` (R181). -/
  | fill (index : Nat) (b : Byte)
deriving DecidableEq, Repr

structure State where
  /-- `CAP`, `WCAP`, `DCAP`, `PMAX`: fixed at construction (R6, R27). -/
  params : Config.Params
  /-- The reassembly memory, cells `0 .. CAP-1` (R21). -/
  buf : Memory
  /-- The number of the first cell that holds no received data (R22). -/
  tail : Nat
  /-- The decoder's destination payload buffer (R34, R40). -/
  dst : Memory
  /-- The encoder's destination sink (R34, R40). -/
  out : Memory
  /-- The registers of the `FRM.DEC` in progress when its window is presented byte by byte; `none`
  between operations (R20, R29, R37): issuing an operation drops them (assumption 11). -/
  scan : Option Scan
  /-- The result tuple of the last operation (R244). -/
  result : Result
  /-- What the outside has presented and the block has not yet taken, oldest first. -/
  inputs : List Input
  /-- The model's own field: how many groups of free values have been drawn (assumption 7). -/
  draws : Nat
deriving DecidableEq, Repr

/-- `head` is a hardwired zero (R23): it has no storage, and nothing writes it. -/
def State.head (_ : State) : Nat := 0

/-- The one fault of the block (R230, R240, R241). -/
inductive Fault where
  /-- Raised by `FRM.DEC`, and by a turn of a frame scan, when a body byte at position 2 or later
  arrives and `cur = dcap`; `i` is the scan index (R152 L11, R240). The run ends: the spec makes it
  "a state that is never final and about which nothing further is claimed". Safe. -/
  | dstOverflow (i : Nat)
deriving DecidableEq, Repr

/-- What the model gives no meaning to. -/
inductive Refusal where
  /-- An instruction that has no meaning yet, by the table's mnemonic; raised by `exec` alone. Safe. -/
  | notModelled (mnemonic : String)
  /-- The lanes of an issue are no operation: no 4-bit select code, too few lanes, or a narrow operand's
  lane too wide (R76, R77; assumptions 8, 9); raised by `step`. Safe. -/
  | malformedIssue
  /-- The transport wrote outside the suffix `buf[tail .. CAP-1]`, which R181 denies it
  (93_implementation_defined.md U14: `refuse`); raised by `step` on a fill. Safe. -/
  | fillOutsideSuffix
deriving DecidableEq, Repr

/-- What one step answers. -/
abbrev Outcome := Host.Outcome State Fault Refusal

/-- The block right after construction with the given parameters (R37, R250): empty buffer, nothing
written in any space, no scan, no result, nothing presented. -/
def State.resetWith (p : Config.Params) : State :=
  { params := p
    buf := []
    tail := 0
    dst := []
    out := []
    scan := none
    result := .idle
    inputs := []
    draws := 0 }

/-- The machine right after reset, built with the parameters assumption 1 names. -/
def State.reset : State := State.resetWith Config.params

end Sys2Proof.Machine
end

