-- ==== Sys2Proof/Machine/Ops.lean ====
section
/-! DEFINITION. The named operations over the byte spaces and the state: `MemRead` and `MemWrite` of
R10, the groups of cells that come to hold unspecified values (R36), the readable data of the buffer
(R25), the result port, and the block's one fault (R240). The block has no trap: nothing is saved, no
mode changes, nothing is returned from (R244). -/

namespace Sys2Proof.Machine

/-- The written value of a cell, if something has written it. -/
def Memory.lookup : Memory → Nat → Option Byte
  | [], _ => none
  | (a, b) :: m, x => if a = x then some b else Memory.lookup m x

/-- `MemRead(space, x, 1)` (R10, R44, R45). A cell nothing has written holds its unspecified power-up
value (R37), the same at every read (R45). -/
def Memory.read (sp : Config.Space) (m : Memory) (x : Nat) : Byte :=
  match m.lookup x with
  | some b => b
  | none => Config.powerUpByte sp x

/-- `MemWrite(space, x, 1, v)` (R10), keeping the canonical form. -/
def Memory.write : Memory → Nat → Byte → Memory
  | [], x, v => [(x, v)]
  | (a, b) :: m, x, v =>
    if x < a then (x, v) :: (a, b) :: m
    else if x = a then (x, v) :: m
    else (a, b) :: Memory.write m x v

/-- Writes a sequence to ascending cells from `base`. -/
def Memory.writeAll : Memory → Nat → List Byte → Memory
  | m, _, [] => m
  | m, base, b :: bs => Memory.writeAll (m.write base b) (base + 1) bs

/-- The `count` cells from `base`, ascending. -/
def Memory.readAll (sp : Config.Space) (m : Memory) (base : Nat) : Nat → List Byte
  | 0 => []
  | count + 1 => m.read sp base :: Memory.readAll sp m (base + 1) count

/-- The `count` cells from `lo` come to hold unspecified values: the group of free values number
`draw` (R36, R135, R163). -/
def Memory.unspecify (draw : Nat) : Memory → Nat → Nat → Memory
  | m, _, 0 => m
  | m, lo, count + 1 => Memory.unspecify draw (m.write lo (Config.freeByte draw lo)) (lo + 1) count

/-- The copy loop of `BUF.ERASE` (R184): ascending `j`, `buf[j] <- buf[j + k]`. -/
def Memory.copyDown (sp : Config.Space) (k : Nat) : Memory → Nat → Nat → Memory
  | m, _, 0 => m
  | m, j, count + 1 => Memory.copyDown sp k (m.write j (m.read sp (j + k))) (j + 1) count

/-! ### The reassembly buffer's two views (R25) -/

/-- `data = [buf[0], ..., buf[tail-1]]` (R25). -/
def State.data (s : State) : List Byte := s.buf.readAll .buf 0 s.tail

/-- `free = CAP - tail` (R25). -/
def State.free (s : State) : Nat := s.params.cap - s.tail

/-! ### The result port and the fault -/

/-- An operation begins: no scan of an earlier one is left (R20, R29). -/
def State.beginOperation (s : State) : State := { s with scan := none }

/-- An operation ends with a result tuple and changes nothing else (R230). -/
def State.withResult (s : State) (r : Result) : State := { s with result := r }

/-- A result of which one lane is undefined: the lane holds a fresh free value (assumption 6). -/
def State.withFreeLane (s : State) (r : Byte → Result) : State :=
  { s with result := r (Config.freeByte s.draws 0), draws := s.draws + 1 }

/-- `raise DstOverflow(i)` (R10, R240): the operation stops, no result, nothing written. -/
def raiseDstOverflow (i : Nat) : Outcome := .fault (.dstOverflow i)

end Sys2Proof.Machine
end

