-- ==== Sys2Proof/Machine/Operands.lean ====
section
/-! DEFINITION. The enumerated operands and results at the ports (R77, R231), the control byte's two
functions (R130, R150), and which results a status makes valid (R161). -/

namespace Sys2Proof.Machine

/-- The kind a 2-bit port code stands for; 3 is not a kind (R77). -/
def Kind.ofCode (k : BitVec 2) : Option Kind :=
  if k = 0 then some .data else if k = 1 then some .ack else if k = 2 then some .nack else none

/-- The port code of a kind (R77). -/
def Kind.code : Kind → BitVec 2
  | .data => 0
  | .ack => 1
  | .nack => 2

/-- The port code of a status (R77, R231); the fifth code is `Fault.code`. -/
def Status.code : Status → BitVec 3
  | .ok => 0
  | .noFrame => 1
  | .badFrame => 2
  | .invalidArgument => 3

/-- The port code of the fault (R77, R231, R240). -/
def Fault.code : Fault → BitVec 3
  | .dstOverflow _ => 4

/-- The status a result tuple carries (R231); nothing has ended yet at `idle`. -/
def Result.status : Result → Option Status
  | .idle => none
  | .invalidArgument => some .invalidArgument
  | .noFrame _ => some .noFrame
  | .badFrame _ _ _ _ => some .badFrame
  | .accumulator _ | .fcsBytes _ _ | .check _ | .escaped _ _ _ | .unescaped _ _ _ | .control _
  | .kindSeq _ _ | .encoded _ _ | .frame _ _ _ _ _ _ | .unused _ _ | .ok | .window _ _
  | .capacity _ => some .ok

/-- The code on the status port after an operation (R77, R230, R231): its status's, or its fault's; none where
no operation has ended. -/
def portStatus (o : Outcome) : Option (BitVec 3) :=
  match o with
  | .next s => s.result.status.map Status.code
  | .fault f => some f.code
  | .refused _ => none

/-- The `discard` of a decode's result, the bytes it consumes (R160). -/
def Result.discard : Result → Nat
  | .frame _ _ _ _ _ d | .badFrame _ _ _ d | .noFrame d => d
  | .idle | .invalidArgument | .accumulator _ | .fcsBytes _ _ | .check _ | .escaped _ _ _
  | .unescaped _ _ _ | .control _ | .kindSeq _ _ | .encoded _ _ | .unused _ _ | .ok | .window _ _
  | .capacity _ => 0

/-- `CTL.ENC`'s function on the three kinds (R130; R67, R68, R69). -/
def ctlEnc : Kind → Seq → Byte
  | .data, q => (q.setWidth 8 <<< 1) ||| 0x10
  | .ack, q => (q.setWidth 8 <<< 5) ||| 0x01
  | .nack, q => (q.setWidth 8 <<< 5) ||| 0x09

/-- `CTL.DEC`'s function (R150). S-types 1 and 3 give `Nack` by decision D9 (assumption 14). -/
def ctlDec (c : Byte) : Kind × Seq :=
  if c.getLsbD 0 = false then (.data, c.extractLsb' 1 3)
  else if c.extractLsb' 2 2 = 0 then (.ack, c.extractLsb' 5 3)
  else (.nack, c.extractLsb' 5 3)

end Sys2Proof.Machine
end

