-- ==== Sys2Proof/Machine/Flags.lean ====
section
/-! DEFINITION. The block has no condition codes (R33). Its flag-like values are the pending-escape
bit, computed here (R122, R155), and the derived predicates `empty` and `full` of the buffer (R25,
R187). -/

namespace Sys2Proof.Machine

/-- The byte an escape announces, or the byte itself (R122, R152 L7). -/
def unescape (pending : Bool) (b : Byte) : Byte := if pending then b ^^^ Config.ESC_MASK else b

/-- `ESC.DEC`'s function (R122): the pending bit after the byte, and the unescaped byte if one is
produced. -/
def escDec (pending : Bool) (b : Byte) : Bool × Option Byte :=
  if b = Config.ESC then (true, none) else (false, some (unescape pending b))

/-- `empty` (R25, R187). -/
def State.empty (s : State) : Bool := s.tail == 0

/-- `full` (R25, R187). -/
def State.full (s : State) : Bool := s.tail == s.params.cap

end Sys2Proof.Machine
end

