-- ==== Sys2Proof/Machine/Buffer.lean ====
section
/-! DEFINITION. The reassembly buffer (44_reassembly_buffer.md): the meanings of the six `BUF.*`
operations. `head` stays the hardwired zero throughout (R23). -/

namespace Sys2Proof.Machine

/-- The cells `buf[lo .. CAP-1]` come to hold unspecified values (R36, assumption 3). -/
def State.unspecifyFrom (s : State) (lo : Nat) : State :=
  { s with
    buf := s.buf.unspecify s.draws lo (s.params.cap - lo)
    draws := s.draws + 1 }

/-- `BUF.UNUSED -> base, free` (R180). -/
def execBufUnused (s : State) : Outcome := .next (s.withResult (.unused s.tail s.free))

/-- `BUF.APPEND n -> status` (R182). -/
def execBufAppend (n : Nat) (s : State) : Outcome :=
  if s.free < n then .next (s.withResult .invalidArgument)
  else .next { s with tail := s.tail + n, result := .ok }

/-- `BUF.DATA -> W, len` (R183). -/
def execBufData (s : State) : Outcome := .next (s.withResult (.window s.data s.tail))

/-- The first `k` bytes are dropped and the rest moves down to cell 0 (R184), the cells from the new
`tail` on unspecified; `k = 0` changes nothing. -/
def State.erasePrefix (s : State) (k : Nat) : State :=
  if k = 0 then s
  else
    { s with buf := s.buf.copyDown .buf k 0 (s.tail - k), tail := s.tail - k }.unspecifyFrom
      (s.tail - k)

/-- `BUF.ERASE k -> status` (R184). -/
def execBufErase (k : Nat) (s : State) : Outcome :=
  if s.tail < k then .next (s.withResult .invalidArgument)
  else .next ((s.erasePrefix k).withResult .ok)

/-- All data is dropped (R185); clearing an empty buffer changes nothing. -/
def State.clearAll (s : State) : State :=
  if s.tail = 0 then s else { s with tail := 0 }.unspecifyFrom 0

/-- `BUF.CLEAR` (R185). -/
def execBufClear (s : State) : Outcome := .next (s.clearAll.withResult .ok)

/-- `BUF.CAP -> cap` (R186). -/
def execBufCap (s : State) : Outcome := .next (s.withResult (.capacity s.params.cap))

end Sys2Proof.Machine
end

