-- ==== Sys2Proof/Machine/Escaper.lean ====
section
/-! DEFINITION. The byte escaper (41_escaper.md): the meanings of `ESC.ENC` and `ESC.DEC`. -/

namespace Sys2Proof.Machine

/-- `b` is one of the two reserved bytes (R120). -/
abbrev isReserved (b : Byte) : Prop := b = Config.FLAG ∨ b = Config.ESC

/-- The bytes `ESC.ENC` produces for a body byte (R121): `n` is their number. -/
def escEnc (b : Byte) : List Byte :=
  if isReserved b then [Config.ESC, b ^^^ Config.ESC_MASK] else [b]

/-- `ESC.ENC b -> n, o0, o1` (R121). With `n = 1` the lane `o1` has no meaning: a free value
(assumption 6). -/
def execEscEnc (b : Byte) (s : State) : Outcome :=
  if isReserved b then .next (s.withResult (.escaped 2 Config.ESC (b ^^^ Config.ESC_MASK)))
  else .next (s.withFreeLane (.escaped 1 b))

/-- `ESC.DEC pending, b -> pending', valid, o` (R122). With `valid = 0` the lane `o` is undefined: a
free value (assumption 6). -/
def execEscDec (pending : Bool) (b : Byte) (s : State) : Outcome :=
  match escDec pending b with
  | (p, some o) => .next (s.withResult (.unescaped p true o))
  | (p, none) => .next (s.withFreeLane (.unescaped p false))

end Sys2Proof.Machine
end

