-- ==== Sys2Proof/Machine/FrameDecode.lean ====
section
/-! DEFINITION. The frame decoder (43_frame_decode.md): the turns of R152's loop over the transient
registers of R29, the end of a scan, and the meanings of `CTL.DEC` and `FRM.DEC`. -/

namespace Sys2Proof.Machine

/-- Line L0 of R152: the registers at the start of every `FRM.DEC` (R29). -/
def Scan.start : Scan :=
  { i := 0
    frameStart := none
    frameStop := none
    escapePending := false
    fcs := Config.FCS_INIT
    stored := []
    pos := 0
    addr := none
    kind := none
    seq := none }

/-- `continue`: on to the next index. -/
def Scan.advance (sc : Scan) : Scan := { sc with i := sc.i + 1 }

/-- Lines L1, L2, L4, L5 of R152 (R153, R154): a Flag under the scan index. -/
def Scan.flag (nextIsFlag : Bool) (sc : Scan) : Scan :=
  match sc.frameStart with
  | none => if nextIsFlag then sc.advance else { sc with frameStart := some sc.i }.advance
  | some start =>
    if nextIsFlag || sc.i == start + 1 then sc.advance
    else { sc with frameStop := some sc.i }.advance

/-- Lines L3, L6 of R152 (R155, R166): an Escape under the scan index. -/
def Scan.escape (sc : Scan) : Scan :=
  match sc.frameStart with
  | none => sc.advance
  | some _ => { sc with escapePending := true }.advance

/-- Lines L8 to L12 of R152 (R155, R156, R162): an unescaped body byte is fed to the FCS and dispatched
by its position. The error is the index of a `DstOverflow`. -/
def Scan.consume (dcap : Nat) (b : Byte) (sc : Scan) : Except Nat Scan :=
  let sc := { sc with escapePending := false, fcs := fcsUpdate sc.fcs b }
  if sc.pos = 0 then .ok { sc with addr := some b, pos := 1 }.advance
  else if sc.pos = 1 then
    .ok { sc with kind := some (ctlDec b).1, seq := some (ctlDec b).2, pos := 2 }.advance
  else if sc.cur = dcap then .error sc.i
  else .ok { sc with stored := sc.stored ++ [b], pos := sc.pos + 1 }.advance

/-- Lines L3 and L8 to L12: an unescaped byte, skipped before an opening Flag (R166). -/
def Scan.unescaped (dcap : Nat) (b : Byte) (sc : Scan) : Except Nat Scan :=
  match sc.frameStart with
  | none => .ok sc.advance
  | some _ => sc.consume dcap b

/-- Lines L3 and L7 to L12: a raw byte that is neither Flag nor Escape. -/
def Scan.plain (dcap : Nat) (b : Byte) (sc : Scan) : Except Nat Scan :=
  sc.unescaped dcap (unescape sc.escapePending b)

/-- One turn of R152's loop: the Flag test stands before the Escape test (R154). -/
def Scan.turn (dcap : Nat) (b : Byte) (nextIsFlag : Bool) (sc : Scan) : Except Nat Scan :=
  if b = Config.FLAG then .ok (sc.flag nextIsFlag)
  else if b = Config.ESC then .ok sc.escape
  else sc.plain dcap b

/-- `next_is_flag` of R152 for the bytes after the scan index; false at the window's end (R165). -/
def nextIsFlag : List Byte → Bool
  | [] => false
  | b :: _ => b == Config.FLAG

/-- R152's loop over what is left of the window, up to the closing Flag. -/
def Scan.run (dcap : Nat) : List Byte → Scan → Except Nat Scan
  | [], sc => .ok sc
  | b :: w, sc =>
    match sc.turn dcap b (nextIsFlag w) with
    | .error i => .error i
    | .ok sc => if sc.frameStop.isSome then .ok sc else Scan.run dcap w sc

/-- The acceptance test of line L15: the raw distance of the Flags (R158), the residual (R106), and
that the two FCS bytes were received (R164). -/
abbrev Scan.accepts (sc : Scan) (start stop : Nat) : Prop :=
  start + Config.MIN_DISTANCE ≤ stop ∧ fcsCheck sc.fcs = true ∧ 2 ≤ sc.cur

/-- Lines L13 to L16 of R152: the outcome of a scan that has ended (R158 to R161). -/
def Scan.finish (sc : Scan) : Result :=
  match sc.frameStart, sc.frameStop with
  | some start, some stop =>
    if sc.accepts start stop then
      match sc.kind, sc.seq, sc.addr with
      | some k, some q, some a =>
        .frame k q a (sc.stored.take (sc.cur - 2)) (sc.cur - 2) (stop + 1)
      | k, q, a => .badFrame k q a (stop + 1)
    else .badFrame sc.kind sc.seq sc.addr (stop + 1)
  | _, _ => .noFrame 0

/-- The destination of `dcap` bytes after a `FRM.DEC` that did not end in `Frame`, `DstOverflow` included: every cell
holds a free value (R36, R163, R238, U5; assumption 5). -/
def State.unspecifyDst (s : State) (dcap : Nat) : State :=
  { s with
    dst := s.dst.unspecify s.draws 0 dcap
    draws := s.draws + 1 }

/-- A scan into a destination of `dcap` bytes that has ended delivers its outcome: the result tuple, and `dst`.
After `Frame` the cells stored to hold their bytes (R163); every other cell of the destination, and after
`NoFrame` and `BadFrame` all of it, holds a free value (R36, R238, U5; assumption 5). -/
def State.deliver (s : State) (dcap : Nat) (sc : Scan) : State :=
  match sc.finish with
  | .frame k q a p n d =>
    { s with
      result := .frame k q a p n d
      dst := (s.dst.writeAll 0 sc.stored).unspecify s.draws sc.cur (dcap - sc.cur)
      draws := s.draws + 1 }
  | r => { s.unspecifyDst dcap with result := r }

/-- `CTL.DEC ctrl -> kind, seq` (R150). -/
def execCtlDec (c : Byte) (s : State) : Outcome :=
  .next (s.withResult (.kindSeq (ctlDec c).1 (ctlDec c).2))

/-- `FRM.DEC W, dcap -> status, kind, seq, addr, dst, plen, discard` (R151, R152). Its registers exist
inside the operation only (R29): the scan in progress of the state is not touched. -/
def execFrmDec (w : List Byte) (dcap : Nat) (s : State) : Outcome :=
  match Scan.run dcap w Scan.start with
  | .error i => raiseDstOverflow i
  | .ok sc => .next (s.deliver dcap sc)

end Sys2Proof.Machine
end

