-- ==== Sys2Proof/Machine/FrameEncode.lean ====
section
/-! DEFINITION. The frame encoder (42_frame_encode.md): the meanings of `CTL.ENC` and `FRM.ENC`. -/

namespace Sys2Proof.Machine

/-- `n <- 0; fcs <- 0xFFFF` (R132, R30). -/
def Enc.start : Enc := { fcs := Config.FCS_INIT, bytes := [] }

/-- `push(b)` of R132 into a sink of `ocap` bytes: the check stands before the write (R134). -/
def Enc.push (ocap : Nat) (b : Byte) (e : Enc) : Option Enc :=
  if e.n = ocap then none else some { e with bytes := e.bytes ++ [b] }

/-- Pushes in order, each checked. -/
def Enc.pushAll (ocap : Nat) : List Byte → Enc → Option Enc
  | [], e => some e
  | b :: bs, e => (e.push ocap b).bind (Enc.pushAll ocap bs)

/-- `emit(b)` of R132: the bytes of `ESC.ENC b`, each pushed. -/
def Enc.emit (ocap : Nat) (b : Byte) (e : Enc) : Option Enc := e.pushAll ocap (escEnc b)

/-- A covered byte (R126, R132): the FCS first, on the unescaped value, then the escaper. -/
def Enc.cover (ocap : Nat) (b : Byte) (e : Enc) : Option Enc :=
  Enc.emit ocap b { e with fcs := fcsUpdate e.fcs b }

/-- Covered bytes in order. -/
def Enc.coverAll (ocap : Nat) : List Byte → Enc → Option Enc
  | [], e => some e
  | b :: bs, e => (e.cover ocap b).bind (Enc.coverAll ocap bs)

/-- The two FCS bytes (R132): the inverted accumulator, low byte first, each through the escaper, not
fed to the FCS. -/
def Enc.trailer (ocap : Nat) (e : Enc) : Option Enc :=
  (e.emit ocap (fcsFinal e.fcs).1).bind (Enc.emit ocap (fcsFinal e.fcs).2)

/-- The payload field: the operand for Data, nothing for Ack and Nack (R136). -/
def payloadOf (kind : Kind) (p : List Byte) : List Byte :=
  match kind with
  | .data => p
  | .ack | .nack => []

/-- The algorithm of `FRM.ENC` for a kind (R132): the framed bytes, or `none` for `InvalidArgument`
(R133, R134). -/
def frameEncode (addr : Byte) (kind : Kind) (seq : Seq) (p : List Byte) (ocap : Nat) :
    Option (List Byte) :=
  if kind = .data ∧ p = [] then none
  else do
    let e ← Enc.start.push ocap Config.FLAG
    let e ← e.cover ocap addr
    let e ← e.cover ocap (ctlEnc kind seq)
    let e ← e.coverAll ocap (payloadOf kind p)
    let e ← e.trailer ocap
    let e ← e.push ocap Config.FLAG
    some e.bytes

/-- `InvalidArgument` of `FRM.ENC`: `out` below `ocap` holds unspecified values (R135, assumption 4). -/
def encodeRejected (ocap : Nat) (s : State) : State :=
  { s with
    result := .invalidArgument
    out := s.out.unspecify s.draws 0 ocap
    draws := s.draws + 1 }

/-- `Ok(out[0 .. n-1], n)` of `FRM.ENC` (R132). -/
def encodeDone (bytes : List Byte) (s : State) : State :=
  { s with
    result := .encoded bytes bytes.length
    out := s.out.writeAll 0 bytes }

/-- `CTL.ENC kind, seq -> ctrl` (R130); the operand value 3 is no kind (R77). -/
def execCtlEnc (kind : BitVec 2) (seq : Seq) (s : State) : Outcome :=
  match Kind.ofCode kind with
  | some k => .next (s.withResult (.control (ctlEnc k seq)))
  | none => .next (s.withResult .invalidArgument)

/-- `FRM.ENC addr, kind, seq, P, ocap -> status, out, n` (R131, R132). An address `0x7E` or `0x7D` is
escaped like any body byte (R137, assumption 13). -/
def execFrmEnc (addr : Byte) (kind : BitVec 2) (seq : Seq) (p : List Byte) (ocap : Nat) (s : State) :
    Outcome :=
  match Kind.ofCode kind with
  | none => .next (encodeRejected ocap s)
  | some k =>
    match frameEncode addr k seq p ocap with
    | none => .next (encodeRejected ocap s)
    | some bytes => .next (encodeDone bytes s)

end Sys2Proof.Machine
end

