-- ==== Sys2Proof/Syntax.lean ====
section
/-! DEFINITION. The instruction syntax: one constructor for each of the 23 rows of
spec/opcode_table.json. The sixteen `OP4` rows are the operations of R76 with their operands in the
order of that table. The five `CTRL8` rows are the classes of the control byte (R66 to R73), each
with every bit of the byte that its class leaves open; the two `BYTE8` rows are the reserved wire
bytes (R120). The wire-format rows are what the frame decoder executes when it meets such a byte. -/

namespace Sys2Proof

inductive Instr where
  /-- `FCS.INIT -> s` (R104). -/
  | fcsInit
  /-- `FCS.UPDATE s, b -> s'` (R102). -/
  | fcsUpdate (s : Acc) (b : Byte)
  /-- `FCS.FINAL s -> lo, hi` (R105). -/
  | fcsFinal (s : Acc)
  /-- `FCS.CHECK s -> good` (R106). -/
  | fcsCheck (s : Acc)
  /-- `ESC.ENC b -> n, o0, o1` (R121). -/
  | escEnc (b : Byte)
  /-- `ESC.DEC pending, b -> pending', valid, o` (R122). -/
  | escDec (pending : Bool) (b : Byte)
  /-- `CTL.ENC kind, seq -> ctrl` (R130); `kind` is the 2-bit port code of R77. -/
  | ctlEnc (kind : BitVec 2) (seq : Seq)
  /-- `CTL.DEC ctrl -> kind, seq` (R150). -/
  | ctlDec (ctrl : Byte)
  /-- `FRM.ENC addr, kind, seq, P, ocap -> status, out, n` (R131). -/
  | frmEnc (addr : Byte) (kind : BitVec 2) (seq : Seq) (p : List Byte) (ocap : Nat)
  /-- `FRM.DEC W, dcap -> status, kind, seq, addr, dst, plen, discard` (R151). -/
  | frmDec (w : List Byte) (dcap : Nat)
  /-- `BUF.UNUSED -> base, free` (R180). -/
  | bufUnused
  /-- `BUF.APPEND n -> status` (R182). -/
  | bufAppend (n : Nat)
  /-- `BUF.DATA -> W, len` (R183). -/
  | bufData
  /-- `BUF.ERASE k -> status` (R184). -/
  | bufErase (k : Nat)
  /-- `BUF.CLEAR` (R185). -/
  | bufClear
  /-- `BUF.CAP -> cap` (R186). -/
  | bufCap
  /-- A Data control byte: `NS` in bits 3:1, `P/F` in bit 4, `NR` in bits 7:5 (R66, R67). -/
  | ctrlData (ns : Seq) (pf : BitVec 1) (nr : Seq)
  /-- An Ack control byte: `NR` in bits 7:5, `P/F` in bit 4, bit 1 (R66, R68). -/
  | ctrlAck (nr : Seq) (pf : BitVec 1) (b1 : BitVec 1)
  /-- A Nack control byte (R66, R69). -/
  | ctrlNack (nr : Seq) (pf : BitVec 1) (b1 : BitVec 1)
  /-- A supervisory control byte with the unsupported S-type 1 (R72). -/
  | ctrlUnsupportedS1 (nr : Seq) (pf : BitVec 1) (b1 : BitVec 1)
  /-- A supervisory control byte with the unsupported S-type 3 (R72). -/
  | ctrlUnsupportedS3 (nr : Seq) (pf : BitVec 1) (b1 : BitVec 1)
  /-- The raw Flag byte `0x7E` on the wire (R120, R153, R154). -/
  | wireFlag
  /-- The raw Escape byte `0x7D` on the wire (R120, R155). -/
  | wireEscape
deriving DecidableEq, Repr

end Sys2Proof
end

