-- ==== Sys2Proof/WellFormed.lean ====
section
/-! DEFINITION. What makes an instruction well-formed: every count and every byte sequence fits the
32-bit count lane of the issue port (assumption 9), and, for a block built with given parameters, the
operand ranges of R131, R151, R182 and R184. -/

namespace Sys2Proof

/-- A count that the issue port's four-byte count lane carries. -/
abbrev fitsLane (n : Nat) : Bool := decide (n < 2 ^ 32)

/-- Every count operand can be issued. The other operands are as wide as their ports by type. -/
def Instr.wf : Instr → Bool
  | .frmEnc _ _ _ p ocap => fitsLane p.length && fitsLane ocap
  | .frmDec w dcap => fitsLane w.length && fitsLane dcap
  | .bufAppend n => fitsLane n
  | .bufErase k => fitsLane k
  | .fcsInit | .fcsUpdate _ _ | .fcsFinal _ | .fcsCheck _ | .escEnc _ | .escDec _ _
  | .ctlEnc _ _ | .ctlDec _ | .bufUnused | .bufData | .bufClear | .bufCap
  | .ctrlData _ _ _ | .ctrlAck _ _ _ | .ctrlNack _ _ _ | .ctrlUnsupportedS1 _ _ _
  | .ctrlUnsupportedS3 _ _ _ | .wireFlag | .wireEscape => true

/-- The operand ranges of a block built with `p`: `ocap ≤ WCAP` (R131), `len(W) ≤ CAP` and
`dcap ≤ DCAP` (R151), counts of `IW` bits (R182, R184). The machine runs the rules on any operands;
these ranges are what Safety.lean asks of a host that keeps its duties. -/
def Instr.inRange (p : Config.Params) : Instr → Bool
  | .frmEnc _ _ _ _ ocap => decide (ocap ≤ p.wcap)
  | .frmDec w dcap => decide (w.length ≤ p.cap) && decide (dcap ≤ p.dcap)
  | .bufAppend n => decide (n < 2 ^ p.iw)
  | .bufErase k => decide (k < 2 ^ p.iw)
  | .fcsInit | .fcsUpdate _ _ | .fcsFinal _ | .fcsCheck _ | .escEnc _ | .escDec _ _
  | .ctlEnc _ _ | .ctlDec _ | .bufUnused | .bufData | .bufClear | .bufCap
  | .ctrlData _ _ _ | .ctrlAck _ _ _ | .ctrlNack _ _ _ | .ctrlUnsupportedS1 _ _ _
  | .ctrlUnsupportedS3 _ _ _ | .wireFlag | .wireEscape => true

end Sys2Proof
end

