-- ==== Sys2Proof/Decode.lean ====
section
/-! DEFINITION. The decoder, total on any bytes and rejecting by name, and the encoder written from
the same tables. Three number spaces of the opcode table are told apart by the port a word stands on
(assumption 10): the issue port carries the 4-bit select code of R76 and its operand lanes
(assumption 9), the control port the unescaped control byte of a frame (R66 to R73), the wire port
the raw reserved bytes (R120). -/

namespace Sys2Proof

/-- Where a word is read from. -/
inductive Port where
  /-- The host's issue port: a select code and its operands (R76). -/
  | op
  /-- Body position 1 of the frame decoder, after unescaping (R157). -/
  | ctrl
  /-- The raw byte under the frame decoder's scan index (R153 to R155). -/
  | wire
deriving DecidableEq, Repr

/-- Why a word is no instruction. -/
inductive DecodeError where
  /-- No byte where the select code or the byte itself should stand. -/
  | empty
  /-- The first byte of an issue is no 4-bit select code (R76). -/
  | notASelectCode
  /-- The operand lanes end before the operation's operands do. -/
  | truncated
  /-- A narrow operand's lane holds a value wider than the operand (R77). -/
  | laneTooWide
  /-- A wire byte that is neither Flag nor Escape: no row of the table names it. -/
  | notReserved
deriving DecidableEq, Repr

/-! ### Operand lanes of the issue port (assumption 9) -/

def lane8 : List Byte → Except DecodeError (Byte × List Byte)
  | b :: t => .ok (b, t)
  | [] => .error .truncated

/-- Two bytes, low byte first (the order R41 gives the one 16-bit quantity). -/
def lane16 : List Byte → Except DecodeError (Acc × List Byte)
  | lo :: hi :: t => .ok (hi ++ lo, t)
  | _ => .error .truncated

/-- A count, four bytes, low byte first. -/
def laneCount : List Byte → Except DecodeError (Nat × List Byte)
  | b0 :: b1 :: b2 :: b3 :: t =>
    .ok (b0.toNat + 0x100 * b1.toNat + 0x10000 * b2.toNat + 0x1000000 * b3.toNat, t)
  | _ => .error .truncated

/-- A narrow operand of `w` bits in a byte of its own, the bits above it zero. -/
def laneNarrow (w : Nat) : List Byte → Except DecodeError (BitVec w × List Byte)
  | b :: t => if b.toNat < 2 ^ w then .ok (b.setWidth w, t) else .error .laneTooWide
  | [] => .error .truncated

/-- A byte sequence of known length. -/
def laneBytes (n : Nat) (t : List Byte) : Except DecodeError (List Byte × List Byte) :=
  if n ≤ t.length then .ok (t.take n, t.drop n) else .error .truncated

/-! ### The control byte (R66, R71, R73) -/

/-- Every one of the 256 control bytes is one row of the table, with the bits the row leaves open. -/
def decodeControl (c : Byte) : Instr :=
  let nr := c.extractLsb' 5 3
  let pf := c.extractLsb' 4 1
  let b1 := c.extractLsb' 1 1
  if c.extractLsb' 0 1 = 0 then .ctrlData (c.extractLsb' 1 3) pf nr
  else if c.extractLsb' 2 2 = 0 then .ctrlAck nr pf b1
  else if c.extractLsb' 2 2 = 1 then .ctrlUnsupportedS1 nr pf b1
  else if c.extractLsb' 2 2 = 2 then .ctrlNack nr pf b1
  else .ctrlUnsupportedS3 nr pf b1

/-- The Data control byte with the given fields (R66): S = 0. -/
def controlData (ns : Seq) (pf : BitVec 1) (nr : Seq) : Byte :=
  (nr.setWidth 8 <<< 5) ||| (pf.setWidth 8 <<< 4) ||| (ns.setWidth 8 <<< 1)

/-- A supervisory control byte with the given fields (R66): S = 1, S-type in bits 3:2. -/
def controlSuper (stype : BitVec 2) (nr : Seq) (pf b1 : BitVec 1) : Byte :=
  (nr.setWidth 8 <<< 5) ||| (pf.setWidth 8 <<< 4) ||| (stype.setWidth 8 <<< 2) |||
    (b1.setWidth 8 <<< 1) ||| 1

/-! ### The decoder -/

/-- The sixteen select codes of R76 and their operands in that table's order; the length operand of
a byte sequence stands before the sequence, which comes last. -/
def decodeOp (sel : Nat) (t : List Byte) : Except DecodeError (Instr × List Byte) :=
  match sel with
  | 0x0 => .ok (.fcsInit, t)
  | 0x1 => do
    let (s, t) ← lane16 t
    let (b, t) ← lane8 t
    .ok (.fcsUpdate s b, t)
  | 0x2 => do
    let (s, t) ← lane16 t
    .ok (.fcsFinal s, t)
  | 0x3 => do
    let (s, t) ← lane16 t
    .ok (.fcsCheck s, t)
  | 0x4 => do
    let (b, t) ← lane8 t
    .ok (.escEnc b, t)
  | 0x5 => do
    let (p, t) ← laneNarrow 1 t
    let (b, t) ← lane8 t
    .ok (.escDec (p == 1) b, t)
  | 0x6 => do
    let (k, t) ← laneNarrow 2 t
    let (q, t) ← laneNarrow 3 t
    .ok (.ctlEnc k q, t)
  | 0x7 => do
    let (c, t) ← lane8 t
    .ok (.ctlDec c, t)
  | 0x8 => do
    let (a, t) ← lane8 t
    let (k, t) ← laneNarrow 2 t
    let (q, t) ← laneNarrow 3 t
    let (n, t) ← laneCount t
    let (c, t) ← laneCount t
    let (p, t) ← laneBytes n t
    .ok (.frmEnc a k q p c, t)
  | 0x9 => do
    let (n, t) ← laneCount t
    let (d, t) ← laneCount t
    let (w, t) ← laneBytes n t
    .ok (.frmDec w d, t)
  | 0xA => .ok (.bufUnused, t)
  | 0xB => do
    let (n, t) ← laneCount t
    .ok (.bufAppend n, t)
  | 0xC => .ok (.bufData, t)
  | 0xD => do
    let (k, t) ← laneCount t
    .ok (.bufErase k, t)
  | 0xE => .ok (.bufClear, t)
  | 0xF => .ok (.bufCap, t)
  | _ => .error .notASelectCode

/-- The instruction at the head of the bytes on a port, and the bytes after it. -/
def decode (port : Port) : List Byte → Except DecodeError (Instr × List Byte)
  | [] => .error .empty
  | b :: t =>
    match port with
    | .op => decodeOp b.toNat t
    | .ctrl => .ok (decodeControl b, t)
    | .wire =>
      if b = Config.FLAG then .ok (.wireFlag, t)
      else if b = Config.ESC then .ok (.wireEscape, t)
      else .error .notReserved

/-! ### The encoder -/

def encode16 (s : Acc) : List Byte := [s.extractLsb' 0 8, s.extractLsb' 8 8]

def encodeCount (n : Nat) : List Byte :=
  [BitVec.ofNat 8 n, BitVec.ofNat 8 (n / 0x100), BitVec.ofNat 8 (n / 0x10000),
    BitVec.ofNat 8 (n / 0x1000000)]

/-- The port an instruction's words stand on. -/
def Instr.port : Instr → Port
  | .ctrlData _ _ _ | .ctrlAck _ _ _ | .ctrlNack _ _ _ | .ctrlUnsupportedS1 _ _ _
  | .ctrlUnsupportedS3 _ _ _ => .ctrl
  | .wireFlag | .wireEscape => .wire
  | .fcsInit | .fcsUpdate _ _ | .fcsFinal _ | .fcsCheck _ | .escEnc _ | .escDec _ _
  | .ctlEnc _ _ | .ctlDec _ | .frmEnc _ _ _ _ _ | .frmDec _ _ | .bufUnused | .bufAppend _
  | .bufData | .bufErase _ | .bufClear | .bufCap => .op

/-- The words of an instruction on its port. -/
def encode : Instr → List Byte
  | .fcsInit => [0x0]
  | .fcsUpdate s b => 0x1 :: encode16 s ++ [b]
  | .fcsFinal s => 0x2 :: encode16 s
  | .fcsCheck s => 0x3 :: encode16 s
  | .escEnc b => [0x4, b]
  | .escDec p b => [0x5, if p then 1 else 0, b]
  | .ctlEnc k q => [0x6, k.setWidth 8, q.setWidth 8]
  | .ctlDec c => [0x7, c]
  | .frmEnc a k q p c =>
    [0x8, a, k.setWidth 8, q.setWidth 8] ++ encodeCount p.length ++ encodeCount c ++ p
  | .frmDec w d => 0x9 :: encodeCount w.length ++ encodeCount d ++ w
  | .bufUnused => [0xA]
  | .bufAppend n => 0xB :: encodeCount n
  | .bufData => [0xC]
  | .bufErase k => 0xD :: encodeCount k
  | .bufClear => [0xE]
  | .bufCap => [0xF]
  | .ctrlData ns pf nr => [controlData ns pf nr]
  | .ctrlAck nr pf b1 => [controlSuper 0 nr pf b1]
  | .ctrlNack nr pf b1 => [controlSuper 2 nr pf b1]
  | .ctrlUnsupportedS1 nr pf b1 => [controlSuper 1 nr pf b1]
  | .ctrlUnsupportedS3 nr pf b1 => [controlSuper 3 nr pf b1]
  | .wireFlag => [Config.FLAG]
  | .wireEscape => [Config.ESC]

/-! ### A word of the opcode table -/

/-- The longest instruction whose byte sequences are empty, in bytes (`FRM.ENC`). -/
abbrev longestFixed : Nat := 12

/-- `n` bytes of `w`, the least significant first. -/
def bytesOf : Nat → Nat → List Byte
  | 0, _ => []
  | n + 1, w => BitVec.ofNat 8 w :: bytesOf n (w / 0x100)

/-- The port a table word without a tag stands on (assumption 10): a first byte below 16 is a select
code; the reserved bytes are wire bytes; any other byte is a control byte. -/
def portOfWord (w : Nat) : Port :=
  if w % 0x100 < 0x10 then .op
  else if w % 0x100 = 0x7E ∨ w % 0x100 = 0x7D then .wire
  else .ctrl

/-- The lanes a table word puts on its port: `nbits` bits of `w`, every bit above them zero. -/
def lanesOfWord (nbits w : Nat) : List Byte := bytesOf longestFixed (w % 2 ^ nbits)

/-- The instruction the decoder reads from a word of the opcode table. -/
def decodeTableWord (nbits w : Nat) : Option Instr :=
  match decode (portOfWord (w % 2 ^ nbits)) (lanesOfWord nbits w) with
  | .ok (i, _) => some i
  | .error _ => none

end Sys2Proof
end

