-- ==== Sys2Proof/Machine/Wire.lean ====
section
/-! DEFINITION. The wire format executed byte by byte: the turns of R152's loop as steps on the scan in
progress (assumption 11), the meanings of the seven wire-format rows of the opcode table, the body
bytes that no row names, the end of a window, and the transport's fill (R181). -/

namespace Sys2Proof.Machine

/-- The registers of the scan in progress; a scan that has not begun starts at line L0 (R29). -/
def State.scanning (s : State) : Scan := s.scan.getD Scan.start

/-- The look-ahead of R152: is the next byte presented to this scan a Flag? -/
def State.lookAhead (s : State) : Bool :=
  match s.inputs with
  | .wire b :: _ => b == Config.FLAG
  | _ => false

/-- After a turn: the scan goes on, or the closing Flag has ended it and its outcome is delivered
(R152 L5, L13). -/
def State.afterTurn (s : State) (sc : Scan) : State :=
  if sc.frameStop.isSome then { s with scan := none }.deliver s.params.dcap sc else { s with scan := some sc }

/-- A turn that may overflow the destination, of `DCAP` bytes (R162). The window presented byte by byte has
no bound, where R151 bounds that of `FRM.DEC` by `CAP`; so a turn can overflow although
`DCAP ≥ CAP - 3`, which R240 excludes for `FRM.DEC` (the model's choice, assumption 24). -/
def State.takeTurn (s : State) (t : Except Nat Scan) : Outcome :=
  match t with
  | .error i => raiseDstOverflow i
  | .ok sc => .next (s.afterTurn sc)

/-- The unescaped byte `c` meets the scan in progress: at body position 1 it is decoded into kind and
sequence number (R152 L8 to L12, R157). -/
def State.controlByte (s : State) (c : Byte) : Outcome :=
  s.takeTurn (s.scanning.unescaped s.params.dcap c)

/-- `CTRL.DATA` (R66, R67, R71). -/
def execCtrlData (ns : Seq) (pf : BitVec 1) (nr : Seq) (s : State) : Outcome :=
  s.controlByte (controlData ns pf nr)

/-- `CTRL.ACK` (R66, R68, R71). -/
def execCtrlAck (nr : Seq) (pf b1 : BitVec 1) (s : State) : Outcome :=
  s.controlByte (controlSuper 0 nr pf b1)

/-- `CTRL.NACK` (R66, R69, R71). -/
def execCtrlNack (nr : Seq) (pf b1 : BitVec 1) (s : State) : Outcome :=
  s.controlByte (controlSuper 2 nr pf b1)

/-- `CTRL.UNSUPPORTED_S1`: decoded as Nack by decision D9 (R72, assumption 14). -/
def execCtrlUnsupportedS1 (nr : Seq) (pf b1 : BitVec 1) (s : State) : Outcome :=
  s.controlByte (controlSuper 1 nr pf b1)

/-- `CTRL.UNSUPPORTED_S3`: decoded as Nack by decision D9 (R72, assumption 14). -/
def execCtrlUnsupportedS3 (nr : Seq) (pf b1 : BitVec 1) (s : State) : Outcome :=
  s.controlByte (controlSuper 3 nr pf b1)

/-- `WIRE.FLAG` (R120, R153, R154): filler, opening Flag or closing Flag. -/
def execWireFlag (s : State) : Outcome := .next (s.afterTurn (s.scanning.flag s.lookAhead))

/-- `WIRE.ESCAPE` (R120, R155). -/
def execWireEscape (s : State) : Outcome := .next (s.afterTurn s.scanning.escape)

/-- A raw body byte that no row of the opcode table names: address, payload or FCS byte (R156), or a
byte before the opening Flag (R166). -/
def State.plainByte (s : State) (b : Byte) : Outcome :=
  s.takeTurn (s.scanning.plain s.params.dcap b)

/-- The scan in progress stands at the control byte: opening Flag seen, body position 1 (R156). -/
def State.atControl (s : State) : Bool :=
  s.scanning.frameStart.isSome && s.scanning.pos == 1

/-- The instruction a raw wire byte stands for in this state, if a row of the table names it: Flag and
Escape first (R154), then, at body position 1, the class of the unescaped byte (R157). -/
def State.wireInstr (s : State) (b : Byte) : Option Instr :=
  match decode .wire [b] with
  | .ok (i, _) => some i
  | .error _ =>
    if s.atControl then some (decodeControl (unescape s.scanning.escapePending b)) else none

/-- The registers after the opening Flag and the broadcast address of a frame, standing at its control
byte (assumption 12). -/
def Scan.atControlByte : Scan :=
  { Scan.start with
    i := 2
    frameStart := some 0
    fcs := fcsUpdate Config.FCS_INIT Config.BROADCAST
    pos := 1
    addr := some Config.BROADCAST }

/-- The window ends (R152 L13, R159, R165): without a closing Flag the outcome is `NoFrame`, and the
scan's registers are gone (R29). -/
def State.endWindow (s : State) : Outcome :=
  .next ({ s with scan := none }.deliver s.params.dcap s.scanning)

/-- The transport's fill of one cell (R181): a cell of the suffix `buf[tail .. CAP-1]` and no other
(assumption 17). -/
def State.fillCell (s : State) (index : Nat) (b : Byte) : Outcome :=
  if s.tail ≤ index ∧ index < s.params.cap then .next { s with buf := s.buf.write index b }
  else .refused .fillOutsideSuffix

end Sys2Proof.Machine
end

