-- ==== Sys2Proof/Machine/Dispatch.lean ====
section
/-! DEFINITION. The dispatch: one arm for each constructor of Instr, one direct call of its meaning. -/

namespace Sys2Proof.Machine

def exec (i : Instr) (s : State) : Host.Outcome State Fault Refusal :=
  match i with
  -- the FCS engine (40_fcs.md)
  | .fcsInit => Sys2Proof.Machine.execFcsInit s
  | .fcsUpdate acc b => Sys2Proof.Machine.execFcsUpdate acc b s
  | .fcsFinal acc => Sys2Proof.Machine.execFcsFinal acc s
  | .fcsCheck acc => Sys2Proof.Machine.execFcsCheck acc s
  -- the byte escaper (41_escaper.md)
  | .escEnc b => Sys2Proof.Machine.execEscEnc b s
  | .escDec pending b => Sys2Proof.Machine.execEscDec pending b s
  -- the frame codec (42_frame_encode.md, 43_frame_decode.md)
  | .ctlEnc kind seq => Sys2Proof.Machine.execCtlEnc kind seq s
  | .ctlDec ctrl => Sys2Proof.Machine.execCtlDec ctrl s
  | .frmEnc addr kind seq p ocap => Sys2Proof.Machine.execFrmEnc addr kind seq p ocap s
  | .frmDec w dcap => Sys2Proof.Machine.execFrmDec w dcap s
  -- the reassembly buffer (44_reassembly_buffer.md)
  | .bufUnused => Sys2Proof.Machine.execBufUnused s
  | .bufAppend n => Sys2Proof.Machine.execBufAppend n s
  | .bufData => Sys2Proof.Machine.execBufData s
  | .bufErase k => Sys2Proof.Machine.execBufErase k s
  | .bufClear => Sys2Proof.Machine.execBufClear s
  | .bufCap => Sys2Proof.Machine.execBufCap s
  -- the wire format (30_encoding.md)
  | .ctrlData ns pf nr => Sys2Proof.Machine.execCtrlData ns pf nr s
  | .ctrlAck nr pf b1 => Sys2Proof.Machine.execCtrlAck nr pf b1 s
  | .ctrlNack nr pf b1 => Sys2Proof.Machine.execCtrlNack nr pf b1 s
  | .ctrlUnsupportedS1 nr pf b1 => Sys2Proof.Machine.execCtrlUnsupportedS1 nr pf b1 s
  | .ctrlUnsupportedS3 nr pf b1 => Sys2Proof.Machine.execCtrlUnsupportedS3 nr pf b1 s
  | .wireFlag => Sys2Proof.Machine.execWireFlag s
  | .wireEscape => Sys2Proof.Machine.execWireEscape s

end Sys2Proof.Machine
end

