-- ==== Sys2Proof/Machine/Issue.lean ====
section
/-! DEFINITION. Issuing an operation: what the step does with the lanes of the issue port, and what every
sequence of operations does with each of its operations. -/

namespace Sys2Proof.Machine

/-- The host issues an operation (R31): it begins with no scan of an earlier one left (R20, R29) and is carried
out whole (R8). -/
def issue (i : Instr) (s : State) : Outcome := exec i s.beginOperation

end Sys2Proof.Machine
end

