-- ==== Sys2Proof/Machine/Step.lean ====
section
/-! DEFINITION. One step: the block takes the oldest input the outside has presented (R31, R48, R242)
and carries it out whole (R8). With nothing presented nothing happens. -/

namespace Sys2Proof.Machine

/-- One step. Issuing an operation drops a scan in progress (R20, R29). Lanes left over behind an
operation's operands are ignored (the model's choice, assumption 9). -/
def step (s : State) : Host.Outcome State Fault Refusal :=
  match s.inputs with
  | [] => .next s
  | .issue lanes :: rest =>
    match decode .op lanes with
    | .ok (i, _) => issue i { s with inputs := rest }
    | .error _ => .refused .malformedIssue
  | .wire b :: rest =>
    match s.wireInstr b with
    | some i => exec i { s with inputs := rest }
    | none => { s with inputs := rest }.plainByte b
  | .windowEnd :: rest => { s with inputs := rest }.endWindow
  | .fill index b :: rest => { s with inputs := rest }.fillCell index b

/-- `s` with the instruction of a table word presented as the oldest input. For a control byte the scan
in progress is put at the control position of a broadcast frame (assumption 12). -/
def State.withFetchWord (s : State) (nbits w : Nat) : State :=
  match portOfWord (w % 2 ^ nbits) with
  | .op => { s with inputs := .issue (lanesOfWord nbits w) :: s.inputs }
  | .wire => { s with inputs := .wire (BitVec.ofNat 8 (w % 2 ^ nbits)) :: s.inputs }
  | .ctrl =>
    { s with
      inputs := .wire (BitVec.ofNat 8 (w % 2 ^ nbits)) :: s.inputs
      scan := some Scan.atControlByte }

end Sys2Proof.Machine
end

