-- ==== Sys2Proof/Machine/Pseudo.lean ====
section
/-! DEFINITION. The two pseudo-operations of R78, each the sequence of issued operations it stands for. -/

namespace Sys2Proof.Machine

/-- One operation after another: a fault or a refusal ends the sequence. -/
def andThen (o : Outcome) (f : State → Outcome) : Outcome :=
  match o with
  | .next s => f s
  | .fault r => .fault r
  | .refused r => .refused r

/-- The transport's fill of ascending cells from `index` (R181). -/
def fillAll : Nat → List Byte → State → Outcome
  | _, [], s => .next s
  | index, b :: bs, s => andThen (s.fillCell index b) (fillAll (index + 1) bs)

/-- `RX.PUSH bytes` (R78): `BUF.UNUSED`, the fill from `base = tail`, `BUF.APPEND`. It requires
`n ≤ free`; a longer sequence is a fill outside the suffix. -/
def rxPush (bytes : List Byte) (s : State) : Outcome :=
  andThen (issue .bufUnused s) fun s =>
    andThen (fillAll s.tail bytes s) (issue (.bufAppend bytes.length))

/-- `RX.POLL` (R78) with a destination of `dcap` bytes, `DCAP` in that rule: `BUF.DATA`, `FRM.DEC`,
`BUF.ERASE` of a positive `discard`, and the overflow recovery of R188. Its result is the decode's. -/
def rxPoll (dcap : Nat) (s : State) : Outcome :=
  andThen (issue .bufData s) fun s1 =>
  andThen (issue (.frmDec s.data dcap) s1) fun s2 =>
  andThen (if 0 < s2.result.discard then issue (.bufErase s2.result.discard) s2 else .next s2) fun s3 =>
  andThen (if s2.result.status = some .noFrame ∧ s.full then issue .bufClear s3 else .next s3) fun s4 =>
    .next (s4.withResult s2.result)

end Sys2Proof.Machine
end

