-- ==== Sys2Proof/Machine/Session.lean ====
section
/-! DEFINITION. The host of the block (45_host_session.md): the session engine's state and its
procedures `read`, `write` and `close`, over the block's operations. It is no part of the block (R4,
R35): no step of the machine reads or writes a session, and no field of State belongs to one. What the
document leaves open is a parameter here (R207, R208, R210, R215, R222; assumption 21). What the
transport and the other threads do during a call is an argument, in the order in which the call meets
it; a call that has met all of it without returning is still waiting. -/

namespace Sys2Proof.Machine

/-- The tri-state the reader publishes and the writer polls (R201, R219). -/
inductive WriteResult where
  | none
  | ack
  | nack
deriving DecidableEq, Repr

/-- The error kinds of R235, and the one the implementer picks for Nack exhaustion (R215). Their numbers
are not given (R236). -/
inductive SessionError where
  | invalidArgument
  | noMessage
  | badData
  | timeout
  | transport (code : Int)
  | nackExhausted
deriving DecidableEq, Repr

/-- The sender's states (R216); `waited` counts the milliseconds of the attempt (R214). -/
inductive Sender where
  | idle
  | awaitingAck (seq : Seq) (attempt waited : Nat)
deriving DecidableEq, Repr

/-- What the document leaves open for the host (92_eei_decisions.md D30; 91_not_in_source.md N37). -/
structure SessionOpen where
  /-- `BADFRAME_SKIPS_READ` (R207). -/
  badFrameSkipsRead : Bool
  /-- `SUPPRESS_DUPLICATES` (R222). -/
  suppressDuplicates : Bool
  /-- `RX_SEQ_INCREMENTS`: 1 is the spec's reading (R208), 2 the other. -/
  rxSeqIncrements : Nat
  /-- `NACK_NR_SOURCE`: the bad frame's own sequence number instead of `rx_seq` (R210). -/
  nackFromFrame : Bool
  /-- `NACK_EXHAUSTED_ERROR` (R215); also where only the last attempt ended in a Nack (assumption 29). -/
  nackError : SessionError
  /-- Acks and Nacks answer the received address, not the default one (N37). -/
  answerReceived : Bool
  /-- The capacity in bytes of the sink the reader encodes its Acks and Nacks into (N9); R131 asks for at most
  `WCAP`. -/
  replyCap : Nat
deriving DecidableEq, Repr

/-- The session's state and options (R201, R203); `lastError` is the decode error that `read` returns
when it is stopped (R212), and `replyOut` the sink of the reader's own encodes, distinct from the writer's scratch
buffer `State.out` (R51, R219, U16; assumption 25). -/
structure Session where
  rxSeq : Seq
  txSeq : Seq
  lastDelivered : Seq
  writeResult : WriteResult
  stopped : Bool
  writerLocked : Bool
  sender : Sender
  lastError : Option SessionError
  replyOut : Memory
  writeTimeout : Nat
  writeRetries : Nat
deriving DecidableEq, Repr

/-- A new session (R37, R201). -/
def Session.new (writeTimeout writeRetries : Nat) : Session :=
  { rxSeq := 0
    txSeq := 0
    lastDelivered := 0
    writeResult := .none
    stopped := false
    writerLocked := false
    sender := .idle
    lastError := none
    replyOut := []
    writeTimeout := writeTimeout
    writeRetries := writeRetries }

/-! ### read and close (R205 to R212, R217) -/

/-- A frame the reader emits (R208, R210). -/
structure Reply where
  addr : Byte
  kind : Kind
  seq : Seq
deriving DecidableEq, Repr

/-- A payload handed to the caller with the decoded address (R208). -/
structure Delivery where
  payload : List Byte
  addr : Byte
deriving DecidableEq, Repr

/-- What the reader does with a decode's result (R208 to R211). -/
structure Dispatched where
  session : Session
  reply : Option Reply
  delivery : Option Delivery
deriving DecidableEq, Repr

/-- The address of a reply to a frame that carried `addr` (N37). -/
def SessionOpen.replyAddr (o : SessionOpen) (addr : Option Byte) : Byte :=
  if o.answerReceived then addr.getD Config.BROADCAST else Config.BROADCAST

/-- The error a decode ends in, if it does (R212, R235). -/
def Result.decodeError : Result → Option SessionError
  | .noFrame _ => some .noMessage
  | .badFrame _ _ _ _ => some .badData
  | .idle | .invalidArgument | .accumulator _ | .fcsBytes _ _ | .check _ | .escaped _ _ _
  | .unescaped _ _ _ | .control _ | .kindSeq _ _ | .encoded _ _ | .frame _ _ _ _ _ _ | .unused _ _ | .ok
  | .window _ _ | .capacity _ => none

/-- A decode has ended: its error, if it has one, is now the last decode error (R212). -/
def Session.noteDecode (h : Session) (r : Result) : Session :=
  { h with lastError := r.decodeError.or h.lastError }

/-- Step 2d of `read` (R208 to R211). -/
def Session.dispatch (o : SessionOpen) (h : Session) (r : Result) : Dispatched :=
  match r with
  | .frame .data q a p _ _ =>
    let duplicate := o.suppressDuplicates && q == h.lastDelivered
    { session :=
        { h with
          rxSeq := h.rxSeq + BitVec.ofNat 3 o.rxSeqIncrements
          lastDelivered := q }
      reply := some ⟨o.replyAddr (some a), .ack, h.rxSeq + 1⟩
      delivery := if duplicate then none else some ⟨p, a⟩ }
  | .frame .ack _ _ _ _ _ => ⟨{ h with writeResult := .ack }, none, none⟩
  | .frame .nack _ _ _ _ _ => ⟨{ h with writeResult := .nack }, none, none⟩
  | .badFrame (some .data) q a _ =>
    { session := h.noteDecode r
      reply :=
        some ⟨o.replyAddr a, .nack, if o.nackFromFrame then q.getD h.rxSeq else h.rxSeq⟩
      delivery := none }
  | .badFrame _ _ _ _ | .noFrame _ => ⟨h.noteDecode r, none, none⟩
  | _ => ⟨h, none, none⟩

/-- Step 1 of `read` (R205): the destination is not empty and not larger than the reassembly buffer. -/
def readAccepts (dstLen : Nat) (s : State) : Bool := decide (1 ≤ dstLen ∧ dstLen ≤ s.params.cap)

/-- What one call of the transport's read callback does (R204): the bytes it places at the start of the
writable suffix, and the number it returns, an error where that is not positive. -/
structure TransportRead where
  placed : List Byte
  value : Int
deriving DecidableEq, Repr

/-- The read that delivers `bytes` and returns their number (R204). -/
def TransportRead.ofBytes (bytes : List Byte) : TransportRead := ⟨bytes, bytes.length⟩

/-- Sub-step a of `read` (R206): is what the first decode found complete? (R207) -/
def SessionOpen.complete (o : SessionOpen) (r : Result) : Bool :=
  r.status == some .ok || (o.badFrameSkipsRead && r.status == some .badFrame)

/-- How the sub-steps of one turn of the read loop leave the block. A fault or a refusal comes with the block as the
operation that ended so left it. -/
inductive Turn where
  /-- They were carried out; after a decode the result port holds the decode's result. -/
  | done (s : State)
  /-- The transport read failed with this value, which is returned verbatim (R206). -/
  | failed (value : Int) (s : State)
  /-- The decode faulted (R240). -/
  | fault (f : Fault) (s : State)
  /-- A fill outside the suffix (R181). -/
  | refused (r : Refusal) (s : State)
deriving DecidableEq, Repr

/-- One operation, or one fill, of a turn; one that ends in a fault or a refusal leaves the block as it was
(R181, R238, R240). -/
def Turn.run (f : State → Outcome) (s : State) : Turn :=
  match f s with
  | .next t => .done t
  | .fault e => .fault e s
  | .refused e => .refused e s

/-- One sub-step after another, while the turn goes on. -/
def Turn.andThen (t : Turn) (f : State → Turn) : Turn :=
  match t with
  | .done s => f s
  | .failed _ _ | .fault _ _ | .refused _ _ => t

/-- `BUF.DATA`, then `FRM.DEC` of the window. After `DstOverflow` the buffer and `tail` are unchanged, the window is
not consumed (R240), and the destination holds no value the spec gives (R163); the result port, for which no
result is defined, still shows the window (assumption 28). -/
def decodeWindow (dcap : Nat) (s : State) : Turn :=
  (Turn.run (issue .bufData) s).andThen fun t =>
    match Turn.run (issue (.frmDec s.data dcap)) t with
    | .fault f t => .fault f (t.unspecifyDst dcap)
    | ended => ended

/-- Overflow recovery (R188, R206): a full buffer whose decode gave `NoFrame` is cleared. -/
def recoverOverflow (s : State) : Outcome :=
  if s.full ∧ s.result.status = some .noFrame then issue .bufClear s else .next s

/-- Sub-step c of `read` (R206): the discarded bytes are erased; the result stays the decode's. -/
def eraseDiscard (s : State) : Outcome :=
  if 0 < s.result.discard then
    andThen (issue (.bufErase s.result.discard) s) fun t => .next (t.withResult s.result)
  else .next s

/-- Sub-steps b and c of `read` (R206): `BUF.UNUSED`, the fill, and where the transport returned a positive
number `BUF.APPEND` of that number, the decode and the erase. A number that is not that of the bytes placed
is taken at its word (assumption 27). -/
def readTransport (dstLen : Nat) (c : TransportRead) (s : State) : Turn :=
  (Turn.run (issue .bufUnused) s).andThen fun s =>
  (Turn.run (fillAll s.tail c.placed) s).andThen fun s =>
    if c.value ≤ 0 then .failed c.value s
    else
      (Turn.run (issue (.bufAppend c.value.toNat)) s).andThen fun s =>
      (decodeWindow dstLen s).andThen (Turn.run eraseDiscard)

/-- Sub-steps a to c of one turn of `read` (R206); `c` is what the transport read does if it is called. The first
component is what sub-step a's decode returned, if the buffer held data. -/
def readTurn (o : SessionOpen) (dstLen : Nat) (c : TransportRead) (s : State) : Option Result × Turn :=
  if s.empty then (none, readTransport dstLen c s)
  else
    match decodeWindow dstLen s with
    | .done s =>
      (some s.result,
        if o.complete s.result then Turn.run eraseDiscard s
        else (Turn.run recoverOverflow s).andThen (readTransport dstLen c))
    | ended => (none, ended)

/-- The frame a reply is sent as (R208, R210): `FRM.ENC` into the reader's own sink, of `ocap` bytes, in the place of
`State.out`, which is the writer's alone (R219, U16; assumption 25). -/
def sendReply (ocap : Nat) (r : Reply) (sink : Memory) (s : State) : Outcome :=
  issue (.frmEnc r.addr r.kind.code r.seq [] ocap) { s with out := sink }

/-- How a `read` stands or has ended (R205). -/
inductive ReadEnd where
  /-- It has not returned: the loop goes on. -/
  | waiting
  /-- A payload and its address are handed to the caller (R208). -/
  | delivered (d : Delivery)
  /-- `InvalidArgument`, or the transport's error verbatim (R205, R206, R239). -/
  | error (e : SessionError)
  /-- `stopped` was seen: the last decode error, if there has been one (R212, assumption 26). -/
  | stopped (last : Option SessionError)
  /-- The block ended an operation with its fault (R240): the buffer and `tail` are as before that operation. -/
  | fault (f : Fault)
  /-- The transport broke its duty (R181): the block is as before the fill (assumption 28). -/
  | refused (r : Refusal)
deriving DecidableEq, Repr

/-- A `read` under way or ended: the session, the block, the frames handed to the transport's write callback,
oldest first, and how it stands. -/
structure ReadRun where
  session : Session
  block : State
  writes : List (List Byte)
  ending : ReadEnd
deriving DecidableEq, Repr

/-- What the outside does during one turn of the read loop. -/
structure TurnInput where
  /-- `close()` has been called by the time the turn begins (R217). -/
  closed : Bool
  /-- The transport read, if the turn calls it. -/
  chunk : TransportRead
  /-- What the transport's write callback returns for the reply, if the turn sends one (R204). -/
  written : Int
deriving DecidableEq, Repr

/-- `close()` (R217). It does not touch the block. -/
def Session.close (h : Session) : Session := { h with stopped := true }

/-- Step 3 of `read` (R212, R217): a stopped session's reader exits with the error of the last decode that had
one, be it sub-step a's or sub-step b's. What is returned where there has been none is not stated; an error of an
earlier call, or one before a later good frame, still counts as the last (both the model's choice,
assumption 26). -/
def Session.readExit (h : Session) : Option ReadEnd :=
  if h.stopped then some (.stopped h.lastError) else none

/-- The call ends before anything was delivered: `last_delivered_rx` stays (assumption 27). -/
def ReadRun.abort (r : ReadRun) (lastDelivered : Seq) (e : SessionError) : ReadRun :=
  { r with
    session := { r.session with lastDelivered := lastDelivered }
    ending := .error e }

/-- The end of a turn: the payload goes to the caller, or the loop goes on (R208 to R211). -/
def ReadRun.deliver (r : ReadRun) (d : Option Delivery) : ReadRun :=
  { r with ending := match d with | some d => .delivered d | none => .waiting }

/-- Step 2d of `read` (R208 to R211): the session after the dispatch, the reply encoded and handed to the
transport, then the delivery. The Ack goes out before `read` returns (R220, N38), and an encode or a transport
write that fails ends the call (R239): both assumption 27. -/
def ReadRun.dispatch (o : SessionOpen) (written : Int) (r : ReadRun) : ReadRun :=
  let d := r.session.dispatch o r.block.result
  let last := r.session.lastDelivered
  let r := { r with session := d.session }
  match d.reply with
  | none => r.deliver d.delivery
  | some p =>
    match sendReply o.replyCap p r.session.replyOut r.block with
    | .next t =>
      let r :=
        { r with
          session := { r.session with replyOut := t.out }
          block := { t with out := r.block.out } }
      match t.result with
      | .encoded bytes _ =>
        let r := { r with writes := r.writes ++ [bytes] }
        if written ≤ 0 then r.abort last (.transport written) else r.deliver d.delivery
      | _ => r.abort last .invalidArgument
    | .fault f => { r with ending := .fault f }
    | .refused x => { r with ending := .refused x }

/-- Sub-step a's decode, where there was one, counts as a decode (R212). -/
def ReadRun.noteFirst (first : Option Result) (r : ReadRun) : ReadRun :=
  match first with
  | none => r
  | some x => { r with session := r.session.noteDecode x }

/-- What a turn's sub-steps a to c come to: the dispatch, or the end of the call. After the fault of a decode the
block shows all that the turn carried out before it, the fill and `BUF.APPEND` included (R240). -/
def ReadRun.conclude (o : SessionOpen) (written : Int) (r : ReadRun) (t : Turn) : ReadRun :=
  match t with
  | .done s => { r with block := s }.dispatch o written
  | .failed value s => { r with block := s, ending := .error (.transport value) }
  | .fault f s => { r with block := s, ending := .fault f }
  | .refused x s => { r with block := s, ending := .refused x }

/-- One turn of the read loop (R205, R206): at its boundary the stopped flag is tested (R217), then come the
sub-steps a to d. -/
def ReadRun.turn (o : SessionOpen) (dstLen : Nat) (e : TurnInput) (r : ReadRun) : ReadRun :=
  let r := if e.closed then { r with session := r.session.close } else r
  match r.session.readExit with
  | some ending => { r with ending := ending }
  | none =>
    let turn := readTurn o dstLen e.chunk r.block
    (r.noteFirst turn.1).conclude o e.written turn.2

/-- The read loop (R205): turns until the call returns. -/
def ReadRun.loop (o : SessionOpen) (dstLen : Nat) : List TurnInput → ReadRun → ReadRun
  | [], r => r
  | e :: es, r =>
    let r := r.turn o dstLen e
    match r.ending with
    | .waiting => ReadRun.loop o dstLen es r
    | _ => r

/-- `read(dst)` with a destination of `dstLen` bytes (R200, R205 to R212). -/
def Session.read (o : SessionOpen) (dstLen : Nat) (turns : List TurnInput) (h : Session) (s : State) :
    ReadRun :=
  if readAccepts dstLen s then ReadRun.loop o dstLen turns ⟨h, s, [], .waiting⟩
  else ⟨h, s, [], .error .invalidArgument⟩

/-! ### write (R213 to R216) -/

/-- How a `write` that has ended answers. -/
inductive Written where
  | ok (len : Nat)
  | error (e : SessionError)
deriving DecidableEq, Repr

/-- Steps 1 to 3 of `write` (R213): the payload is checked, the lock taken, `tx_seq` pre-incremented.
`none` when another writer holds the lock. -/
def Session.writeBegin (h : Session) (payload : List Byte) : Option (Except SessionError Session) :=
  if payload = [] then some (.error .invalidArgument)
  else if h.writerLocked then none
  else
    some (.ok
      { h with
        writerLocked := true
        txSeq := h.txSeq + 1
        writeResult := .none
        sender := .awaitingAck (h.txSeq + 1) 0 0 })

/-- The address of a Data frame: the broadcast address when the user gives none (R74, R213). -/
def writeAddr (addr : Option Byte) : Byte := addr.getD Config.BROADCAST

/-- Sub-step b of `write` (R214): the Data frame of an attempt, `FRM.ENC address, Data, tx_seq, payload,
WCAP`; its `InvalidArgument` is returned to the caller. -/
def Session.encodeAttempt (h : Session) (addr : Option Byte) (payload : List Byte) (s : State) : Outcome :=
  issue (.frmEnc (writeAddr addr) Kind.data.code h.txSeq payload s.params.wcap) s

/-- A `write` ends: the sender is idle and the lock is free. -/
def Session.release (h : Session) : Session := { h with sender := .idle, writerLocked := false }

/-- Sub-steps b and c of `write` (R214), once the frame has been encoded with the given result and handed
to the transport, whose callback returned `value`: an `InvalidArgument` or the transport's error (R235) is
returned; with no timeout the call returns at once; otherwise the sender waits. -/
def Session.attempt (h : Session) (payload : List Byte) (sent : Result) (value : Int) :
    Session × Option Written :=
  if sent = .invalidArgument then (h.release, some (.error .invalidArgument))
  else if value ≤ 0 then (h.release, some (.error (.transport value)))
  else if h.writeTimeout = 0 then (h.release, some (.ok payload.length))
  else (h, none)

/-- The next attempt with the same `tx_seq`, or failure when all are used (R214 to R216). -/
def Session.retry (h : Session) (attempt : Nat) (e : SessionError) : Session × Option Written :=
  if attempt + 1 ≤ h.writeRetries then
    ({ h with writeResult := .none, sender := .awaitingAck h.txSeq (attempt + 1) 0 }, none)
  else (h.release, some (.error e))

/-- Sub-step d of `write`, one millisecond (R214): the published result is polled. When the last attempt ends in a
Nack the call ends with `NACK_EXHAUSTED_ERROR`, which D30 defines where every attempt did: that it is so too where an
earlier attempt timed out is the model's own choice (assumption 29). -/
def Session.poll (o : SessionOpen) (h : Session) (payload : List Byte) : Session × Option Written :=
  match h.sender with
  | .idle => (h, none)
  | .awaitingAck q k waited =>
    match h.writeResult with
    | .ack => (h.release, some (.ok payload.length))
    | .nack => h.retry k o.nackError
    | .none =>
      if waited + 1 < h.writeTimeout then ({ h with sender := .awaitingAck q k (waited + 1) }, none)
      else h.retry k .timeout

/-- What the reader has published by the next poll (R209, R219); `none` is nothing new. -/
def Session.publish (h : Session) (w : WriteResult) : Session :=
  match w with
  | .none => h
  | .ack | .nack => { h with writeResult := w }

/-- The number of the attempt the sender is in (R216). -/
def Sender.attempt : Sender → Option Nat
  | .idle => none
  | .awaitingAck _ k _ => some k

/-- How a `write` stands or has ended. -/
inductive WriteEnd where
  /-- Another writer holds the lock (R213). -/
  | locked
  /-- An attempt is to be encoded and transmitted next (R214 a, b). -/
  | toSend
  /-- The frame is out and the result is polled (R214 d). -/
  | polling
  /-- The call has returned. -/
  | returned (w : Written)
  /-- The block ended the encode with a fault; no encode does (R241). -/
  | fault (f : Fault)
  /-- The block refused the encode; it refuses none. -/
  | refused (r : Refusal)
deriving DecidableEq, Repr

/-- A `write` under way or ended: the session, the block, the frames handed to the transport's write callback,
oldest first, and how it stands. -/
structure WriteRun where
  session : Session
  block : State
  writes : List (List Byte)
  ending : WriteEnd
deriving DecidableEq, Repr

/-- What the outside does during one attempt of a `write`. -/
structure AttemptInput where
  /-- What the transport's write callback returns (R204). -/
  written : Int
  /-- What the reader has newly published at each of the polls, one a millisecond (R214, R219). -/
  published : List WriteResult
deriving DecidableEq, Repr

/-- Sub-step d of `write` (R214): one poll a millisecond, until the call returns or the attempt is over. -/
def WriteRun.polls (o : SessionOpen) (payload : List Byte) : List WriteResult → WriteRun → WriteRun
  | [], r => r
  | w :: ws, r =>
    match (r.session.publish w).poll o payload with
    | (h, some x) => { r with session := h, ending := .returned x }
    | (h, none) =>
      if h.sender.attempt = r.session.sender.attempt then
        WriteRun.polls o payload ws { r with session := h }
      else { r with session := h, ending := .toSend }

/-- One attempt of `write` (R214 a to d): the result is cleared, the frame encoded with the same `tx_seq` as
before and transmitted, then the answer awaited. -/
def WriteRun.attempt (o : SessionOpen) (addr : Option Byte) (payload : List Byte) (e : AttemptInput)
    (r : WriteRun) : WriteRun :=
  let h := { r.session with writeResult := .none }
  match h.encodeAttempt addr payload r.block with
  | .next t =>
    let frames := match t.result with | .encoded bytes _ => [bytes] | _ => []
    let r := { r with block := t, writes := r.writes ++ frames }
    match h.attempt payload t.result e.written with
    | (h, some x) => { r with session := h, ending := .returned x }
    | (h, none) => { r with session := h, ending := .polling }.polls o payload e.published
  | .fault f => { r with ending := .fault f }
  | .refused x => { r with ending := .refused x }

/-- The attempts of `write` (R214): the next one while the last is over and the call has not returned. -/
def WriteRun.loop (o : SessionOpen) (addr : Option Byte) (payload : List Byte) :
    List AttemptInput → WriteRun → WriteRun
  | [], r => r
  | e :: es, r =>
    let r := r.attempt o addr payload e
    match r.ending with
    | .toSend => WriteRun.loop o addr payload es r
    | _ => r

/-- `write(address, payload)` (R200, R213 to R216). -/
def Session.write (o : SessionOpen) (addr : Option Byte) (payload : List Byte)
    (attempts : List AttemptInput) (h : Session) (s : State) : WriteRun :=
  match h.writeBegin payload with
  | none => ⟨h, s, [], .locked⟩
  | some (.error e) => ⟨h, s, [], .returned (.error e)⟩
  | some (.ok h) => WriteRun.loop o addr payload attempts ⟨h, s, [], .toSend⟩

end Sys2Proof.Machine
end

