-- ==== Sys2Proof/Safety.lean ====
section
/-! DEFINITION. What counts as a safe run, in the terms the claims use: the invariants of a scan and of
a state (R24, R29, R161), the supported domain outside which the document claims nothing
(93_implementation_defined.md U1, U2, U15), and the host's operand ranges (R131, R151). -/

namespace Sys2Proof.Machine

/-- The registers of a scan whose closing Flag has not been found (R29, R152, R161): before the opening
Flag nothing is consumed; `addr` is held from position 1 on, `kind` and `seq` from position 2 on; the
write cursor counts the positions from 2 on and stays within the destination. -/
structure Scan.Inv (dcap : Nat) (sc : Scan) : Prop where
  notStopped : sc.frameStop = none
  startBefore : ∀ start, sc.frameStart = some start → start < sc.i
  nothingConsumed : sc.frameStart = none → sc.pos = 0 ∧ sc.escapePending = false
  addrHeld : sc.addr.isSome = decide (1 ≤ sc.pos)
  kindHeld : sc.kind.isSome = decide (2 ≤ sc.pos)
  seqHeld : sc.seq.isSome = decide (2 ≤ sc.pos)
  cursor : sc.cur = sc.pos - 2
  within : sc.cur ≤ dcap
  posBound : sc.pos ≤ sc.i

/-- The invariant of a state: R24 (`head` is 0 by `State.head`), the canonical form of the three spaces,
no cell of `buf` beyond `CAP` (R21, R44), and the registers of a scan in progress. -/
structure State.Inv (s : State) : Prop where
  headZero : s.head = 0
  tailBound : s.tail ≤ s.params.cap
  bufWf : s.buf.wf
  bufBound : ∀ c ∈ s.buf, c.1 < s.params.cap
  dstWf : s.dst.wf
  outWf : s.out.wf
  scanInv : ∀ sc, s.scan = some sc → sc.Inv s.params.dcap

/-- An address the document supports (R74, R258). -/
abbrev supportedAddr (a : Byte) : Prop := ¬ isReserved a

/-- A control byte whose S-type the document supports (R72, U1). -/
abbrev supportedControl (c : Byte) : Prop :=
  c.getLsbD 0 = false ∨ c.extractLsb' 2 2 = 0 ∨ c.extractLsb' 2 2 = 2

/-- A decode's result that the document supports: no reserved address (R169, R258). -/
def Result.supported : Result → Prop
  | .frame _ _ a _ _ _ => supportedAddr a
  | _ => True

/-- A step that neither faults nor is refused. -/
def State.stepsOn (s : State) : Prop := ∃ t, step s = .next t

end Sys2Proof.Machine

namespace Sys2Proof

/-- The instructions the document supports. Outside it the block still does what its uniform rules say
(assumptions 13, 14); no law about the software is claimed there (U1, U2, U15). -/
def Instr.supported : Instr → Prop
  | .frmEnc addr kind _ _ _ => Machine.supportedAddr addr ∧ kind ≠ 3
  | .ctlEnc kind _ => kind ≠ 3
  | .ctlDec c => Machine.supportedControl c
  | .ctrlUnsupportedS1 _ _ _ | .ctrlUnsupportedS3 _ _ _ => False
  | .fcsInit | .fcsUpdate _ _ | .fcsFinal _ | .fcsCheck _ | .escEnc _ | .escDec _ _ | .frmDec _ _
  | .bufUnused | .bufAppend _ | .bufData | .bufErase _ | .bufClear | .bufCap | .ctrlData _ _ _
  | .ctrlAck _ _ _ | .ctrlNack _ _ _ | .wireFlag | .wireEscape => True

end Sys2Proof
end

