-- ==== Sys2Proof/Certificates/Slice0/Obligations.lean ====
section
/-! DEFINITION. The statements for the provers. A statement about a state is made for every state, every
value of the construction parameters and every free value included. -/

namespace Sys2Proof

open Sys2Proof.Machine

/-! ### Words used by the statements -/

/-- The bytes an encoder covers with the FCS for a kind (R63, R108, R136): address, control, and the
payload for Data. -/
def coveredBytes (addr : Byte) (kind : Kind) (seq : Seq) (p : List Byte) : List Byte :=
  addr :: ctlEnc kind seq :: payloadOf kind p

/-- The frame of R60 to R63 written out: Flag, the escaped body with its two FCS bytes, Flag. -/
def framedBytes (addr : Byte) (kind : Kind) (seq : Seq) (p : List Byte) : List Byte :=
  let m := coveredBytes addr kind seq p
  let f := fcsFold Config.FCS_INIT m ^^^ Config.FCS_XOROUT
  [Config.FLAG] ++ (m ++ [f.extractLsb' 0 8, f.extractLsb' 8 8]).flatMap escEnc ++ [Config.FLAG]

/-- The host may ask for this frame: a supported address (R258), and a payload for Data (R133). -/
def Framable (addr : Byte) (kind : Kind) (p : List Byte) : Prop :=
  supportedAddr addr ∧ (kind = .data → p ≠ [])

/-- A decode's result is terminal: both Flags were found (R160). -/
def IsTerminal : Result → Prop
  | .frame _ _ _ _ _ _ | .badFrame _ _ _ _ => True
  | _ => False

/-- A decode's result with `n` more bytes to discard (R160). -/
def discardMore (n : Nat) : Result → Result
  | .frame k q a p l d => .frame k q a p l (d + n)
  | .badFrame k q a d => .badFrame k q a (d + n)
  | r => r

/-- The result of `FRM.DEC` as an operation on any state, or the index of its fault. -/
def decoded (w : List Byte) (dcap : Nat) (s : State) : Except Nat Result :=
  match exec (.frmDec w dcap) s with
  | .next t => .ok t.result
  | .fault (.dstOverflow i) => .error i
  | .refused _ => .ok .idle

/-- `n` milliseconds of polling by the writer (R214), stopping when the call has ended. -/
def pollTimes (o : SessionOpen) (payload : List Byte) : Nat → Session → Session × Option Written
  | 0, h => (h, none)
  | n + 1, h =>
    match h.poll o payload with
    | (h, none) => pollTimes o payload n h
    | ended => ended

/-- The fields no operation but the three of the buffer may change, and no operation at all (R76,
R45): what an operation other than `BUF.APPEND`, `BUF.ERASE`, `BUF.CLEAR` leaves of the block. -/
def SameBlock (s t : State) : Prop :=
  t.buf = s.buf ∧ t.tail = s.tail ∧ t.params = s.params

end Sys2Proof

open Sys2Proof Sys2Proof.Machine

/-! ### Encoding -/

/-- Decoding the words of a well-formed instruction on its port gives it back, whatever follows: no bit of
an operand is dropped. The operand lanes are the model's own (assumption 9). -/
def Obligations.DecodeEncodeAgree : Prop :=
  ∀ (i : Instr) (rest : List Byte), i.wf = true →
    decode i.port (encode i ++ rest) = .ok (i, rest)

/-- Every control byte is the word of exactly the row it decodes to (R66, R71). -/
def Obligations.EncodeDecodeControl : Prop :=
  ∀ c : Byte, encode (decodeControl c) = [c] ∧ (decodeControl c).port = .ctrl

/-- Words written out from the tables of R70, R76 and R120 decode to what they stand for. The operand
lanes are the model's own (assumption 9). -/
def Obligations.TableWordsDecode : Prop :=
  decodeTableWord 8 0x00 = some .fcsInit ∧
  decodeTableWord 24 0xBEEF02 = some (.fcsFinal 0xBEEF) ∧
  decodeTableWord 16 0x7E04 = some (.escEnc 0x7E) ∧
  decodeTableWord 8 0x0E = some .bufClear ∧
  decodeTableWord 8 0x0F = some .bufCap ∧
  decodeTableWord 8 0x1A = some (.ctrlData 5 1 0) ∧
  decodeTableWord 8 0x41 = some (.ctrlAck 2 0 0) ∧
  decodeTableWord 8 0x29 = some (.ctrlNack 1 0 0) ∧
  decodeTableWord 8 0x7E = some .wireFlag ∧
  decodeTableWord 8 0x7D = some .wireEscape

/-! ### The step -/

/-- A step takes the oldest input away and carries out the operation its lanes decode to, no scan of an
earlier operation surviving (R20), or refuses lanes that are no operation; with nothing presented nothing
happens (R31, R242). The queue, and that lanes left over are ignored, are the model's own (assumptions 8,
9). -/
def Obligations.StepRunsIssuedInstruction : Prop :=
  ∀ s : State,
    (s.inputs = [] → step s = .next s) ∧
    ∀ lanes rest, s.inputs = .issue lanes :: rest →
      (∀ i spare, decode .op lanes = .ok (i, spare) → step s = exec i { s with inputs := rest, scan := none }) ∧
      (∀ e, decode .op lanes = .error e → step s = .refused .malformedIssue)

/-- A raw byte presented to the scan in progress runs the row of the table it stands for: Flag and Escape
first (R154), then at body position 1 the class of the unescaped byte (R157); any other byte takes the
turn of R152's lines L3 and L7 to L12. The stepwise scan is the model's own (assumption 11). -/
def Obligations.StepRunsWireInstruction : Prop :=
  ∀ (s : State) (b : Byte) (rest : List Input), s.inputs = .wire b :: rest →
    (b = Config.FLAG → step s = exec .wireFlag { s with inputs := rest }) ∧
    (b = Config.ESC → step s = exec .wireEscape { s with inputs := rest }) ∧
    (b ≠ Config.FLAG → b ≠ Config.ESC →
      ((∃ start, s.scanning.frameStart = some start) ∧ s.scanning.pos = 1 →
        step s = exec (decodeControl (if s.scanning.escapePending then b ^^^ 0x20 else b))
          { s with inputs := rest }) ∧
      (¬ ((∃ start, s.scanning.frameStart = some start) ∧ s.scanning.pos = 1) →
        step s = State.plainByte { s with inputs := rest } b))

/-- The transport's fill writes one cell of the suffix `buf[tail .. CAP-1]` and nothing else; a fill
outside it is refused (R181; the refusal is assumption 17). -/
def Obligations.FillWritesOneSuffixCell : Prop :=
  ∀ (s : State) (x : Nat) (b : Byte) (rest : List Input), s.inputs = .fill x b :: rest →
    (s.tail ≤ x ∧ x < s.params.cap →
      ∃ m : Memory, step s = .next { s with inputs := rest, buf := m } ∧
        m.read .buf x = b ∧ ∀ y, y ≠ x → m.read .buf y = s.buf.read .buf y) ∧
    (¬ (s.tail ≤ x ∧ x < s.params.cap) → step s = .refused .fillOutsideSuffix)

/-- A table word that decodes is what the next step runs: an operation with no scan in progress (R20), a
reserved wire byte on the scan there is, a control byte with the scan set at the control position
(assumption 12). -/
def Obligations.FetchWordRunsDecodedInstruction : Prop :=
  ∀ (s : State) (nbits w : Nat) (i : Instr), decodeTableWord nbits w = some i →
    ∃ sc, step (s.withFetchWord nbits w) = exec i { s with scan := sc } ∧
      (i.port = .op → sc = none) ∧
      (i.port = .wire → sc = s.scan) ∧
      (i.port = .ctrl → sc = some Scan.atControlByte)

/-! ### The FCS engine -/

/-- `FCS.INIT` gives `0xFFFF` and changes nothing else; the encoder and the decoder start every frame with that
accumulator (R104). -/
def Obligations.FcsInitGivesInitialAccumulator : Prop :=
  (∀ s : State, exec .fcsInit s = .next { s with result := .accumulator 0xFFFF }) ∧
  Enc.start.fcs = 0xFFFF ∧ Scan.start.fcs = 0xFFFF

/-- `FCS.UPDATE` is the table step of R102 with the entry that R100's rule generates; both are from general
knowledge (the spec's mark, assumption 20). -/
def Obligations.FcsUpdateIsTableStep : Prop :=
  ∀ (s : State) (acc : Acc) (b : Byte),
    exec (.fcsUpdate acc b) s =
      .next { s with
        result := .accumulator
          ((acc >>> 8) ^^^ tableEntry ((acc ^^^ b.setWidth 16).extractLsb' 0 8)) }

/-- The polynomial engine and the table engine are one function (R103, derived by the spec). -/
def Obligations.PolynomialEngineEqualsTable : Prop :=
  ∀ (s : State) (acc : Acc) (b : Byte),
    exec (.fcsUpdate acc b) s = .next (s.withResult (.accumulator (fcsUpdateSerial acc b)))

/-- `FCS.FINAL` gives the inverted accumulator, low byte and high byte (R105). -/
def Obligations.FcsFinalInvertsAndSplits : Prop :=
  ∀ (s : State) (acc : Acc),
    exec (.fcsFinal acc) s =
      .next { s with
        result := .fcsBytes ((acc ^^^ 0xFFFF).extractLsb' 0 8) ((acc ^^^ 0xFFFF).extractLsb' 8 8) }

/-- `FCS.CHECK` compares the accumulator as it stands with `0xF0B8` (R106). -/
def Obligations.FcsCheckComparesResidual : Prop :=
  ∀ (s : State) (acc : Acc),
    exec (.fcsCheck acc) s = .next { s with result := .check (decide (acc = 0xF0B8)) }

/-- The residual law: any message followed by its own two FCS bytes leaves `0xF0B8` (R107, derived by the
spec). -/
def Obligations.ResidualLaw : Prop :=
  ∀ m : List Byte,
    let acc := fcsFold Config.FCS_INIT m
    fcsFold Config.FCS_INIT (m ++ [(fcsFinal acc).1, (fcsFinal acc).2]) = 0xF0B8

/-- For a fixed accumulator the update is injective in the byte, for a fixed byte it is a bijection of the
accumulators, and for every target exactly one two-byte sequence takes `0xFFFF` to it (R109, derived by
the spec). -/
def Obligations.FcsUpdateIsInvertible : Prop :=
  (∀ acc : Acc, Function.Injective (fcsUpdate acc)) ∧
  (∀ b : Byte, Function.Bijective fun acc => fcsUpdate acc b) ∧
  (∀ target : Acc, ∃! p : Byte × Byte, fcsFold Config.FCS_INIT [p.1, p.2] = target)

/-! ### The escaper -/

/-- `ESC.ENC`: a reserved byte gives the Escape and the byte xored with `0x20`, any other byte itself; with
one byte the second lane is any value (R121; the free lane is assumption 6). -/
def Obligations.EscEncEscapesReservedBytes : Prop :=
  ∀ (s : State) (b : Byte),
    (b = 0x7E ∨ b = 0x7D →
      exec (.escEnc b) s = .next { s with result := .escaped 2 0x7D (b ^^^ 0x20) }) ∧
    (¬ (b = 0x7E ∨ b = 0x7D) →
      ∃ o1, exec (.escEnc b) s =
        .next { s with result := .escaped 1 b o1, draws := s.draws + 1 })

/-- `ESC.DEC`: an Escape sets the pending bit and produces nothing, the lane then being any value; any other
byte is produced, xored with `0x20` if an escape was pending, and the bit is clear (R122; the free lane is
assumption 6). -/
def Obligations.EscDecUnescapesOneByte : Prop :=
  ∀ (s : State) (pending : Bool) (b : Byte),
    (b = 0x7D →
      ∃ o, exec (.escDec pending b) s =
        .next { s with result := .unescaped true false o, draws := s.draws + 1 }) ∧
    (b ≠ 0x7D →
      exec (.escDec pending b) s =
        .next { s with
          result := .unescaped false true (if pending = true then b ^^^ 0x20 else b) })

/-- Unescaping what the escaper produces, from no pending escape, gives exactly the byte back and ends with
no pending escape; no byte the escaper produces is a Flag (R123, derived by the spec). -/
def Obligations.EscaperInverseLaw : Prop :=
  ∀ b : Byte,
    (escEnc b).foldl
        (fun (acc : Bool × List Byte) x =>
          ((escDec acc.1 x).1, acc.2 ++ (escDec acc.1 x).2.toList)) (false, []) = (false, [b]) ∧
    Config.FLAG ∉ escEnc b

/-! ### The control byte -/

/-- `CTL.ENC`: the three formulas of R67 to R69, and `InvalidArgument` for the operand value 3, which is the
spec's own decision D3 (R130). -/
def Obligations.CtlEncBuildsControlByte : Prop :=
  ∀ (s : State) (q : Seq),
    exec (.ctlEnc 0 q) s = .next { s with result := .control ((q.setWidth 8 <<< 1) ||| 0x10) } ∧
    exec (.ctlEnc 1 q) s = .next { s with result := .control ((q.setWidth 8 <<< 5) ||| 0x01) } ∧
    exec (.ctlEnc 2 q) s = .next { s with result := .control ((q.setWidth 8 <<< 5) ||| 0x09) } ∧
    exec (.ctlEnc 3 q) s = .next { s with result := .invalidArgument }

/-- `CTL.DEC` on all 256 control bytes; S-types 1 and 3 give Nack by the spec's own decision D9 (R150, R72,
assumption 14). -/
def Obligations.CtlDecClassifiesEveryByte : Prop :=
  ∀ (s : State) (c : Byte),
    (c.getLsbD 0 = false →
      exec (.ctlDec c) s = .next { s with result := .kindSeq .data (c.extractLsb' 1 3) }) ∧
    (c.getLsbD 0 = true → c.extractLsb' 2 2 = 0 →
      exec (.ctlDec c) s = .next { s with result := .kindSeq .ack (c.extractLsb' 5 3) }) ∧
    (c.getLsbD 0 = true → c.extractLsb' 2 2 ≠ 0 →
      exec (.ctlDec c) s = .next { s with result := .kindSeq .nack (c.extractLsb' 5 3) })

/-- `CTL.DEC (CTL.ENC k, s) = (k, s)` (R150, derived by the spec), and no control byte the encoder builds is
reserved (R80, derived by the spec). -/
def Obligations.ControlByteRoundTrip : Prop :=
  ∀ (k : Kind) (q : Seq), ctlDec (ctlEnc k q) = (k, q) ∧ ¬ isReserved (ctlEnc k q)

/-! ### The frame encoder -/

/-- `FRM.ENC` with a kind that is one: the frame of R60 to R63 when it fits the sink and Data has a payload,
`InvalidArgument` otherwise, and that is all. On `Ok` the sink holds the frame and its other cells are
unchanged; on `InvalidArgument` the cells at and beyond `ocap` are unchanged (R132 to R136; the order of the
tests is decision D14, the free cells are assumption 4). -/
def Obligations.FrmEncBuildsFrame : Prop :=
  ∀ (s : State) (addr : Byte) (k : Kind) (q : Seq) (p : List Byte) (ocap : Nat),
    let f := framedBytes addr k q p
    ((k = .data → p ≠ []) ∧ f.length ≤ ocap →
      ∃ m : Memory,
        exec (.frmEnc addr k.code q p ocap) s =
          .next { s with result := .encoded f f.length, out := m } ∧
        (∀ (j : Nat) (h : j < f.length), m.read .out j = f[j]) ∧
        (∀ x, f.length ≤ x → m.read .out x = s.out.read .out x)) ∧
    (¬ ((k = .data → p ≠ []) ∧ f.length ≤ ocap) →
      ∃ m : Memory,
        exec (.frmEnc addr k.code q p ocap) s =
          .next { s with result := .invalidArgument, out := m, draws := s.draws + 1 } ∧
        (∀ x, ocap ≤ x → m.read .out x = s.out.read .out x))

/-- `FRM.ENC` with the operand value 3, which is not a kind: `InvalidArgument`, by the spec's own decision D3
(R132; the free cells are assumption 4). -/
def Obligations.FrmEncRefusesNonKind : Prop :=
  ∀ (s : State) (addr : Byte) (q : Seq) (p : List Byte) (ocap : Nat),
    ∃ m : Memory,
      exec (.frmEnc addr 3 q p ocap) s =
        .next { s with result := .invalidArgument, out := m, draws := s.draws + 1 } ∧
      (∀ x, ocap ≤ x → m.read .out x = s.out.read .out x)

/-- The size of a frame (R65, R139, derived by the spec): `6 + L + e` bytes, with `e` the reserved bytes of
the body, at most `2L + 8` for a supported address; so a sink of `2·PMAX + 8` bytes takes every frame of at
most `PMAX` payload bytes. Its first and last bytes are Flags and no byte between them is one (R62, R64). -/
def Obligations.FrameSizeBound : Prop :=
  ∀ (addr : Byte) (k : Kind) (q : Seq) (p : List Byte),
    let f := framedBytes addr k q p
    let m := coveredBytes addr k q p
    let t := fcsFinal (fcsFold Config.FCS_INIT m)
    f.length = 6 + (payloadOf k p).length +
      ((m ++ [t.1, t.2]).filter fun b => decide (isReserved b)).length ∧
    (supportedAddr addr → f.length ≤ 2 * (payloadOf k p).length + 8) ∧
    (∃ body, f = [Config.FLAG] ++ body ++ [Config.FLAG] ∧ Config.FLAG ∉ body)

/-! ### The frame decoder -/

/-- The round-trip law (R141): `FRM.DEC` of exactly the bytes `FRM.ENC` produced, into a destination that
takes the payload and two FCS bytes, returns `Frame` with the same kind, sequence number, address and
payload, and `discard` the whole length. Claimed for supported addresses only (R258). -/
def Obligations.FrameRoundTrip : Prop :=
  ∀ (s : State) (addr : Byte) (k : Kind) (q : Seq) (p : List Byte) (ocap dcap : Nat) (t : State)
    (f : List Byte) (n : Nat),
    Framable addr k p → (k ≠ .data → p = []) → p.length + 2 ≤ dcap →
    exec (.frmEnc addr k.code q p ocap) s = .next t → t.result = .encoded f n →
    ∃ u, exec (.frmDec f dcap) t = .next u ∧ u.result = .frame k q addr p p.length n

/-- A window that is a proper part of one frame, from its opening Flag on, is `NoFrame` and consumes nothing
(R159, R171, derived by the spec). -/
def Obligations.PartialFrameIsNoFrame : Prop :=
  ∀ (s : State) (addr : Byte) (k : Kind) (q : Seq) (p : List Byte) (j dcap : Nat),
    j < (framedBytes addr k q p).length → (payloadOf k p).length + 2 ≤ dcap →
    ∃ u, exec (.frmDec ((framedBytes addr k q p).take j) dcap) s = .next u ∧ u.result = .noFrame 0

/-- `FRM.DEC` completes whenever the destination takes all the window can store: `dcap ≥ len(W) - 3` (R162,
derived by the spec), and leaves the block and everything else but the result port, `dst` and the count of free
values as it was (R171). That the cells of `dst` from `dcap` on are unchanged, being no part of the destination
given to the operation, is the model's own choice (assumption 5, unsafe for exactly this clause). -/
def Obligations.FrmDecCompletes : Prop :=
  ∀ (s : State) (w : List Byte) (dcap : Nat), w.length ≤ dcap + 3 →
    ∃ (r : Result) (m : Memory) (d : Nat),
      exec (.frmDec w dcap) s = .next { s with result := r, dst := m, draws := d } ∧
      (∀ x, dcap ≤ x → m.read .dst x = s.dst.read .dst x)

/-- What an outcome of `FRM.DEC` says of its window and leaves in `dst`. It is `NoFrame` with nothing consumed
(R159) or terminal, and then the closing Flag stands at `discard - 1` (R160). A `Frame` has its payload in
`dst`, then the two received FCS bytes (R163, decision D29); the cells above them hold any value (R36, U5, where
R163 says unchanged), those from `dcap` on being unchanged (both assumption 5). Address, control byte, payload
and FCS bytes have the residual, the control byte is the one `kind` and `seq` are decoded from (R106, R157,
R158), and the window held two Flags and at least four body bytes (R164, decision D12). -/
def Obligations.FrmDecOutcomes : Prop :=
  ∀ (s t : State) (w : List Byte) (dcap : Nat), exec (.frmDec w dcap) s = .next t →
    (t.result = .noFrame 0 ∨ IsTerminal t.result) ∧
    (IsTerminal t.result →
      1 ≤ t.result.discard ∧ t.result.discard ≤ w.length ∧
      w[t.result.discard - 1]? = some Config.FLAG) ∧
    (∀ k q a p l d, t.result = .frame k q a p l d →
      p.length = l ∧ l + 2 ≤ dcap ∧ l + 6 ≤ d ∧
      (∃ c lo hi, ctlDec c = (k, q) ∧
        fcsFold Config.FCS_INIT (a :: c :: p ++ [lo, hi]) = 0xF0B8 ∧
        t.dst.readAll .dst 0 (l + 2) = p ++ [lo, hi]) ∧
      (∀ x, dcap ≤ x → t.dst.read .dst x = s.dst.read .dst x))

/-- `DstOverflow` (R162, R237, R240): with the opening Flag, an address and a control byte and more than
`dcap` unreserved body bytes after them, `FRM.DEC` faults at the first byte that does not fit, whatever
follows and whether or not a closing Flag has come. The fault is the spec's own decision D13. -/
def Obligations.FrmDecOverflowFaults : Prop :=
  ∀ (s : State) (a c : Byte) (body w : List Byte) (dcap : Nat),
    ¬ isReserved a → ¬ isReserved c → (∀ b ∈ body, ¬ isReserved b) → dcap < body.length →
    exec (.frmDec (Config.FLAG :: a :: c :: body ++ w) dcap) s = .fault (.dstOverflow (3 + dcap))

/-- Bytes before the frame's opening Flag: any bytes that are no Flag (R166, decision D8), then any number of
filler Flags (R153), change nothing but the count of bytes to discard, and the index of a fault. -/
def Obligations.LeadingBytesAreSkipped : Prop :=
  ∀ (s : State) (junk w : List Byte) (n dcap : Nat), Config.FLAG ∉ junk →
    decoded (junk ++ List.replicate n Config.FLAG ++ Config.FLAG :: w) dcap s =
      match decoded (Config.FLAG :: w) dcap s with
      | .ok r => .ok (discardMore (junk.length + n) r)
      | .error i => .error (i + (junk.length + n))

/-- Flags after one frame are consumed with it (R154, R168, R256, derived by the spec): the frame closes at
the last Flag of the run, so a following frame's opening Flag goes with it. -/
def Obligations.TrailingFlagsAreConsumed : Prop :=
  ∀ (s : State) (addr : Byte) (k : Kind) (q : Seq) (p w : List Byte) (n dcap : Nat),
    Framable addr k p → (payloadOf k p).length + 2 ≤ dcap → nextIsFlag w = false →
    decoded (framedBytes addr k q p ++ List.replicate n Config.FLAG ++ w) dcap s =
      .ok (.frame k q addr (payloadOf k p) (payloadOf k p).length
        ((framedBytes addr k q p).length + n))

/-- Stability under growing windows (R171, derived by the spec): a terminal outcome stays the same whatever
is appended if the closing Flag is not the last byte, and for everything that does not begin with a Flag if
it is. -/
def Obligations.TerminalDecodeIsStable : Prop :=
  ∀ (s : State) (w x : List Byte) (dcap : Nat) (r : Result),
    decoded w dcap s = .ok r → IsTerminal r → (r.discard < w.length ∨ nextIsFlag x = false) →
    decoded (w ++ x) dcap s = .ok r

/-! ### The wire format byte by byte -/

/-- `WIRE.FLAG` on a scan in progress (R153, R154, R158 to R164): leading filler, opening Flag, filler inside
a frame, and the closing Flag, which ends the scan with `Frame` or `BadFrame`. After `Frame` the destination
holds the bytes stored (R163). Its other cells, and after `BadFrame` all of them, hold any value (R36, U5, where
R163 says unchanged after `Frame`), and no cell from `DCAP` on changes that was not stored to (both assumption
5). The look-ahead is the next byte presented. The stepwise scan is the model's own (assumption 11). -/
def Obligations.WireFlagTurn : Prop :=
  ∀ s : State, s.scanning.frameStop = none →
    let sc := s.scanning
    let next := ∃ rest, s.inputs = .wire Config.FLAG :: rest
    (sc.frameStart = none → next →
      exec .wireFlag s = .next { s with scan := some { sc with i := sc.i + 1 } }) ∧
    (sc.frameStart = none → ¬ next →
      exec .wireFlag s =
        .next { s with scan := some { sc with i := sc.i + 1, frameStart := some sc.i } }) ∧
    (∀ start, sc.frameStart = some start → next ∨ sc.i = start + 1 →
      exec .wireFlag s = .next { s with scan := some { sc with i := sc.i + 1 } }) ∧
    (∀ start, sc.frameStart = some start → ¬ (next ∨ sc.i = start + 1) →
      (∀ k q a, start + 4 ≤ sc.i ∧ sc.fcs = 0xF0B8 ∧ 2 ≤ sc.stored.length →
        sc.kind = some k → sc.seq = some q → sc.addr = some a →
        ∃ m : Memory,
          exec .wireFlag s =
            .next { s with
              scan := none
              dst := m
              draws := s.draws + 1
              result := .frame k q a (sc.stored.take (sc.stored.length - 2))
                (sc.stored.length - 2) (sc.i + 1) } ∧
          m.readAll .dst 0 sc.stored.length = sc.stored ∧
          ∀ x, sc.stored.length ≤ x → s.params.dcap ≤ x → m.read .dst x = s.dst.read .dst x) ∧
      (¬ (start + 4 ≤ sc.i ∧ sc.fcs = 0xF0B8 ∧ 2 ≤ sc.stored.length) →
        ∃ m : Memory,
          exec .wireFlag s =
            .next { s with
              scan := none
              dst := m
              draws := s.draws + 1
              result := .badFrame sc.kind sc.seq sc.addr (sc.i + 1) } ∧
          ∀ x, s.params.dcap ≤ x → m.read .dst x = s.dst.read .dst x))

/-- `WIRE.ESCAPE` on a scan in progress (R155, R166): before the opening Flag it is skipped; after it, it sets
the pending escape and is neither fed to the FCS nor stored. The stepwise scan is the model's own
(assumption 11). -/
def Obligations.WireEscapeTurn : Prop :=
  ∀ s : State, s.scanning.frameStop = none →
    let sc := s.scanning
    (sc.frameStart = none →
      exec .wireEscape s = .next { s with scan := some { sc with i := sc.i + 1 } }) ∧
    (∀ start, sc.frameStart = some start →
      exec .wireEscape s =
        .next { s with scan := some { sc with i := sc.i + 1, escapePending := true } })

/-- The five control-byte rows at body position 1 (R67 to R69, R71 to R73, R157): the byte is fed to the FCS
and gives the kind and the sequence number of its row, the bits its row leaves open being ignored (decision
D10). S-types 1 and 3 give Nack by the spec's own decision D9 (assumption 14); the stepwise scan is the
model's own (assumption 11). -/
def Obligations.ControlRowsDecodeKindAndSeq : Prop :=
  ∀ (s : State) (start : Nat) (ns nr : Seq) (pf b1 : BitVec 1),
    s.scanning.frameStop = none → s.scanning.frameStart = some start → s.scanning.pos = 1 →
    let after (c : Byte) (k : Kind) (q : Seq) : State :=
      { s with
        scan := some { s.scanning with
          i := s.scanning.i + 1
          escapePending := false
          fcs := fcsUpdate s.scanning.fcs c
          kind := some k
          seq := some q
          pos := 2 } }
    exec (.ctrlData ns pf nr) s = .next (after (nr ++ pf ++ ns ++ 0#1 : BitVec 8) .data ns) ∧
    exec (.ctrlAck nr pf b1) s = .next (after (nr ++ pf ++ 0#2 ++ b1 ++ 1#1 : BitVec 8) .ack nr) ∧
    exec (.ctrlNack nr pf b1) s = .next (after (nr ++ pf ++ 2#2 ++ b1 ++ 1#1 : BitVec 8) .nack nr) ∧
    exec (.ctrlUnsupportedS1 nr pf b1) s =
      .next (after (nr ++ pf ++ 1#2 ++ b1 ++ 1#1 : BitVec 8) .nack nr) ∧
    exec (.ctrlUnsupportedS3 nr pf b1) s =
      .next (after (nr ++ pf ++ 3#2 ++ b1 ++ 1#1 : BitVec 8) .nack nr)

/-- A control-byte row anywhere else in a scan does what R152 does with that byte: skipped before the opening
Flag (R166), the address at position 0, stored from position 2 on, `DstOverflow` when the destination is full
(R156, R162). The stepwise scan is the model's own (assumption 11). -/
def Obligations.ControlRowsElsewhereInAScan : Prop :=
  ∀ (s : State) (i : Instr) (c : Byte), i.port = .ctrl → encode i = [c] →
    s.scanning.frameStop = none →
    let sc := s.scanning
    (sc.frameStart = none →
      exec i s = .next { s with scan := some { sc with i := sc.i + 1 } }) ∧
    (∀ start, sc.frameStart = some start →
      (sc.pos = 0 →
        exec i s =
          .next { s with
            scan := some { sc with
              i := sc.i + 1
              escapePending := false
              fcs := fcsUpdate sc.fcs c
              addr := some c
              pos := 1 } }) ∧
      (2 ≤ sc.pos → sc.stored.length ≠ s.params.dcap →
        exec i s =
          .next { s with
            scan := some { sc with
              i := sc.i + 1
              escapePending := false
              fcs := fcsUpdate sc.fcs c
              stored := sc.stored ++ [c]
              pos := sc.pos + 1 } }) ∧
      (2 ≤ sc.pos → sc.stored.length = s.params.dcap →
        exec i s = .fault (.dstOverflow sc.i)))

/-- Presenting a window byte by byte, then its end, reaches what `FRM.DEC` of the whole window into `DCAP`
bytes does in one operation: the same result, destination and fault, the rest of the state as it was. The
stepwise scan is the model's own (assumption 11); that it agrees with the one operation of R152 is what this
says. -/
def Obligations.WireStepsRefineFrmDec : Prop :=
  ∀ (s : State) (w : List Byte) (rest : List Input),
    s.scan = none → s.inputs = w.map Input.wire ++ .windowEnd :: rest →
    match exec (.frmDec w s.params.dcap) s with
    | .next t =>
      ∃ k, (IsTerminal t.result → k = t.result.discard) ∧
        (¬ IsTerminal t.result → k = w.length + 1) ∧
        Host.Core.run core k s = .next { t with inputs := s.inputs.drop k }
    | .fault (.dstOverflow i) => Host.Core.run core (i + 1) s = .fault (.dstOverflow i)
    | .refused _ => False

/-! ### The reassembly buffer -/

/-- `BUF.UNUSED` gives `base = tail` and `free = CAP - tail` and changes nothing else (R180). -/
def Obligations.BufUnusedGivesSuffix : Prop :=
  ∀ s : State,
    exec .bufUnused s = .next { s with result := .unused s.tail (s.params.cap - s.tail) }

/-- `BUF.APPEND`: the tail advances by `n` if that many cells are free, otherwise `InvalidArgument` and no
change, by the spec's own decision D17 (R182). -/
def Obligations.BufAppendAdvancesTail : Prop :=
  ∀ (s : State) (n : Nat),
    (n ≤ s.params.cap - s.tail →
      exec (.bufAppend n) s = .next { s with tail := s.tail + n, result := .ok }) ∧
    (s.params.cap - s.tail < n →
      exec (.bufAppend n) s = .next { s with result := .invalidArgument })

/-- `BUF.DATA` gives the cells `buf[0 .. tail-1]` in order and `len = tail`, and changes nothing else
(R183). -/
def Obligations.BufDataGivesReadableCells : Prop :=
  ∀ s : State, ∃ w : List Byte,
    exec .bufData s = .next { s with result := .window w s.tail } ∧
    w.length = s.tail ∧ ∀ j < s.tail, w[j]? = some (s.buf.read .buf j)

/-- `BUF.ERASE`: the readable data loses its first `k` bytes, the rest in order from cell 0 (R184, R191); for
more bytes than are held `InvalidArgument` and no change, by the spec's own decision D18. Nothing but `buf`,
`tail`, the result port and the count of free values changes, no cell beyond `CAP` and, with `k = 0`, no cell
at all. -/
def Obligations.BufEraseDropsOldestBytes : Prop :=
  ∀ (s : State) (k : Nat),
    (k ≤ s.tail →
      ∃ (m : Memory) (d : Nat),
        let t : State := { s with buf := m, tail := s.tail - k, result := .ok, draws := d }
        exec (.bufErase k) s = .next t ∧ t.data = s.data.drop k ∧
        (∀ x, s.tail ≤ x → s.params.cap ≤ x → m.read .buf x = s.buf.read .buf x) ∧
        (k = 0 → m = s.buf)) ∧
    (s.tail < k → exec (.bufErase k) s = .next { s with result := .invalidArgument })

/-- `BUF.CLEAR` empties the buffer (R185); on an empty one nothing but the result port changes, and no cell
beyond `CAP` ever does. -/
def Obligations.BufClearEmptiesBuffer : Prop :=
  ∀ s : State, ∃ (m : Memory) (d : Nat),
    let t : State := { s with buf := m, tail := 0, result := .ok, draws := d }
    exec .bufClear s = .next t ∧ t.data = [] ∧
    (∀ x, s.params.cap ≤ x → m.read .buf x = s.buf.read .buf x) ∧
    (s.tail = 0 → m = s.buf)

/-- `BUF.CAP` gives `CAP` and changes nothing else (R186). -/
def Obligations.BufCapGivesCapacity : Prop :=
  ∀ s : State, exec .bufCap s = .next { s with result := .capacity s.params.cap }

/-- The sequence law of the fill (R181, R191, derived by the spec): pushing at most `free` bytes appends them
to the readable data and changes nothing else but `buf`, `tail` and the result port; no scan of an earlier
operation survives (R20). -/
def Obligations.RxPushAppendsBytes : Prop :=
  ∀ (s : State) (bytes : List Byte), bytes.length ≤ s.params.cap - s.tail →
    ∃ m : Memory,
      let t : State := { s with buf := m, tail := s.tail + bytes.length, result := .ok, scan := none }
      rxPush bytes s = .next t ∧ t.data = s.data ++ bytes

/-- Overflow recovery (R188) and retention (R159): when the decode of the buffered data is `NoFrame`, `RX.POLL`
empties a full buffer and keeps all the data of any other. -/
def Obligations.RxPollRecoversOverflow : Prop :=
  ∀ (s : State) (dcap : Nat), decoded s.data dcap s = .ok (.noFrame 0) →
    ∃ t, rxPoll dcap s = .next t ∧ t.result = .noFrame 0 ∧
      (s.tail = s.params.cap → t.tail = 0 ∧ t.data = []) ∧
      (s.tail ≠ s.params.cap → t.tail = s.tail ∧ t.data = s.data)

/-- The chunking property at the block (R171, R192, R223; the host's loop is R206): a frame that fits the
buffer, pushed into an empty buffer in two pieces, is `NoFrame` after the first, kept, and is received whole
after the second, leaving the buffer empty. -/
def Obligations.ChunkedFrameIsReceived : Prop :=
  ∀ (s : State) (addr : Byte) (k : Kind) (q : Seq) (p f1 f2 : List Byte) (dcap : Nat),
    s.tail = 0 → Framable addr k p → framedBytes addr k q p = f1 ++ f2 → f2 ≠ [] →
    (f1 ++ f2).length ≤ s.params.cap → (payloadOf k p).length + 2 ≤ dcap →
    ∃ t1 t2 t3 t4,
      rxPush f1 s = .next t1 ∧
      rxPoll dcap t1 = .next t2 ∧ t2.result = .noFrame 0 ∧ t2.data = f1 ∧
      rxPush f2 t2 = .next t3 ∧
      rxPoll dcap t3 = .next t4 ∧ t4.tail = 0 ∧
      t4.result =
        .frame k q addr (payloadOf k p) (payloadOf k p).length (framedBytes addr k q p).length

/-! ### The whole machine -/

/-- Every step keeps the invariant: `0 = head ≤ tail ≤ CAP` (R24, R190), the spaces canonical, no cell of `buf`
beyond `CAP` (R44), and the registers of a scan in progress as R29 and R161 have them. That such a scan stands
in the state between two steps is the model's own choice and no rule's (assumption 11, unsafe for exactly this
clause). -/
def Obligations.StepKeepsInvariant : Prop :=
  ∀ s t : State, s.Inv → step s = .next t → t.Inv

/-- After reset, built with any parameters: the buffer is empty, `head = 0`, no scan is in progress, nothing is
presented, the parameters are the given ones (R37, R250, decision D6; result port and queue are assumptions 8
and 15), and the invariant holds. -/
def Obligations.ResetIsEmptyAndInvariant : Prop :=
  ∀ p : Config.Params,
    let s := State.resetWith p
    s.head = 0 ∧ s.tail = 0 ∧ s.data = [] ∧ s.params = p ∧ s.scan = none ∧ s.inputs = [] ∧
    s.buf = [] ∧ s.dst = [] ∧ s.out = [] ∧ s.result = .idle ∧ s.Inv

/-- Only `BUF.APPEND`, `BUF.ERASE` and `BUF.CLEAR` change the state of the block (R45, R76, both decisions of the
spec): every other instruction leaves memory, tail and parameters as they were. -/
def Obligations.OnlyBufferOpsChangeTheBlock : Prop :=
  ∀ (i : Instr) (s t : State), exec i s = .next t →
    (∀ n, i ≠ .bufAppend n) → (∀ k, i ≠ .bufErase k) → i ≠ .bufClear → SameBlock s t

/-- No step changes the construction parameters (R6, R27), and a step takes exactly one input away. -/
def Obligations.StepKeepsParameters : Prop :=
  ∀ s t : State, step s = .next t → t.params = s.params ∧ t.inputs = s.inputs.tail

/-- The stops of `exec` (R230, R240, R241): no instruction is ever refused, and the one fault comes only from
a frame scan whose destination is too small, `FRM.DEC` with `dcap < len(W) - 3` or a control-byte row met
when `DCAP` bytes are stored. R230 gives the fault to `FRM.DEC` only; that a control-byte row raises it is the
stepwise scan's, the model's own (assumptions 11, 24). The stops of a step are in `StopsOfAStep`. -/
def Obligations.OnlyFrameScansFault : Prop :=
  ∀ (i : Instr) (s : State),
    (∀ r, exec i s ≠ .refused r) ∧
    (∀ f, exec i s = .fault f →
      (∃ w d, i = .frmDec w d ∧ d + 3 < w.length) ∨
      (i.port = .ctrl ∧ s.scanning.stored.length = s.params.dcap))

/-! ### The host of the block (45_host_session.md), kept apart from it -/

/-- An accepted Data frame (R208, in the spec's reading of one increment, conflict C11, without duplicate
suppression): `rx_seq` steps modulo 8, the Ack carries the stepped value, the payload and the decoded address
are delivered. What the document leaves open is a parameter (assumption 21). -/
def Obligations.DataFrameIsAcknowledged : Prop :=
  ∀ (o : SessionOpen) (h : Session) (q : Seq) (a : Byte) (p : List Byte) (l d : Nat),
    o.rxSeqIncrements = 1 → o.suppressDuplicates = false →
    let r := h.dispatch o (.frame .data q a p l d)
    r.session.rxSeq.toNat = (h.rxSeq.toNat + 1) % 8 ∧
    (∃ x, r.reply = some ⟨x, .ack, r.session.rxSeq⟩) ∧
    r.delivery = some ⟨p, a⟩ ∧
    r.session.txSeq = h.txSeq ∧ r.session.writeResult = h.writeResult

/-- Every other outcome of a decode (R209 to R211): Ack and Nack are published and nothing is sent; a bad frame
whose kind is Data is answered with a Nack of `rx_seq` (R210's reading of conflict C7), any other bad frame and
`NoFrame` with nothing; `rx_seq` never changes and nothing is delivered. -/
def Obligations.OtherFramesAreDispatched : Prop :=
  ∀ (o : SessionOpen) (h : Session) (q : Seq) (a : Byte) (p : List Byte) (l d : Nat)
    (q? : Option Seq) (a? : Option Byte), o.nackFromFrame = false →
    (let r := h.dispatch o (.frame .ack q a p l d);
      r.session = { h with writeResult := .ack } ∧ r.reply = none ∧ r.delivery = none) ∧
    (let r := h.dispatch o (.frame .nack q a p l d);
      r.session = { h with writeResult := .nack } ∧ r.reply = none ∧ r.delivery = none) ∧
    (let r := h.dispatch o (.badFrame (some .data) q? a? d);
      r.session.rxSeq = h.rxSeq ∧ (∃ x, r.reply = some ⟨x, .nack, h.rxSeq⟩) ∧ r.delivery = none) ∧
    (∀ kind? : Option Kind, kind? ≠ some .data →
      let r := h.dispatch o (.badFrame kind? q? a? d)
      r.session.rxSeq = h.rxSeq ∧ r.reply = none ∧ r.delivery = none) ∧
    (let r := h.dispatch o (.noFrame d);
      r.session.rxSeq = h.rxSeq ∧ r.reply = none ∧ r.delivery = none)

/-- A `write` nobody answers (R214, R215, R216, R221): with `writeTimeout ≥ 1` the sender polls
`writeTimeout × (1 + writeRetries)` milliseconds in all, and returns the timeout error exactly then, the lock
released. -/
def Obligations.UnansweredWriteTimesOut : Prop :=
  ∀ (o : SessionOpen) (h h1 : Session) (payload : List Byte), 1 ≤ h.writeTimeout →
    h.writeBegin payload = some (.ok h1) →
    (∀ n, n < h.writeTimeout * (1 + h.writeRetries) → (pollTimes o payload n h1).2 = none) ∧
    (let r := pollTimes o payload (h.writeTimeout * (1 + h.writeRetries)) h1;
      r.2 = some (.error .timeout) ∧ r.1.sender = .idle ∧ r.1.writerLocked = false)

/-! ### Completion of the Flag row, and the stops of a step -/

/-- `WIRE.FLAG` completes in every state (R153, R154, R160). It leaves buffer, parameters, sink and inputs alone;
from a scan whose closing Flag has not been found, the scan goes on, at most `frame_start` changed beside the
index, or ends with a terminal outcome that consumes the bytes up to this Flag. The stepwise scan is the model's
own (assumption 11). -/
def Obligations.WireFlagCompletes : Prop :=
  ∀ s : State, ∃ t, exec .wireFlag s = .next t ∧ SameBlock s t ∧ t.out = s.out ∧ t.inputs = s.inputs ∧
    (s.scanning.frameStop = none →
      (t.scan =
          some { s.scanning with i := s.scanning.i + 1, frameStart := t.scanning.frameStart } ∧
        t.dst = s.dst ∧ t.result = s.result ∧ t.draws = s.draws) ∨
      (t.scan = none ∧ IsTerminal t.result ∧ t.result.discard = s.scanning.i + 1))

/-- The stops of a step. It refuses exactly an issue whose lanes are no operation and a fill outside the suffix
(assumptions 8, 17). It faults on an issued `FRM.DEC` only when `dcap < len(W) - 3` (R162, R230, R240), and on a
byte presented to the scan in progress exactly when that byte is stored and `DCAP` bytes are stored already, with
the scan index in the fault (the stepwise scan is the model's own, assumptions 11, 24). No other operation
faults (R241). -/
def Obligations.StopsOfAStep : Prop :=
  ∀ s : State,
    (∀ r, step s = .refused r ↔
      (r = .malformedIssue ∧
        ∃ lanes rest e, s.inputs = .issue lanes :: rest ∧ decode .op lanes = .error e) ∨
      (r = .fillOutsideSuffix ∧
        ∃ x b rest, s.inputs = .fill x b :: rest ∧ ¬ (s.tail ≤ x ∧ x < s.params.cap))) ∧
    (∀ lanes rest f, s.inputs = .issue lanes :: rest → step s = .fault f →
      ∃ w d spare, decode .op lanes = .ok (.frmDec w d, spare) ∧ d + 3 < w.length) ∧
    (∀ b rest i, s.inputs = .wire b :: rest →
      (step s = .fault (.dstOverflow i) ↔
        b ≠ Config.FLAG ∧ b ≠ Config.ESC ∧ s.scanning.frameStart.isSome ∧ 2 ≤ s.scanning.pos ∧
          s.scanning.stored.length = s.params.dcap ∧ i = s.scanning.i)) ∧
    (∀ f, (s.inputs = [] ∨ (∃ rest, s.inputs = .windowEnd :: rest) ∨
      ∃ x b rest, s.inputs = .fill x b :: rest) → step s ≠ .fault f)

/-! ### The host's two loops -/

/-- Chunking (R223, R205 to R208): into an empty buffer, however the transport reads cut a Data frame that fits
it, `read` returns the payload and the address, has handed exactly one frame to the transport, the Ack of
`rx_seq + 1`, and leaves the buffer empty: the single read is one of the cuts. The open points of the host are
parameters, duplicate suppression off, the reader's sink one that takes an Ack; that it is a sink of the reader's
own, the reply's address and the Ack before the return are the model's (assumptions 21, 25, 27). -/
def Obligations.ReadReceivesAnyChunking : Prop :=
  ∀ (o : SessionOpen) (h : Session) (s : State) (addr : Byte) (q : Seq) (p : List Byte)
    (chunks : List (List Byte)) (dstLen : Nat) (written : Int), 0 < written →
    o.suppressDuplicates = false → h.stopped = false → s.tail = 0 → Framable addr .data p →
    chunks.flatten = framedBytes addr .data q p → (∀ c ∈ chunks, c ≠ []) →
    (framedBytes addr .data q p).length ≤ s.params.cap → 8 ≤ o.replyCap →
    p.length + 2 ≤ dstLen → dstLen ≤ s.params.cap →
    let r := h.read o dstLen (chunks.map fun c => ⟨false, TransportRead.ofBytes c, written⟩) s
    r.ending = .delivered ⟨p, addr⟩ ∧
    r.writes = [framedBytes (o.replyAddr (some addr)) .ack (h.rxSeq + 1) []] ∧
    r.session.rxSeq = h.rxSeq + BitVec.ofNat 3 o.rxSeqIncrements ∧
    r.session.writeResult = h.writeResult ∧ r.block.tail = 0

/-- Where `read` ends without a payload (R205, R206, R212, R217, R239): a destination that is empty or larger than
the reassembly buffer is an `InvalidArgument`, the block untouched; a stopped session is left at the boundary of a
turn, before the transport is read; a transport read that returns 0 or less ends the call with that value.
`DstOverflow` of a turn's decode ends the call too (R240, R255, decision D13), nothing sent, `buf` and `tail`
unchanged by that decode and its window not consumed: after the decode of sub-step a the buffer is as before the
call, after that of sub-step b it holds the bytes the transport has just delivered behind those of before. No result
is defined there, and nothing is said of `dst`. In the clause on a stopped session the flag is tested before the
first turn and the error answered is one of an earlier call, or none: both are the model's own choice (assumption
26, unsafe for exactly this clause); R212 and R217 state the exit and that it is at a boundary. -/
def Obligations.ReadEndsWithoutPayload : Prop :=
  ∀ (o : SessionOpen) (h : Session) (s : State) (dstLen : Nat) (e : TurnInput) (es : List TurnInput),
    (dstLen = 0 ∨ s.params.cap < dstLen →
      h.read o dstLen (e :: es) s = ⟨h, s, [], .error .invalidArgument⟩) ∧
    (1 ≤ dstLen ∧ dstLen ≤ s.params.cap →
      (h.stopped = true ∨ e.closed = true →
        h.read o dstLen (e :: es) s = ⟨h.close, s, [], .stopped h.lastError⟩) ∧
      (h.stopped = false → e.closed = false → s.tail = 0 → e.chunk.placed = [] → e.chunk.value ≤ 0 →
        let r := h.read o dstLen (e :: es) s
        r.ending = .error (.transport e.chunk.value) ∧ r.session = h ∧ r.writes = [] ∧
        SameBlock s r.block) ∧
      (∀ i, h.stopped = false → e.closed = false → s.tail ≠ 0 → decoded s.data dstLen s = .error i →
        let r := h.read o dstLen (e :: es) s
        r.ending = .fault (.dstOverflow i) ∧ r.writes = [] ∧ SameBlock s r.block) ∧
      (∀ i bytes, h.stopped = false → e.closed = false → bytes ≠ [] → e.chunk = TransportRead.ofBytes bytes →
        s.tail + bytes.length ≤ s.params.cap →
        (s.tail = 0 ∨ decoded s.data dstLen s = .ok (.noFrame 0)) →
        decoded (s.data ++ bytes) dstLen s = .error i →
        let r := h.read o dstLen (e :: es) s
        r.ending = .fault (.dstOverflow i) ∧ r.writes = [] ∧ r.block.tail = s.tail + bytes.length ∧
        r.block.data = s.data ++ bytes))

/-- The frames a `write` transmits (R74, R213 to R216). With a timeout and nobody answering, every one of its
`1 + writeRetries` attempts encodes and transmits the same Data frame of `tx_seq + 1`, and the call then returns
the timeout error with the lock released; with an Ack published at one of the polls of the first attempt, or with
no timeout, it returns the payload's length after one frame. With no address the frame is a broadcast. -/
def Obligations.WriteTransmitsSameFrame : Prop :=
  ∀ (o : SessionOpen) (h : Session) (s : State) (addr : Option Byte) (payload : List Byte)
    (written : Int), 0 < written → payload ≠ [] → h.writerLocked = false →
    let f := framedBytes (addr.getD 0xFF) .data (h.txSeq + 1) payload
    f.length ≤ s.params.wcap →
    (1 ≤ h.writeTimeout →
      let silent : AttemptInput := ⟨written, List.replicate h.writeTimeout .none⟩
      let r := h.write o addr payload (List.replicate (1 + h.writeRetries) silent) s
      r.ending = .returned (.error .timeout) ∧ r.writes = List.replicate (1 + h.writeRetries) f ∧
      r.session.txSeq = h.txSeq + 1 ∧ r.session.sender = .idle ∧ r.session.writerLocked = false) ∧
    (∀ j es, j < h.writeTimeout →
      let r := h.write o addr payload (⟨written, List.replicate j .none ++ [.ack]⟩ :: es) s
      r.ending = .returned (.ok payload.length) ∧ r.writes = [f] ∧ r.session.writerLocked = false) ∧
    (∀ published es, h.writeTimeout = 0 →
      let r := h.write o addr payload (⟨written, published⟩ :: es) s
      r.ending = .returned (.ok payload.length) ∧ r.writes = [f] ∧ r.session.writerLocked = false)

/-! ### Nothing survives an operation -/

/-- No register of a scan survives the issue of an operation, and no operation reads one left by an earlier scan
(R20, R29): in a step, in the two sequences of R78, and in the host's `read` and `write`, whose block is afterwards
without a scan or as it was before; the latter is for a call that issues no operation, which keeps a scan that was
in progress. That a scan can be in progress at all is the model's own choice (assumption 11). -/
def Obligations.NoScanSurvivesAnOperation : Prop :=
  (∀ (s t : State) (lanes : List Byte) (rest : List Input), s.inputs = .issue lanes :: rest →
    (∀ sc, step { s with scan := sc } = step s) ∧ (step s = .next t → t.scan = none)) ∧
  (∀ (s t : State) (bytes : List Byte),
    (∀ sc, rxPush bytes { s with scan := sc } = rxPush bytes s) ∧
    (rxPush bytes s = .next t → t.scan = none)) ∧
  (∀ (s t : State) (dcap : Nat),
    (∀ sc, rxPoll dcap { s with scan := sc } = rxPoll dcap s) ∧
    (rxPoll dcap s = .next t → t.scan = none)) ∧
  (∀ (o : SessionOpen) (h : Session) (s : State) (dstLen : Nat) (turns : List TurnInput),
    let t := (h.read o dstLen turns s).block
    t = s ∨ t.scan = none) ∧
  (∀ (o : SessionOpen) (h : Session) (s : State) (addr : Option Byte) (payload : List Byte)
    (attempts : List AttemptInput),
    let t := (h.write o addr payload attempts s).block
    t = s ∨ t.scan = none)

/-! ### The two roles -/

/-- Reader and writer keep to their own (R49, R219, U16). A `read` leaves the writer's scratch buffer `out`, the tx
counter, the writer lock and the sender as they were, its replies included; a `write` leaves the reassembly buffer,
the reader's destination and sink, the rx counter, the last delivered number and the `stopped` flag; and while
another writer holds the lock a `write` changes nothing and transmits nothing. That the reader has a sink of its
own, apart from `out`, follows U16; that the last decode error is the reader's is the model's (assumptions 25,
26). -/
def Obligations.RolesKeepToTheirOwn : Prop :=
  (∀ (o : SessionOpen) (h : Session) (s : State) (dstLen : Nat) (turns : List TurnInput),
    let r := h.read o dstLen turns s
    r.block.out = s.out ∧ r.session.txSeq = h.txSeq ∧ r.session.writerLocked = h.writerLocked ∧
    r.session.sender = h.sender) ∧
  (∀ (o : SessionOpen) (h : Session) (s : State) (addr : Option Byte) (payload : List Byte)
    (attempts : List AttemptInput),
    let r := h.write o addr payload attempts s
    SameBlock s r.block ∧ r.block.dst = s.dst ∧ r.session.rxSeq = h.rxSeq ∧
    r.session.lastDelivered = h.lastDelivered ∧ r.session.replyOut = h.replyOut ∧
    r.session.stopped = h.stopped ∧ r.session.lastError = h.lastError ∧
    (h.writerLocked = true → r.block = s ∧ r.session = h ∧ r.writes = []))
end

