-- ==== Sys2Proof/Laws/Decode.lean ====
section
/-! SUPPORT. The operand lanes of the issue port: what each lane reader gives back from what the encoder
lays out (assumption 9), the control byte as the concatenation of its fields (R66), and the port of what is
decoded. -/

namespace Sys2Proof

@[simp] theorem lane8_cons (b : Byte) (t : List Byte) : lane8 (b :: t) = .ok (b, t) := rfl

theorem high_low (s : Acc) : (s.extractLsb' 8 8 ++ s.extractLsb' 0 8 : BitVec 16) = s := by
  ext i hi
  simp only [BitVec.getElem_append, BitVec.getElem_extractLsb', Nat.zero_add]
  split
  · rfl
  · rw [show 8 + (i - 8) = i by omega]
    rfl

@[simp] theorem lane16_encode16 (s : Acc) (t : List Byte) :
    lane16 (encode16 s ++ t) = .ok (s, t) := by
  simp only [encode16, lane16, List.cons_append, List.nil_append, high_low]

@[simp] theorem laneCount_encodeCount (n : Nat) (t : List Byte) (h : n < 2 ^ 32) :
    laneCount (encodeCount n ++ t) = .ok (n, t) := by
  simp only [encodeCount, laneCount, List.cons_append, List.nil_append, BitVec.toNat_ofNat]
  congr 2
  omega

theorem laneNarrow_setWidth {w : Nat} (hw : w ≤ 8) (x : BitVec w) (t : List Byte) :
    laneNarrow w (x.setWidth 8 :: t) = .ok (x, t) := by
  have hx : x.toNat < 2 ^ 8 := Nat.lt_of_lt_of_le x.isLt (Nat.pow_le_pow_right (by decide) hw)
  have hmod : (x.setWidth 8).toNat = x.toNat := by
    rw [BitVec.toNat_setWidth, Nat.mod_eq_of_lt hx]
  rw [laneNarrow, if_pos (by rw [hmod]; exact x.isLt)]
  congr 2
  apply BitVec.eq_of_toNat_eq
  rw [BitVec.toNat_setWidth, hmod, Nat.mod_eq_of_lt x.isLt]

@[simp] theorem laneBytes_append (w t : List Byte) : laneBytes w.length (w ++ t) = .ok (w, t) := by
  simp [laneBytes]

/-- The Data control byte, bits 7 down to 0 (R66). -/
theorem controlData_eq (ns : Seq) (pf : BitVec 1) (nr : Seq) :
    controlData ns pf nr = (nr ++ pf ++ ns ++ 0#1 : BitVec 8) := by
  unfold controlData; revert ns pf nr; decide

/-- A supervisory control byte, bits 7 down to 0 (R66). -/
theorem controlSuper_eq (st : BitVec 2) (nr : Seq) (pf b1 : BitVec 1) :
    controlSuper st nr pf b1 = (nr ++ pf ++ st ++ b1 ++ 1#1 : BitVec 8) := by
  unfold controlSuper; revert st nr pf b1; decide

theorem decodeControl_controlData (ns : Seq) (pf : BitVec 1) (nr : Seq) :
    decodeControl (controlData ns pf nr) = .ctrlData ns pf nr := by
  unfold controlData decodeControl; revert ns pf nr; decide

theorem decodeControl_controlSuper (st : BitVec 2) (nr : Seq) (pf b1 : BitVec 1) :
    decodeControl (controlSuper st nr pf b1) =
      if st = 0 then .ctrlAck nr pf b1
      else if st = 1 then .ctrlUnsupportedS1 nr pf b1
      else if st = 2 then .ctrlNack nr pf b1
      else .ctrlUnsupportedS3 nr pf b1 := by
  unfold controlSuper decodeControl; revert st nr pf b1; decide

/-- `CTL.DEC` of a Data control byte (R67, R71). -/
theorem ctlDec_controlData (ns : Seq) (pf : BitVec 1) (nr : Seq) :
    Machine.ctlDec (controlData ns pf nr) = (.data, ns) := by
  unfold controlData Machine.ctlDec; revert ns pf nr; decide

/-- `CTL.DEC` of a supervisory control byte (R68, R69, R71, R72). -/
theorem ctlDec_controlSuper (st : BitVec 2) (nr : Seq) (pf b1 : BitVec 1) :
    Machine.ctlDec (controlSuper st nr pf b1) = (if st = 0 then .ack else .nack, nr) := by
  unfold controlSuper Machine.ctlDec; revert st nr pf b1; decide

/-! ### The decoder answers with an instruction of its port -/

theorem except_bind_ok {α β : Type} {x : Except DecodeError α} {f : α → Except DecodeError β} {b : β}
    (h : x.bind f = .ok b) : ∃ a, f a = .ok b := by
  cases x with
  | error e => exact nomatch h
  | ok a => exact ⟨a, h⟩

theorem decodeOp_port {sel : Nat} {t rest : List Byte} {i : Instr}
    (h : decodeOp sel t = .ok (i, rest)) : i.port = .op := by
  unfold decodeOp at h
  split at h
  all_goals first
    | (cases h <;> rfl)
    | (obtain ⟨⟨_, _⟩, h⟩ := except_bind_ok h
       cases h; rfl)
    | (iterate 2 obtain ⟨⟨_, _⟩, h⟩ := except_bind_ok h
       cases h; rfl)
    | (iterate 3 obtain ⟨⟨_, _⟩, h⟩ := except_bind_ok h
       cases h; rfl)
    | (iterate 6 obtain ⟨⟨_, _⟩, h⟩ := except_bind_ok h
       cases h; rfl)

theorem decodeControl_port (c : Byte) : (decodeControl c).port = .ctrl := by
  unfold decodeControl
  dsimp only
  repeat' split
  all_goals rfl

theorem decode_port {port : Port} {b rest : List Byte} {i : Instr}
    (h : decode port b = .ok (i, rest)) : i.port = port := by
  unfold decode at h
  split at h
  · exact nomatch h
  · split at h
    · exact decodeOp_port h
    · cases h; exact decodeControl_port _
    · split at h
      · cases h; rfl
      · split at h
        · cases h; rfl
        · exact nomatch h

end Sys2Proof
end

