-- ==== Sys2Proof/Laws/State.lean ====
section
/-! SUPPORT. What each update of the state leaves in each field, true by unfolding, so that later proofs
need not unfold a record update. -/

namespace Sys2Proof.Machine

variable (s : State)

@[simp] theorem State.head_eq_zero : s.head = 0 := rfl

/-! ### `beginOperation` -/

@[simp] theorem State.beginOperation_params : s.beginOperation.params = s.params := rfl
@[simp] theorem State.beginOperation_buf : s.beginOperation.buf = s.buf := rfl
@[simp] theorem State.beginOperation_tail : s.beginOperation.tail = s.tail := rfl
@[simp] theorem State.beginOperation_dst : s.beginOperation.dst = s.dst := rfl
@[simp] theorem State.beginOperation_out : s.beginOperation.out = s.out := rfl
@[simp] theorem State.beginOperation_scan : s.beginOperation.scan = none := rfl
@[simp] theorem State.beginOperation_result : s.beginOperation.result = s.result := rfl
@[simp] theorem State.beginOperation_inputs : s.beginOperation.inputs = s.inputs := rfl
@[simp] theorem State.beginOperation_draws : s.beginOperation.draws = s.draws := rfl

/-! ### `withResult` -/

@[simp] theorem State.withResult_params (r : Result) : (s.withResult r).params = s.params := rfl
@[simp] theorem State.withResult_buf (r : Result) : (s.withResult r).buf = s.buf := rfl
@[simp] theorem State.withResult_tail (r : Result) : (s.withResult r).tail = s.tail := rfl
@[simp] theorem State.withResult_dst (r : Result) : (s.withResult r).dst = s.dst := rfl
@[simp] theorem State.withResult_out (r : Result) : (s.withResult r).out = s.out := rfl
@[simp] theorem State.withResult_scan (r : Result) : (s.withResult r).scan = s.scan := rfl
@[simp] theorem State.withResult_result (r : Result) : (s.withResult r).result = r := rfl
@[simp] theorem State.withResult_inputs (r : Result) : (s.withResult r).inputs = s.inputs := rfl
@[simp] theorem State.withResult_draws (r : Result) : (s.withResult r).draws = s.draws := rfl
@[simp] theorem State.withResult_data (r : Result) : (s.withResult r).data = s.data := rfl
@[simp] theorem State.withResult_free (r : Result) : (s.withResult r).free = s.free := rfl

/-! ### `withFreeLane` -/

@[simp] theorem State.withFreeLane_params (r : Byte → Result) : (s.withFreeLane r).params = s.params := rfl
@[simp] theorem State.withFreeLane_buf (r : Byte → Result) : (s.withFreeLane r).buf = s.buf := rfl
@[simp] theorem State.withFreeLane_tail (r : Byte → Result) : (s.withFreeLane r).tail = s.tail := rfl
@[simp] theorem State.withFreeLane_dst (r : Byte → Result) : (s.withFreeLane r).dst = s.dst := rfl
@[simp] theorem State.withFreeLane_out (r : Byte → Result) : (s.withFreeLane r).out = s.out := rfl
@[simp] theorem State.withFreeLane_scan (r : Byte → Result) : (s.withFreeLane r).scan = s.scan := rfl
@[simp] theorem State.withFreeLane_inputs (r : Byte → Result) : (s.withFreeLane r).inputs = s.inputs := rfl
@[simp] theorem State.withFreeLane_draws (r : Byte → Result) : (s.withFreeLane r).draws = s.draws + 1 := rfl

/-! ### The encoder's two endings -/

@[simp] theorem encodeDone_params (b : List Byte) : (encodeDone b s).params = s.params := rfl
@[simp] theorem encodeDone_buf (b : List Byte) : (encodeDone b s).buf = s.buf := rfl
@[simp] theorem encodeDone_tail (b : List Byte) : (encodeDone b s).tail = s.tail := rfl
@[simp] theorem encodeDone_dst (b : List Byte) : (encodeDone b s).dst = s.dst := rfl
@[simp] theorem encodeDone_out (b : List Byte) : (encodeDone b s).out = s.out.writeAll 0 b := rfl
@[simp] theorem encodeDone_scan (b : List Byte) : (encodeDone b s).scan = s.scan := rfl
@[simp] theorem encodeDone_result (b : List Byte) : (encodeDone b s).result = .encoded b b.length := rfl
@[simp] theorem encodeDone_inputs (b : List Byte) : (encodeDone b s).inputs = s.inputs := rfl
@[simp] theorem encodeDone_draws (b : List Byte) : (encodeDone b s).draws = s.draws := rfl

@[simp] theorem encodeRejected_params (c : Nat) : (encodeRejected c s).params = s.params := rfl
@[simp] theorem encodeRejected_buf (c : Nat) : (encodeRejected c s).buf = s.buf := rfl
@[simp] theorem encodeRejected_tail (c : Nat) : (encodeRejected c s).tail = s.tail := rfl
@[simp] theorem encodeRejected_dst (c : Nat) : (encodeRejected c s).dst = s.dst := rfl
@[simp] theorem encodeRejected_out (c : Nat) :
    (encodeRejected c s).out = s.out.unspecify s.draws 0 c := rfl
@[simp] theorem encodeRejected_scan (c : Nat) : (encodeRejected c s).scan = s.scan := rfl
@[simp] theorem encodeRejected_result (c : Nat) : (encodeRejected c s).result = .invalidArgument := rfl
@[simp] theorem encodeRejected_inputs (c : Nat) : (encodeRejected c s).inputs = s.inputs := rfl
@[simp] theorem encodeRejected_draws (c : Nat) : (encodeRejected c s).draws = s.draws + 1 := rfl

/-! ### `unspecifyDst` and `deliver` -/

@[simp] theorem State.unspecifyDst_params (dcap : Nat) : (s.unspecifyDst dcap).params = s.params := rfl
@[simp] theorem State.unspecifyDst_buf (dcap : Nat) : (s.unspecifyDst dcap).buf = s.buf := rfl
@[simp] theorem State.unspecifyDst_tail (dcap : Nat) : (s.unspecifyDst dcap).tail = s.tail := rfl
@[simp] theorem State.unspecifyDst_out (dcap : Nat) : (s.unspecifyDst dcap).out = s.out := rfl
@[simp] theorem State.unspecifyDst_scan (dcap : Nat) : (s.unspecifyDst dcap).scan = s.scan := rfl
@[simp] theorem State.unspecifyDst_result (dcap : Nat) : (s.unspecifyDst dcap).result = s.result := rfl
@[simp] theorem State.unspecifyDst_inputs (dcap : Nat) : (s.unspecifyDst dcap).inputs = s.inputs := rfl
@[simp] theorem State.unspecifyDst_dst (dcap : Nat) :
    (s.unspecifyDst dcap).dst = s.dst.unspecify s.draws 0 dcap := rfl
@[simp] theorem State.unspecifyDst_draws (dcap : Nat) : (s.unspecifyDst dcap).draws = s.draws + 1 := rfl

section deliver

variable (dcap : Nat) (sc : Scan)

@[simp] theorem State.deliver_params : (s.deliver dcap sc).params = s.params := by
  unfold State.deliver; split <;> rfl
@[simp] theorem State.deliver_buf : (s.deliver dcap sc).buf = s.buf := by
  unfold State.deliver; split <;> rfl
@[simp] theorem State.deliver_tail : (s.deliver dcap sc).tail = s.tail := by
  unfold State.deliver; split <;> rfl
@[simp] theorem State.deliver_out : (s.deliver dcap sc).out = s.out := by
  unfold State.deliver; split <;> rfl
@[simp] theorem State.deliver_scan : (s.deliver dcap sc).scan = s.scan := by
  unfold State.deliver; split <;> rfl
@[simp] theorem State.deliver_inputs : (s.deliver dcap sc).inputs = s.inputs := by
  unfold State.deliver; split <;> rfl
@[simp] theorem State.deliver_result : (s.deliver dcap sc).result = sc.finish := by
  unfold State.deliver; split
  · rename_i h; exact h.symm
  · rfl

@[simp] theorem State.deliver_draws : (s.deliver dcap sc).draws = s.draws + 1 := by
  unfold State.deliver; split <;> rfl

end deliver

/-! ### The buffer's updates -/

@[simp] theorem State.unspecifyFrom_params (lo : Nat) : (s.unspecifyFrom lo).params = s.params := rfl
@[simp] theorem State.unspecifyFrom_tail (lo : Nat) : (s.unspecifyFrom lo).tail = s.tail := rfl
@[simp] theorem State.unspecifyFrom_dst (lo : Nat) : (s.unspecifyFrom lo).dst = s.dst := rfl
@[simp] theorem State.unspecifyFrom_out (lo : Nat) : (s.unspecifyFrom lo).out = s.out := rfl
@[simp] theorem State.unspecifyFrom_scan (lo : Nat) : (s.unspecifyFrom lo).scan = s.scan := rfl
@[simp] theorem State.unspecifyFrom_result (lo : Nat) : (s.unspecifyFrom lo).result = s.result := rfl
@[simp] theorem State.unspecifyFrom_inputs (lo : Nat) : (s.unspecifyFrom lo).inputs = s.inputs := rfl
@[simp] theorem State.unspecifyFrom_buf (lo : Nat) :
    (s.unspecifyFrom lo).buf = s.buf.unspecify s.draws lo (s.params.cap - lo) := rfl

@[simp] theorem State.erasePrefix_params (k : Nat) : (s.erasePrefix k).params = s.params := by
  unfold State.erasePrefix; split <;> rfl
@[simp] theorem State.erasePrefix_tail (k : Nat) : (s.erasePrefix k).tail = s.tail - k := by
  unfold State.erasePrefix; split
  · simp [*]
  · rfl
@[simp] theorem State.erasePrefix_dst (k : Nat) : (s.erasePrefix k).dst = s.dst := by
  unfold State.erasePrefix; split <;> rfl
@[simp] theorem State.erasePrefix_out (k : Nat) : (s.erasePrefix k).out = s.out := by
  unfold State.erasePrefix; split <;> rfl
@[simp] theorem State.erasePrefix_scan (k : Nat) : (s.erasePrefix k).scan = s.scan := by
  unfold State.erasePrefix; split <;> rfl
@[simp] theorem State.erasePrefix_inputs (k : Nat) : (s.erasePrefix k).inputs = s.inputs := by
  unfold State.erasePrefix; split <;> rfl

@[simp] theorem State.clearAll_params : s.clearAll.params = s.params := by
  unfold State.clearAll; split <;> rfl
@[simp] theorem State.clearAll_tail : s.clearAll.tail = 0 := by
  unfold State.clearAll; split
  · assumption
  · rfl
@[simp] theorem State.clearAll_dst : s.clearAll.dst = s.dst := by
  unfold State.clearAll; split <;> rfl
@[simp] theorem State.clearAll_out : s.clearAll.out = s.out := by
  unfold State.clearAll; split <;> rfl
@[simp] theorem State.clearAll_scan : s.clearAll.scan = s.scan := by
  unfold State.clearAll; split <;> rfl
@[simp] theorem State.clearAll_inputs : s.clearAll.inputs = s.inputs := by
  unfold State.clearAll; split <;> rfl

/-! ### A turn of the scan in progress -/

section turn

variable (sc : Scan)

@[simp] theorem State.afterTurn_params : (s.afterTurn sc).params = s.params := by
  unfold State.afterTurn; split <;> simp
@[simp] theorem State.afterTurn_buf : (s.afterTurn sc).buf = s.buf := by
  unfold State.afterTurn; split <;> simp
@[simp] theorem State.afterTurn_tail : (s.afterTurn sc).tail = s.tail := by
  unfold State.afterTurn; split <;> simp
@[simp] theorem State.afterTurn_out : (s.afterTurn sc).out = s.out := by
  unfold State.afterTurn; split <;> simp
@[simp] theorem State.afterTurn_inputs : (s.afterTurn sc).inputs = s.inputs := by
  unfold State.afterTurn; split <;> simp

end turn

end Sys2Proof.Machine
end

