-- ==== Sys2Proof/Laws/Fcs.lean ====
section
/-! SUPPORT. The FCS engine: the table R101 prints is the one R100's rule generates, the conditional shift
is linear, and the two FCS bytes of a message. -/

namespace Sys2Proof.Machine

/-- The printed table, entry by entry, is the generated one (R100, R101). -/
theorem readT_ofNat (n : Nat) (h : n < 256) : readT (BitVec.ofNat 8 n) = tableEntry (BitVec.ofNat 8 n) := by
  revert n
  decide +kernel

theorem readT_eq_tableEntry (i : Byte) : readT i = tableEntry i := by
  have h := readT_ofNat i.toNat i.isLt
  rwa [BitVec.ofNat_toNat, BitVec.setWidth_eq] at h

theorem fcsUpdate_eq (s : Acc) (b : Byte) :
    fcsUpdate s b = (s >>> 8) ^^^ tableEntry ((s ^^^ zext16 b).setWidth 8) := by
  rw [fcsUpdate, readT_eq_tableEntry]

/-- The conditional shift of the polynomial engine is linear. -/
theorem polyShift_xor (v w : Acc) : polyShift (v ^^^ w) = polyShift v ^^^ polyShift w := by
  unfold polyShift
  simp only [BitVec.getLsbD_xor, BitVec.ushiftRight_xor_distrib]
  generalize v >>> 1 = v', w >>> 1 = w'
  have cancel : v' ^^^ Config.FCS_POLY ^^^ (w' ^^^ Config.FCS_POLY) = v' ^^^ w' := by
    rw [show v' ^^^ Config.FCS_POLY ^^^ (w' ^^^ Config.FCS_POLY) =
      v' ^^^ w' ^^^ (Config.FCS_POLY ^^^ Config.FCS_POLY) by ac_rfl]
    simp
  cases v.getLsbD 0 <;> cases w.getLsbD 0 <;> simp only [Bool.xor_true, Bool.xor_false, Bool.not_true,
    Bool.not_false, Bool.false_eq_true, if_true, if_false]
  · ac_rfl
  · ac_rfl
  · exact cancel.symm

/-- The table entry is linear in the index (R100). -/
theorem tableEntry_xor (i j : Byte) : tableEntry (i ^^^ j) = tableEntry i ^^^ tableEntry j := by
  simp only [tableEntry, zext16, BitVec.setWidth_xor, polyShift_xor]

/-- The update is linear in accumulator and byte together (R102, R109). -/
theorem fcsUpdate_xor (s t : Acc) (b c : Byte) :
    fcsUpdate (s ^^^ t) (b ^^^ c) = fcsUpdate s b ^^^ fcsUpdate t c := by
  simp only [fcsUpdate_eq, zext16, BitVec.setWidth_xor, BitVec.ushiftRight_xor_distrib, tableEntry_xor]
  ac_rfl

@[simp] theorem fcsFold_nil (s : Acc) : fcsFold s [] = s := rfl

@[simp] theorem fcsFold_cons (s : Acc) (b : Byte) (m : List Byte) :
    fcsFold s (b :: m) = fcsFold (fcsUpdate s b) m := rfl

theorem fcsFold_append (s : Acc) (m n : List Byte) :
    fcsFold s (m ++ n) = fcsFold (fcsFold s m) n := by
  simp [fcsFold]

@[simp] theorem fcsCheck_eq (s : Acc) : fcsCheck s = decide (s = Config.FCS_GOOD) := rfl

end Sys2Proof.Machine
end

