-- ==== Sys2Proof/Laws/Memory.lean ====
section
/-! SUPPORT. The laws of the byte spaces: read after write, what a sequence of writes, a group of
unspecified cells and the copy loop of `BUF.ERASE` leave in each cell, and that each keeps the canonical
form and its bound. -/

namespace Sys2Proof.Machine

variable (sp : Config.Space)

/-! ### One cell -/

theorem Memory.lookup_write_same (m : Memory) (x : Nat) (v : Byte) :
    (m.write x v).lookup x = some v := by
  induction m with
  | nil => simp [Memory.write, Memory.lookup]
  | cons c m ih =>
    obtain ⟨a, b⟩ := c
    simp only [Memory.write]
    split
    · simp [Memory.lookup]
    · split
      · simp [Memory.lookup]
      · rename_i h
        simp [Memory.lookup, ih, Ne.symm h]

theorem Memory.lookup_write_other (m : Memory) (x y : Nat) (v : Byte) (h : y ≠ x) :
    (m.write x v).lookup y = m.lookup y := by
  induction m with
  | nil => simp [Memory.write, Memory.lookup, h.symm]
  | cons c m ih =>
    obtain ⟨a, b⟩ := c
    simp only [Memory.write]
    split
    · simp [Memory.lookup, h.symm]
    · split
      · rename_i hx
        subst hx
        simp [Memory.lookup, h.symm]
      · simp [Memory.lookup, ih]

@[simp] theorem Memory.read_write_same (m : Memory) (x : Nat) (v : Byte) :
    (m.write x v).read sp x = v := by
  simp [Memory.read, Memory.lookup_write_same]

theorem Memory.read_write_other (m : Memory) (x y : Nat) (v : Byte) (h : y ≠ x) :
    (m.write x v).read sp y = m.read sp y := by
  simp [Memory.read, Memory.lookup_write_other m x y v h]

theorem Memory.read_write (m : Memory) (x y : Nat) (v : Byte) :
    (m.write x v).read sp y = if y = x then v else m.read sp y := by
  split
  · subst_vars; simp
  · exact Memory.read_write_other sp m x y v ‹_›

/-! ### Sequences of cells -/

@[simp] theorem Memory.length_readAll (m : Memory) (base count : Nat) :
    (m.readAll sp base count).length = count := by
  induction count generalizing base with
  | zero => rfl
  | succ n ih => simp [Memory.readAll, ih]

theorem Memory.getElem_readAll (m : Memory) (base count j : Nat) (h : j < count) :
    (m.readAll sp base count)[j]'(by simpa using h) = m.read sp (base + j) := by
  induction count generalizing base j with
  | zero => omega
  | succ n ih =>
    cases j with
    | zero => simp [Memory.readAll]
    | succ j =>
      simp only [Memory.readAll, List.getElem_cons_succ]
      rw [ih (base + 1) j (by omega)]
      congr 1
      omega

/-- Two reads of as many cells agree where the cells agree. -/
theorem Memory.readAll_congr (m m' : Memory) (base base' count : Nat)
    (h : ∀ j < count, m.read sp (base + j) = m'.read sp (base' + j)) :
    m.readAll sp base count = m'.readAll sp base' count := by
  apply List.ext_getElem (by simp)
  intro j h1 h2
  rw [Memory.length_readAll] at h1
  rw [Memory.getElem_readAll sp m base count j h1, Memory.getElem_readAll sp m' base' count j h1]
  exact h j h1

theorem Memory.readAll_append (m : Memory) (base a b : Nat) :
    m.readAll sp base (a + b) = m.readAll sp base a ++ m.readAll sp (base + a) b := by
  induction a generalizing base with
  | zero => simp [Memory.readAll]
  | succ a ih =>
    rw [Nat.succ_add, Memory.readAll, Memory.readAll, ih, List.cons_append]
    congr 3
    omega

theorem Memory.drop_readAll (m : Memory) (base count k : Nat) (h : k ≤ count) :
    (m.readAll sp base count).drop k = m.readAll sp (base + k) (count - k) := by
  obtain ⟨c, rfl⟩ := Nat.exists_eq_add_of_le h
  rw [Memory.readAll_append, List.drop_left' (by simp)]
  congr 1
  omega

theorem Memory.read_writeAll_outside (m : Memory) (base x : Nat) (bs : List Byte)
    (h : x < base ∨ base + bs.length ≤ x) : (m.writeAll base bs).read sp x = m.read sp x := by
  induction bs generalizing m base with
  | nil => rfl
  | cons b bs ih =>
    simp only [List.length_cons] at h
    rw [Memory.writeAll, ih _ _ (by omega), Memory.read_write_other _ _ _ _ _ (by omega)]

theorem Memory.read_writeAll_inside (m : Memory) (base j : Nat) (bs : List Byte) (h : j < bs.length) :
    (m.writeAll base bs).read sp (base + j) = bs[j] := by
  induction bs generalizing m base j with
  | nil => simp at h
  | cons b bs ih =>
    cases j with
    | zero =>
      rw [Memory.writeAll, Memory.read_writeAll_outside _ _ _ _ _ (by omega)]
      simp
    | succ j =>
      rw [Memory.writeAll, show base + (j + 1) = base + 1 + j by omega, ih _ _ _ (by simpa using h)]
      rfl

theorem Memory.readAll_writeAll (m : Memory) (base : Nat) (bs : List Byte) :
    (m.writeAll base bs).readAll sp base bs.length = bs := by
  apply List.ext_getElem (by simp)
  intro j h1 h2
  rw [Memory.getElem_readAll _ _ _ _ _ h2, Memory.read_writeAll_inside _ _ _ _ _ h2]

theorem Memory.lookup_unspecify_outside (d : Nat) (m : Memory) (lo count x : Nat)
    (h : x < lo ∨ lo + count ≤ x) : (m.unspecify d lo count).lookup x = m.lookup x := by
  induction count generalizing m lo with
  | zero => rfl
  | succ n ih =>
    rw [Memory.unspecify, ih _ _ (by omega), Memory.lookup_write_other _ _ _ _ (by omega)]

theorem Memory.read_unspecify_outside (d : Nat) (m : Memory) (lo count x : Nat)
    (h : x < lo ∨ lo + count ≤ x) : (m.unspecify d lo count).read sp x = m.read sp x := by
  simp [Memory.read, Memory.lookup_unspecify_outside d m lo count x h]

/-- The copy loop: each cell of the range takes the old value `k` cells above it, every other cell
keeps its own. -/
theorem Memory.read_copyDown (k : Nat) (m : Memory) (j count x : Nat) :
    (m.copyDown sp k j count).read sp x =
      if j ≤ x ∧ x < j + count then m.read sp (x + k) else m.read sp x := by
  induction count generalizing m j with
  | zero => rw [if_neg (by omega)]; rfl
  | succ n ih =>
    rw [Memory.copyDown, ih]
    by_cases hx : x = j
    · subst hx
      rw [if_neg (by omega), if_pos (by omega)]
      simp
    · rw [Memory.read_write_other _ _ _ x _ hx]
      by_cases hr : j + 1 ≤ x ∧ x < j + 1 + n
      · rw [if_pos hr, if_pos (by omega), Memory.read_write_other _ _ _ _ _ (by omega)]
      · rw [if_neg hr, if_neg (by omega)]

/-! ### The canonical form and its bound -/

theorem Memory.mem_write (m : Memory) (x : Nat) (v : Byte) (c : Host.Cell) (h : c ∈ m.write x v) :
    c = (x, v) ∨ c ∈ m := by
  induction m with
  | nil => simpa [Memory.write] using h
  | cons d m ih =>
    obtain ⟨a, b⟩ := d
    simp only [Memory.write] at h
    split at h
    · simpa using h
    · split at h
      · simp only [List.mem_cons] at h ⊢
        tauto
      · simp only [List.mem_cons] at h ⊢
        rcases h with h | h
        · tauto
        · rcases ih h with h | h <;> tauto

theorem Memory.write_wf (m : Memory) (x : Nat) (v : Byte) (h : m.wf) : (m.write x v).wf := by
  induction m with
  | nil => simp [Memory.write, Memory.wf]
  | cons d m ih =>
    obtain ⟨a, b⟩ := d
    simp only [Memory.wf, List.map_cons, List.pairwise_cons, List.mem_map] at h ih
    simp only [Memory.write]
    split
    · rename_i hx
      simp only [Memory.wf, List.map_cons, List.pairwise_cons, List.mem_cons, List.mem_map]
      refine ⟨?_, h⟩
      rintro y (rfl | hy)
      · exact hx
      · exact Nat.lt_trans hx (h.1 y hy)
    · split
      · rename_i hx
        subst hx
        simpa only [Memory.wf, List.map_cons, List.pairwise_cons, List.mem_map] using h
      · simp only [Memory.wf, List.map_cons, List.pairwise_cons, List.mem_map]
        refine ⟨?_, ih h.2⟩
        rintro y ⟨c, hc, rfl⟩
        rcases Memory.mem_write m x v c hc with rfl | hc
        · simp only; omega
        · exact h.1 _ ⟨c, hc, rfl⟩

theorem Memory.writeAll_wf (m : Memory) (base : Nat) (bs : List Byte) (h : m.wf) :
    (m.writeAll base bs).wf := by
  induction bs generalizing m base with
  | nil => exact h
  | cons b bs ih => exact ih _ _ (Memory.write_wf _ _ _ h)

theorem Memory.unspecify_wf (d : Nat) (m : Memory) (lo count : Nat) (h : m.wf) :
    (m.unspecify d lo count).wf := by
  induction count generalizing m lo with
  | zero => exact h
  | succ n ih => exact ih _ _ (Memory.write_wf _ _ _ h)

theorem Memory.copyDown_wf (k : Nat) (m : Memory) (j count : Nat) (h : m.wf) :
    (m.copyDown sp k j count).wf := by
  induction count generalizing m j with
  | zero => exact h
  | succ n ih => exact ih _ _ (Memory.write_wf _ _ _ h)

/-- Every cell something has written lies below `cap`. -/
abbrev Memory.below (cap : Nat) (m : Memory) : Prop := ∀ c ∈ m, c.1 < cap

theorem Memory.write_below (cap : Nat) (m : Memory) (x : Nat) (v : Byte) (h : m.below cap)
    (hx : x < cap) : (m.write x v).below cap := by
  intro c hc
  rcases Memory.mem_write m x v c hc with rfl | hc
  · exact hx
  · exact h c hc

theorem Memory.unspecify_below (cap d : Nat) (m : Memory) (lo count : Nat) (h : m.below cap)
    (hx : lo + count ≤ cap) : (m.unspecify d lo count).below cap := by
  induction count generalizing m lo with
  | zero => exact h
  | succ n ih => exact ih _ _ (Memory.write_below _ _ _ _ h (by omega)) (by omega)

theorem Memory.copyDown_below (cap k : Nat) (m : Memory) (j count : Nat) (h : m.below cap)
    (hx : j + count ≤ cap) : (m.copyDown sp k j count).below cap := by
  induction count generalizing m j with
  | zero => exact h
  | succ n ih => exact ih _ _ (Memory.write_below _ _ _ _ h (by omega)) (by omega)

end Sys2Proof.Machine
end

