-- ==== Sys2Proof/Laws/Encode.lean ====
section
/-! SUPPORT. The frame encoder: what each pushing operation can do, said once, and the whole algorithm of
R132 as one equation. -/

namespace Sys2Proof.Machine

/-- A push sequence succeeds exactly when all of it fits, and then appends it (R132, R134). -/
theorem Enc.pushAll_eq (ocap : Nat) (bs : List Byte) (e : Enc) (h : e.n ≤ ocap) :
    e.pushAll ocap bs =
      if e.n + bs.length ≤ ocap then some { e with bytes := e.bytes ++ bs } else none := by
  induction bs generalizing e with
  | nil => simp [Enc.pushAll, h]
  | cons b bs ih =>
    simp only [Enc.pushAll, Enc.push]
    by_cases hn : e.n = ocap
    · rw [if_pos hn, if_neg (by simp only [List.length_cons]; omega)]; rfl
    · rw [if_neg hn, Option.bind_some, ih _ (by simp only [Enc.n, List.length_append] at h hn ⊢; simp; omega)]
      simp only [Enc.n, List.length_append, List.length_cons, List.length_nil, List.append_assoc,
        List.cons_append, List.nil_append, Nat.zero_add]
      simp only [Nat.add_assoc, Nat.add_comm 1]

theorem Enc.push_eq (ocap : Nat) (b : Byte) (e : Enc) (h : e.n ≤ ocap) :
    e.push ocap b = if e.n + 1 ≤ ocap then some { e with bytes := e.bytes ++ [b] } else none := by
  unfold Enc.push
  by_cases hn : e.n = ocap
  · rw [if_pos hn, if_neg (by omega)]
  · rw [if_neg hn, if_pos (by omega)]

/-- Covered bytes: each goes into the FCS unescaped and into the sink escaped (R126, R132). -/
theorem Enc.coverAll_eq (ocap : Nat) (bs : List Byte) (e : Enc) (h : e.n ≤ ocap) :
    e.coverAll ocap bs =
      if e.n + (bs.flatMap escEnc).length ≤ ocap then
        some { fcs := fcsFold e.fcs bs, bytes := e.bytes ++ bs.flatMap escEnc }
      else none := by
  induction bs generalizing e with
  | nil => simp [Enc.coverAll, h]
  | cons b bs ih =>
    simp only [Enc.coverAll, Enc.cover, Enc.emit]
    rw [Enc.pushAll_eq _ _ _ (by exact h)]
    simp only [Enc.n, List.flatMap_cons, List.length_append] at h ⊢
    by_cases hn : e.bytes.length + (escEnc b).length ≤ ocap
    · rw [if_pos hn, Option.bind_some, ih _ (by simpa [Enc.n] using hn)]
      simp only [Enc.n, List.length_append, fcsFold_cons, List.append_assoc, Nat.add_assoc]
    · rw [if_neg hn, if_neg (by omega)]; rfl

/-- `cover` is `coverAll` of one byte. -/
theorem Enc.cover_eq (ocap : Nat) (b : Byte) (e : Enc) : e.cover ocap b = e.coverAll ocap [b] := by
  simp only [Enc.coverAll]
  cases e.cover ocap b <;> rfl

theorem Enc.coverAll_append (ocap : Nat) (bs cs : List Byte) (e : Enc) :
    e.coverAll ocap (bs ++ cs) = (e.coverAll ocap bs).bind (Enc.coverAll ocap cs) := by
  induction bs generalizing e with
  | nil => rfl
  | cons b bs ih =>
    simp only [List.cons_append, Enc.coverAll]
    cases e.cover ocap b with
    | none => rfl
    | some e => exact ih e

/-- The FCS bytes and the closing Flag are pushed without being covered (R132). -/
theorem Enc.trailer_eq (ocap : Nat) (e : Enc) :
    (e.trailer ocap).bind (Enc.push ocap Config.FLAG) =
      e.pushAll ocap
        (escEnc (fcsFinal e.fcs).1 ++ escEnc (fcsFinal e.fcs).2 ++ [Config.FLAG]) := by
  have app : ∀ (bs cs : List Byte) (e : Enc),
      e.pushAll ocap (bs ++ cs) = (e.pushAll ocap bs).bind (Enc.pushAll ocap cs) := by
    intro bs cs
    induction bs with
    | nil => intro e; rfl
    | cons b bs ih =>
      intro e
      simp only [List.cons_append, Enc.pushAll]
      cases e.push ocap b with
      | none => rfl
      | some e => exact ih e
  have one : ∀ e : Enc, e.pushAll ocap [Config.FLAG] = e.push ocap Config.FLAG := by
    intro e
    simp only [Enc.pushAll]
    cases e.push ocap Config.FLAG <;> rfl
  rw [app, app]
  simp only [Enc.trailer, Enc.emit]
  congr 1
  funext e
  exact (one e).symm

/-- The pushes of R132 in order are the opening Flag, the covered bytes, and the rest. -/
theorem frameEncode_steps (addr : Byte) (k : Kind) (q : Seq) (p : List Byte) (ocap : Nat)
    (hk : k = .data → p ≠ []) :
    frameEncode addr k q p ocap =
      (((Enc.start.push ocap Config.FLAG).bind
        (Enc.coverAll ocap (addr :: ctlEnc k q :: payloadOf k p))).bind fun e =>
          ((e.trailer ocap).bind (Enc.push ocap Config.FLAG)).map Enc.bytes) := by
  unfold frameEncode
  rw [if_neg (fun h => hk h.1 h.2)]
  simp only [Enc.coverAll]
  cases Enc.start.push ocap Config.FLAG with
  | none => rfl
  | some e =>
    simp only [Option.bind_eq_bind, Option.bind_some]
    cases e.cover ocap addr with
    | none => rfl
    | some e =>
      simp only [Option.bind_some]
      cases e.cover ocap (ctlEnc k q) with
      | none => rfl
      | some e =>
        simp only [Option.bind_some]
        cases e.coverAll ocap (payloadOf k p) with
        | none => rfl
        | some e =>
          simp only [Option.bind_some]
          cases e.trailer ocap with
          | none => rfl
          | some e =>
            simp only [Option.bind_some]
            cases e.push ocap Config.FLAG <;> rfl

/-- The whole algorithm of R132: the frame when it fits and a Data frame has a payload. -/
theorem frameEncode_eq (addr : Byte) (k : Kind) (q : Seq) (p : List Byte) (ocap : Nat) :
    frameEncode addr k q p ocap =
      let m := addr :: ctlEnc k q :: payloadOf k p
      let t := fcsFinal (fcsFold Config.FCS_INIT m)
      let f := [Config.FLAG] ++ (m ++ [t.1, t.2]).flatMap escEnc ++ [Config.FLAG]
      if (k = .data → p ≠ []) ∧ f.length ≤ ocap then some f else none := by
  by_cases hk : k = .data → p ≠ []
  · rw [frameEncode_steps _ _ _ _ _ hk]
    generalize addr :: ctlEnc k q :: payloadOf k p = m
    have len : ∀ t : Byte × Byte,
        ([Config.FLAG] ++ (m ++ [t.1, t.2]).flatMap escEnc ++ [Config.FLAG]).length =
          1 + (m.flatMap escEnc).length + (escEnc t.1).length + (escEnc t.2).length + 1 := by
      intro t
      simp only [List.flatMap_append, List.flatMap_cons, List.flatMap_nil, List.append_nil,
        List.length_append, List.length_cons, List.length_nil]
      omega
    simp only [len]
    rw [Enc.push_eq _ _ _ (Nat.zero_le _)]
    split
    · rename_i h0
      rw [Option.bind_some, Enc.coverAll_eq _ _ _ (by simpa [Enc.n, Enc.start] using h0)]
      split
      · rename_i h1
        rw [Option.bind_some, Enc.trailer_eq,
          Enc.pushAll_eq _ _ _ (by simpa [Enc.n, Enc.start, Nat.add_comm] using h1)]
        simp only [Enc.n, Enc.start, List.length_append, List.length_cons, List.length_nil]
        split
        · rename_i h2
          rw [if_pos ⟨hk, by omega⟩]
          simp [List.append_assoc]
        · rename_i h2
          rw [if_neg (fun h => h2 (by omega))]
          rfl
      · rename_i h1
        simp only [Enc.n, Enc.start, List.length_append, List.length_cons, List.length_nil] at h1
        rw [if_neg (fun h => h1 (by omega))]
        rfl
    · rename_i h0
      simp only [Enc.n, Enc.start, List.length_nil] at h0
      rw [if_neg (fun h => h0 (by omega))]
      rfl
  · rw [if_neg (fun h => hk h.1)]
    unfold frameEncode
    push Not at hk
    rw [if_pos hk]

/-- No byte the escaper produces is a Flag (R123). -/
theorem flag_not_mem_escEnc (b : Byte) : Config.FLAG ∉ escEnc b := by
  unfold escEnc
  split
  · rename_i h
    rcases h with rfl | rfl <;> decide
  · rename_i h
    simp only [List.mem_singleton]
    exact fun e => h (Or.inl e.symm)

/-- What the escaper does to the length: one more byte for each reserved byte (R65, R121). -/
theorem length_flatMap_escEnc (m : List Byte) :
    (m.flatMap escEnc).length = m.length + (m.filter fun b => decide (isReserved b)).length := by
  induction m with
  | nil => rfl
  | cons b m ih =>
    rw [List.flatMap_cons, List.length_append, ih, List.length_cons, List.filter_cons]
    by_cases h : isReserved b
    · rw [if_pos (decide_eq_true h)]
      simp only [escEnc, if_pos h, List.length_cons, List.length_nil]
      omega
    · rw [if_neg (fun e => h (of_decide_eq_true e))]
      simp only [escEnc, if_neg h, List.length_cons, List.length_nil]
      omega

end Sys2Proof.Machine
end

