-- ==== Sys2Proof/Laws/Scan.lean ====
section
/-! SUPPORT. The frame scan: what each turn of R152's loop can do, the invariants every turn keeps, a scan
moved along the window, a window that grows, and the escaped bytes of a body. -/

namespace Sys2Proof.Machine

variable (dcap : Nat)

@[simp] theorem Scan.advance_frameStop (sc : Scan) : sc.advance.frameStop = sc.frameStop := rfl

/-! ### What a turn can do -/

/-- A byte that is consumed: the FCS takes it, and its position says where it goes (R156, R162). -/
theorem Scan.consume_cases (b : Byte) (sc : Scan) :
    (sc.pos = 0 ∧ sc.consume dcap b =
      .ok { sc with
        i := sc.i + 1, escapePending := false, fcs := fcsUpdate sc.fcs b, addr := some b, pos := 1 }) ∨
    (sc.pos = 1 ∧ sc.consume dcap b =
      .ok { sc with
        i := sc.i + 1, escapePending := false, fcs := fcsUpdate sc.fcs b
        kind := some (ctlDec b).1, seq := some (ctlDec b).2, pos := 2 }) ∨
    (2 ≤ sc.pos ∧ sc.cur ≠ dcap ∧ sc.consume dcap b =
      .ok { sc with
        i := sc.i + 1, escapePending := false, fcs := fcsUpdate sc.fcs b
        stored := sc.stored ++ [b], pos := sc.pos + 1 }) ∨
    (2 ≤ sc.pos ∧ sc.cur = dcap ∧ sc.consume dcap b = .error sc.i) := by
  unfold Scan.consume
  dsimp only
  by_cases h0 : sc.pos = 0
  · exact .inl ⟨h0, by rw [if_pos h0]; rfl⟩
  · by_cases h1 : sc.pos = 1
    · exact .inr (.inl ⟨h1, by rw [if_neg h0, if_pos h1]; rfl⟩)
    · by_cases h2 : sc.stored.length = dcap
      · exact .inr (.inr (.inr ⟨by omega, h2, by rw [if_neg h0, if_neg h1, if_pos h2]⟩))
      · exact .inr (.inr (.inl ⟨by omega, h2, by rw [if_neg h0, if_neg h1, if_neg h2]; rfl⟩))

/-- A Flag: filler before the frame, the opening Flag, filler inside it, or the closing Flag (R153,
R154). -/
theorem Scan.flag_cases (next : Bool) (sc : Scan) :
    (sc.frameStart = none ∧ next = true ∧ sc.flag next = { sc with i := sc.i + 1 }) ∨
    (sc.frameStart = none ∧ next = false ∧
      sc.flag next = { sc with i := sc.i + 1, frameStart := some sc.i }) ∨
    (∃ start, sc.frameStart = some start ∧ (next = true ∨ sc.i = start + 1) ∧
      sc.flag next = { sc with i := sc.i + 1 }) ∨
    (∃ start, sc.frameStart = some start ∧ next = false ∧ sc.i ≠ start + 1 ∧
      sc.flag next = { sc with i := sc.i + 1, frameStop := some sc.i }) := by
  unfold Scan.flag
  cases hs : sc.frameStart with
  | none =>
    cases next
    · exact .inr (.inl ⟨rfl, rfl, rfl⟩)
    · exact .inl ⟨rfl, rfl, by simp [Scan.advance, hs]⟩
  | some start =>
    dsimp only
    by_cases h : next || sc.i == start + 1
    · rw [if_pos h]
      exact .inr (.inr (.inl ⟨start, rfl, by simpa using h, by simp [Scan.advance, hs]⟩))
    · rw [if_neg h]
      simp only [Bool.or_eq_true, beq_iff_eq, not_or, Bool.not_eq_true] at h
      exact .inr (.inr (.inr ⟨start, rfl, h.1, h.2, by simp [Scan.advance]⟩))

/-- An Escape: skipped before the opening Flag, otherwise the pending escape is set (R155, R166). -/
theorem Scan.escape_cases (sc : Scan) :
    (sc.frameStart = none ∧ sc.escape = { sc with i := sc.i + 1 }) ∨
    (∃ start, sc.frameStart = some start ∧
      sc.escape = { sc with i := sc.i + 1, escapePending := true }) := by
  unfold Scan.escape
  cases hs : sc.frameStart with
  | none => exact .inl ⟨rfl, by simp [Scan.advance, hs]⟩
  | some start => exact .inr ⟨start, rfl, by simp [Scan.advance]⟩

/-! ### The invariants -/

theorem Scan.start_inv : Scan.start.Inv dcap := by
  constructor <;> simp [Scan.start, Scan.cur]

theorem Scan.Inv.flag {dcap : Nat} {sc : Scan} (h : sc.Inv dcap) (next : Bool) :
    (sc.flag next).frameStop.isSome = true ∨ (sc.flag next).Inv dcap := by
  have hb := h.startBefore
  have hp := h.posBound
  rcases Scan.flag_cases next sc with ⟨hs, -, e⟩ | ⟨hs, -, e⟩ | ⟨st, hs, -, e⟩ | ⟨st, hs, -, -, e⟩ <;> rw [e]
  · exact .inr { h with
      startBefore := fun x hx => Nat.lt_succ_of_lt (hb x hx), posBound := Nat.le_succ_of_le hp }
  · refine .inr { h with startBefore := ?_, nothingConsumed := ?_, posBound := Nat.le_succ_of_le hp }
    · rintro x ⟨⟩; exact Nat.lt_succ_self _
    · exact fun hx => nomatch hx
  · exact .inr { h with
      startBefore := fun x hx => Nat.lt_succ_of_lt (hb x hx), posBound := Nat.le_succ_of_le hp }
  · exact .inl rfl

theorem Scan.Inv.escape {dcap : Nat} {sc : Scan} (h : sc.Inv dcap) : sc.escape.Inv dcap := by
  have hb := h.startBefore
  have hp := h.posBound
  rcases Scan.escape_cases sc with ⟨hs, e⟩ | ⟨st, hs, e⟩ <;> rw [e]
  · exact { h with
      startBefore := fun x hx => Nat.lt_succ_of_lt (hb x hx), posBound := Nat.le_succ_of_le hp }
  · exact { h with
      startBefore := fun x hx => Nat.lt_succ_of_lt (hb x hx), posBound := Nat.le_succ_of_le hp
      nothingConsumed := fun hx => by rw [hs] at hx; exact nomatch hx }

theorem Scan.Inv.consume {dcap : Nat} {sc sc' : Scan} (h : sc.Inv dcap) (hs : sc.frameStart.isSome)
    (b : Byte) (e : sc.consume dcap b = .ok sc') : sc'.Inv dcap := by
  have hb := h.startBefore
  have hp := h.posBound
  have hc := h.cursor
  have hw := h.within
  have open' : ∀ {P : Prop}, sc.frameStart = none → P := fun hx => by rw [hx] at hs; exact nomatch hs
  simp only [Scan.cur] at hc hw
  rcases Scan.consume_cases dcap b sc with ⟨p, e'⟩ | ⟨p, e'⟩ | ⟨p, p', e'⟩ | ⟨p, p', e'⟩ <;>
    rw [e'] at e <;> cases e
  · exact { h with
      startBefore := fun x hx => Nat.lt_succ_of_lt (hb x hx)
      nothingConsumed := open'
      addrHeld := rfl
      kindHeld := by rw [h.kindHeld, p]; rfl
      seqHeld := by rw [h.seqHeld, p]; rfl
      cursor := by simp only [Scan.cur]; omega
      posBound := by simp only; omega }
  · exact { h with
      startBefore := fun x hx => Nat.lt_succ_of_lt (hb x hx)
      nothingConsumed := open'
      addrHeld := by rw [h.addrHeld, p]; rfl
      kindHeld := rfl
      seqHeld := rfl
      cursor := by simp only [Scan.cur]; omega
      posBound := by simp only; omega }
  · exact { h with
      startBefore := fun x hx => Nat.lt_succ_of_lt (hb x hx)
      nothingConsumed := open'
      addrHeld := by rw [h.addrHeld]; congr 1; simp only [eq_iff_iff]; omega
      kindHeld := by rw [h.kindHeld]; congr 1; simp only [eq_iff_iff]; omega
      seqHeld := by rw [h.seqHeld]; congr 1; simp only [eq_iff_iff]; omega
      cursor := by simp only [Scan.cur, List.length_append, List.length_cons, List.length_nil]; omega
      within := by
        simp only [Scan.cur, List.length_append, List.length_cons, List.length_nil] at p' ⊢; omega
      posBound := by simp only; omega }

theorem Scan.Inv.unescaped {dcap : Nat} {sc sc' : Scan} (h : sc.Inv dcap) (b : Byte)
    (e : sc.unescaped dcap b = .ok sc') : sc'.Inv dcap := by
  unfold Scan.unescaped at e
  split at e
  · cases e
    exact { h with
      startBefore := fun x hx => Nat.lt_succ_of_lt (h.startBefore x hx)
      posBound := Nat.le_succ_of_le h.posBound }
  · rename_i st hs
    exact h.consume (by rw [hs]; rfl) b e

/-- Every turn keeps the registers' invariant until the closing Flag is found. -/
theorem Scan.Inv.turn {dcap : Nat} {sc sc' : Scan} (h : sc.Inv dcap) (b : Byte) (next : Bool)
    (e : sc.turn dcap b next = .ok sc') : sc'.frameStop.isSome = true ∨ sc'.Inv dcap := by
  unfold Scan.turn at e
  split at e
  · cases e; exact h.flag next
  · split at e
    · cases e; exact .inr h.escape
    · exact .inr (h.unescaped _ e)

/-! ### A scan moved along the window -/

/-- The registers with every index `n` higher. -/
def Scan.shift (n : Nat) (sc : Scan) : Scan :=
  { sc with
    i := sc.i + n
    frameStart := sc.frameStart.map (· + n)
    frameStop := sc.frameStop.map (· + n) }

theorem Scan.consume_shift (n : Nat) (b : Byte) (sc : Scan) :
    (sc.shift n).consume dcap b =
      match sc.consume dcap b with
      | .ok sc' => .ok (sc'.shift n)
      | .error i => .error (i + n) := by
  have hp : (sc.shift n).pos = sc.pos := rfl
  have hc : (sc.shift n).cur = sc.cur := rfl
  rcases Scan.consume_cases dcap b sc with ⟨p, e⟩ | ⟨p, e⟩ | ⟨p, c, e⟩ | ⟨p, c, e⟩ <;>
    rcases Scan.consume_cases dcap b (sc.shift n) with ⟨p', e'⟩ | ⟨p', e'⟩ | ⟨p', c', e'⟩ | ⟨p', c', e'⟩ <;>
    first
    | omega
    | (rw [e, e']; simp only [Scan.shift, Nat.add_right_comm])

theorem Scan.turn_shift (n : Nat) (b : Byte) (next : Bool) (sc : Scan) :
    (sc.shift n).turn dcap b next =
      match sc.turn dcap b next with
      | .ok sc' => .ok (sc'.shift n)
      | .error i => .error (i + n) := by
  obtain ⟨i, fs, fe, ep, f, st, p, a, k, q⟩ := sc
  simp only [Scan.turn]
  by_cases h1 : b = Config.FLAG
  · rw [if_pos h1, if_pos h1]
    cases fs with
    | none =>
      cases next <;> simp [Scan.flag, Scan.shift, Scan.advance, Nat.add_right_comm]
    | some x =>
      have hx : (i + n = x + n + 1) = (i = x + 1) := by rw [eq_iff_iff]; omega
      cases next
      · by_cases hi : i = x + 1
        · simp [Scan.flag, Scan.shift, Scan.advance, hi, Nat.add_right_comm]
        · simp [Scan.flag, Scan.shift, Scan.advance, hx, hi, Nat.add_right_comm]
      · simp [Scan.flag, Scan.shift, Scan.advance, Nat.add_right_comm]
  · rw [if_neg h1, if_neg h1]
    by_cases h2 : b = Config.ESC
    · rw [if_pos h2, if_pos h2]
      cases fs <;> simp [Scan.escape, Scan.shift, Scan.advance, Nat.add_right_comm]
    · rw [if_neg h2, if_neg h2]
      cases fs with
      | none => simp [Scan.plain, Scan.unescaped, Scan.shift, Scan.advance, Nat.add_right_comm]
      | some x =>
        exact Scan.consume_shift dcap n (unescape ep b) ⟨i, some x, fe, ep, f, st, p, a, k, q⟩

theorem Scan.run_shift (n : Nat) (w : List Byte) (sc : Scan) :
    Scan.run dcap w (sc.shift n) =
      match Scan.run dcap w sc with
      | .ok sc' => .ok (sc'.shift n)
      | .error i => .error (i + n) := by
  induction w generalizing sc with
  | nil => rfl
  | cons b w ih =>
    simp only [Scan.run, Scan.turn_shift]
    cases sc.turn dcap b (nextIsFlag w) with
    | error i => rfl
    | ok sc' =>
      simp only
      have : (sc'.shift n).frameStop.isSome = sc'.frameStop.isSome := by
        simp [Scan.shift]
      rw [this]
      split
      · rfl
      · exact ih sc'

/-! ### A window that grows -/

/-- Every turn moves the scan index on by one. -/
theorem Scan.turn_i {b : Byte} {next : Bool} {sc sc' : Scan} (e : sc.turn dcap b next = .ok sc') :
    sc'.i = sc.i + 1 := by
  unfold Scan.turn at e
  split at e
  · cases e
    rcases Scan.flag_cases next sc with ⟨-, -, e⟩ | ⟨-, -, e⟩ | ⟨_, -, -, e⟩ | ⟨_, -, -, -, e⟩ <;> rw [e]
  · split at e
    · cases e
      rcases Scan.escape_cases sc with ⟨-, e⟩ | ⟨_, -, e⟩ <;> rw [e]
    · unfold Scan.plain Scan.unescaped at e
      split at e
      · cases e; rfl
      · rcases Scan.consume_cases dcap (unescape sc.escapePending b) sc with
          ⟨-, e'⟩ | ⟨-, e'⟩ | ⟨-, -, e'⟩ | ⟨-, -, e'⟩ <;> rw [e'] at e <;> cases e <;> rfl

/-- A turn stops the scan only on a Flag that no Flag follows, at the scan index. -/
theorem Scan.turn_stop {b : Byte} {next : Bool} {sc sc' : Scan} (h : sc.frameStop = none)
    (e : sc.turn dcap b next = .ok sc') :
    sc'.frameStop = none ∨
      (sc'.frameStop = some sc.i ∧ b = Config.FLAG ∧ next = false ∧
        ∃ start, sc.frameStart = some start ∧ sc' = { sc with i := sc.i + 1, frameStop := some sc.i }) := by
  unfold Scan.turn at e
  split at e
  · rename_i hb
    cases e
    rcases Scan.flag_cases next sc with ⟨-, -, e⟩ | ⟨-, -, e⟩ | ⟨_, -, -, e⟩ | ⟨st, hs, hn, -, e⟩ <;> rw [e]
    · exact .inl h
    · exact .inl h
    · exact .inl h
    · exact .inr ⟨rfl, hb, hn, st, hs, rfl⟩
  · split at e
    · cases e
      rcases Scan.escape_cases sc with ⟨-, e⟩ | ⟨_, -, e⟩ <;> rw [e] <;> exact .inl h
    · left
      unfold Scan.plain Scan.unescaped at e
      split at e
      · cases e; exact h
      · rcases Scan.consume_cases dcap (unescape sc.escapePending b) sc with
          ⟨-, e'⟩ | ⟨-, e'⟩ | ⟨-, -, e'⟩ | ⟨-, -, e'⟩ <;> rw [e'] at e <;> cases e <;> exact h

/-- A scan that found its closing Flag found a Flag of the window at the stop index. -/
theorem Scan.run_stop {w : List Byte} {sc sc' : Scan} {stop : Nat} (h : sc.frameStop = none)
    (e : Scan.run dcap w sc = .ok sc') (hs : sc'.frameStop = some stop) :
    sc.i ≤ stop ∧ stop < sc.i + w.length ∧ w[stop - sc.i]? = some Config.FLAG := by
  induction w generalizing sc with
  | nil => cases e; rw [h] at hs; exact nomatch hs
  | cons b w ih =>
    simp only [Scan.run] at e
    cases ht : sc.turn dcap b (nextIsFlag w) with
    | error i => rw [ht] at e; exact nomatch e
    | ok s1 =>
      rw [ht] at e
      simp only at e
      have hi := Scan.turn_i dcap ht
      rcases Scan.turn_stop dcap h ht with hn | ⟨hn, hb, -, -⟩
      · rw [hn] at e
        have := ih hn e
        rw [hi] at this
        refine ⟨by omega, by simp only [List.length_cons]; omega, ?_⟩
        rw [show stop - sc.i = (stop - (sc.i + 1)) + 1 by omega, List.getElem?_cons_succ]
        exact this.2.2
      · rw [hn] at e
        cases e
        rw [hn] at hs
        cases hs
        simp [hb]

/-- The look-ahead does not change when the window grows behind it. -/
theorem nextIsFlag_append (w x : List Byte) (h : w ≠ [] ∨ nextIsFlag x = false) :
    nextIsFlag (w ++ x) = nextIsFlag w := by
  cases w with
  | nil => simpa [nextIsFlag] using h
  | cons b w => rfl

/-- Stability (R171): once the closing Flag is found, bytes behind it change nothing, unless it was the last
byte and a Flag follows. -/
theorem Scan.run_append {w x : List Byte} {sc sc' : Scan} {stop : Nat} (h : sc.frameStop = none)
    (e : Scan.run dcap w sc = .ok sc') (hs : sc'.frameStop = some stop)
    (hx : stop + 1 < sc.i + w.length ∨ nextIsFlag x = false) :
    Scan.run dcap (w ++ x) sc = .ok sc' := by
  induction w generalizing sc with
  | nil => cases e; rw [h] at hs; exact nomatch hs
  | cons b w ih =>
    simp only [Scan.run, List.cons_append] at e ⊢
    have hstop := Scan.run_stop dcap (w := b :: w) h (by simpa only [Scan.run] using e) hs
    have hnext : nextIsFlag (w ++ x) = nextIsFlag w := by
      apply nextIsFlag_append
      rcases hx with hx | hx
      · left
        rintro rfl
        simp only [List.length_cons, List.length_nil] at hx hstop
        omega
      · exact .inr hx
    rw [hnext]
    cases ht : sc.turn dcap b (nextIsFlag w) with
    | error i => rw [ht] at e; exact nomatch e
    | ok s1 =>
      rw [ht] at e
      simp only at e ⊢
      have hi := Scan.turn_i dcap ht
      rcases Scan.turn_stop dcap h ht with hn | ⟨hn, -, -, -⟩
      · simp only [hn, Option.isSome_none, Bool.false_eq_true, if_false] at e ⊢
        exact ih hn e (by rw [hi]; simp only [List.length_cons] at hx; rcases hx with hx | hx; exact .inl (by omega); exact .inr hx)
      · simp only [hn, Option.isSome_some, if_true] at e ⊢
        exact e

/-! ### The escaped bytes of a body -/

/-- One body byte in its escaped form is consumed whole, whatever follows (R123, R155). -/
theorem Scan.run_escEnc {start : Nat} {sc : Scan} (hs : sc.frameStart = some start)
    (he : sc.frameStop = none) (hp : sc.escapePending = false) (b : Byte) (w : List Byte) :
    Scan.run dcap (escEnc b ++ w) sc =
      match ({ sc with i := sc.i + ((escEnc b).length - 1) } : Scan).consume dcap b with
      | .ok sc' => Scan.run dcap w sc'
      | .error i => .error i := by
  have last : ∀ (c : Byte) (sc : Scan), c ≠ Config.FLAG → c ≠ Config.ESC →
      sc.frameStart = some start → sc.frameStop = none →
      Scan.run dcap (c :: w) sc =
        match sc.consume dcap (unescape sc.escapePending c) with
        | .ok sc' => Scan.run dcap w sc'
        | .error i => .error i := by
    intro c sc h1 h2 hs he
    simp only [Scan.run, Scan.turn, if_neg h1, if_neg h2, Scan.plain, Scan.unescaped, hs]
    rcases Scan.consume_cases dcap (unescape sc.escapePending c) sc with
      ⟨-, e'⟩ | ⟨-, e'⟩ | ⟨-, -, e'⟩ | ⟨-, -, e'⟩ <;> rw [e'] <;> simp [he]
  by_cases hb : isReserved b
  · have h1 : b ^^^ Config.ESC_MASK ≠ Config.FLAG := by rcases hb with rfl | rfl <;> decide
    have h2 : b ^^^ Config.ESC_MASK ≠ Config.ESC := by rcases hb with rfl | rfl <;> decide
    have h3 : unescape true (b ^^^ Config.ESC_MASK) = b := by
      rcases hb with rfl | rfl <;> decide
    simp only [escEnc, if_pos hb, List.cons_append, List.nil_append, List.length_cons, List.length_nil]
    rw [Scan.run, Scan.turn, if_neg (by decide), if_pos rfl]
    simp only [Scan.escape, hs, Scan.advance, he, Option.isSome_none, Bool.false_eq_true, if_false]
    rw [last _ _ h1 h2 rfl rfl]
    simp only [h3]
    obtain ⟨i, fs, fe, ep, f, st, p, a, k, q⟩ := sc
    simp only at hs he hp
    subst hs he hp
    rfl
  · have h1 : b ≠ Config.FLAG := fun e => hb (.inl e)
    have h2 : b ≠ Config.ESC := fun e => hb (.inr e)
    simp only [escEnc, if_neg hb, List.cons_append, List.nil_append, List.length_cons, List.length_nil]
    rw [last _ _ h1 h2 hs he, hp]
    rfl

/-- Payload and FCS bytes in their escaped form are stored in order (R156, R157). -/
theorem Scan.run_flatMap_escEnc {start : Nat} (bs : List Byte) (w : List Byte) (sc : Scan)
    (hs : sc.frameStart = some start) (he : sc.frameStop = none) (hp : sc.escapePending = false)
    (h2 : 2 ≤ sc.pos) (hd : sc.cur + bs.length ≤ dcap) :
    Scan.run dcap (bs.flatMap escEnc ++ w) sc =
      Scan.run dcap w
        { sc with
          i := sc.i + (bs.flatMap escEnc).length
          fcs := fcsFold sc.fcs bs
          stored := sc.stored ++ bs
          pos := sc.pos + bs.length } := by
  induction bs generalizing sc with
  | nil => simp
  | cons b bs ih =>
    rw [List.flatMap_cons, List.append_assoc, Scan.run_escEnc dcap hs he hp]
    simp only [List.length_cons] at hd
    have hl : 1 ≤ (escEnc b).length := by unfold escEnc; split <;> simp
    rcases Scan.consume_cases dcap b { sc with i := sc.i + ((escEnc b).length - 1) } with
      ⟨p, -⟩ | ⟨p, -⟩ | ⟨-, -, e⟩ | ⟨-, p, -⟩
    · simp only at p; omega
    · simp only at p; omega
    · rw [e]
      simp only
      rw [ih _ (by exact hs) (by exact he) rfl (by simp only; omega)
        (by simp only [Scan.cur, List.length_append, List.length_cons, List.length_nil] at hd ⊢; omega)]
      obtain ⟨i, fs, fe, ep, f, st, p, a, k, q⟩ := sc
      simp only at hp
      subst hp
      congr 1
      simp only [fcsFold_cons, List.append_assoc, List.cons_append, List.nil_append, List.length_append,
        List.length_cons, Scan.mk.injEq, and_true, true_and]
      omega
    · simp only [Scan.cur] at p hd; omega

/-! ### The parts of a window -/

/-- Bytes that are no Flag are skipped before the opening Flag (R166). -/
theorem Scan.run_junk (junk w : List Byte) (sc : Scan) (hj : Config.FLAG ∉ junk)
    (hs : sc.frameStart = none) (he : sc.frameStop = none) :
    Scan.run dcap (junk ++ w) sc = Scan.run dcap w { sc with i := sc.i + junk.length } := by
  induction junk generalizing sc with
  | nil => rfl
  | cons b junk ih =>
    simp only [List.mem_cons, not_or] at hj
    have skip : (if b = Config.ESC then (Except.ok sc.escape : Except Nat Scan) else sc.plain dcap b) =
        .ok sc.advance := by
      split
      · simp [Scan.escape, hs]
      · simp [Scan.plain, Scan.unescaped, hs]
    rw [List.cons_append, Scan.run, Scan.turn, if_neg (fun e => hj.1 e.symm), skip]
    simp only [Scan.advance_frameStop, he, Option.isSome_none, Bool.false_eq_true, if_false]
    rw [ih sc.advance hj.2 hs he]
    simp only [Scan.advance, he, List.length_cons, Nat.add_assoc, Nat.add_comm 1]

/-- The look-ahead in a run of Flags is a Flag. -/
theorem nextIsFlag_replicate (n : Nat) (w : List Byte) :
    nextIsFlag (List.replicate n Config.FLAG ++ Config.FLAG :: w) = true := by
  cases n <;> rfl

/-- Flags before the last of a run are filler: they only move the scan index (R153, R154). -/
theorem Scan.run_filler (n : Nat) (w : List Byte) (sc : Scan) (he : sc.frameStop = none) :
    Scan.run dcap (List.replicate n Config.FLAG ++ Config.FLAG :: w) sc =
      Scan.run dcap (Config.FLAG :: w) { sc with i := sc.i + n } := by
  induction n generalizing sc with
  | zero => rfl
  | succ n ih =>
    have skip : sc.flag true = sc.advance := by
      unfold Scan.flag
      cases sc.frameStart <;> rfl
    rw [List.replicate_succ, List.cons_append, Scan.run, Scan.turn, if_pos rfl,
      nextIsFlag_replicate n w, skip]
    simp only [Scan.advance_frameStop, he, Option.isSome_none, Bool.false_eq_true, if_false]
    rw [ih sc.advance he]
    simp only [Scan.advance, he, Nat.add_assoc, Nat.add_comm 1]

/-- The opening Flag (R153). -/
theorem Scan.run_open (w : List Byte) (h : nextIsFlag w = false) :
    Scan.run dcap (Config.FLAG :: w) Scan.start =
      Scan.run dcap w { Scan.start with i := 1, frameStart := some 0 } := by
  simp only [Scan.run, h]
  rfl

/-- The closing Flag ends the run (R154, R165). -/
theorem Scan.run_close {start : Nat} (w : List Byte) (sc : Scan) (h : nextIsFlag w = false)
    (hs : sc.frameStart = some start) (hi : sc.i ≠ start + 1) :
    Scan.run dcap (Config.FLAG :: w) sc =
      .ok { sc with i := sc.i + 1, frameStop := some sc.i } := by
  have stop : sc.flag false = { sc with i := sc.i + 1, frameStop := some sc.i } := by
    simp only [Scan.flag, hs, Bool.false_or, beq_iff_eq, if_neg hi, Scan.advance]
  simp only [Scan.run, Scan.turn, if_true, h, stop, Option.isSome_some]

theorem one_le_length_escEnc (b : Byte) : 1 ≤ (escEnc b).length := by
  unfold escEnc
  split <;> simp

/-- The body of a frame from behind its opening Flag on: an address, a control byte and the bytes that are
stored (R156, R157). -/
theorem Scan.run_body (a c : Byte) (bs w : List Byte) (hd : bs.length ≤ dcap) :
    Scan.run dcap ((a :: c :: bs).flatMap escEnc ++ w)
        { Scan.start with i := 1, frameStart := some 0 } =
      Scan.run dcap w
        { i := 1 + ((a :: c :: bs).flatMap escEnc).length
          frameStart := some 0
          frameStop := none
          escapePending := false
          fcs := fcsFold Config.FCS_INIT (a :: c :: bs)
          stored := bs
          pos := 2 + bs.length
          addr := some a
          kind := some (ctlDec c).1
          seq := some (ctlDec c).2 } := by
  have h1 := one_le_length_escEnc a
  have h2 := one_le_length_escEnc c
  rw [List.flatMap_cons, List.flatMap_cons, List.append_assoc, List.append_assoc,
    Scan.run_escEnc dcap (start := 0) rfl rfl rfl]
  simp only [Scan.consume, Scan.start, if_true, Scan.advance]
  rw [Scan.run_escEnc dcap (start := 0) rfl rfl rfl]
  simp only [Scan.consume, if_true, Scan.advance]
  rw [if_neg (by decide)]
  simp only
  rw [Scan.run_flatMap_escEnc dcap (start := 0) _ _ _ rfl rfl rfl (by simp)
    (by simpa [Scan.cur] using hd)]
  congr 1
  simp only [fcsFold_cons, List.nil_append, List.length_append, Scan.mk.injEq, and_true]
  omega

/-- The first byte the escaper produces is no Flag. -/
theorem nextIsFlag_escEnc (b : Byte) (w : List Byte) : nextIsFlag (escEnc b ++ w) = false := by
  unfold escEnc
  split
  · rfl
  · rename_i h
    simp only [List.cons_append, List.nil_append, nextIsFlag, beq_eq_false_iff_ne]
    exact fun e => h (.inl e)

/-- A window without a Flag ends no scan (R159). -/
theorem Scan.run_no_flag {w : List Byte} {sc sc' : Scan} (hw : Config.FLAG ∉ w)
    (he : sc.frameStop = none) (e : Scan.run dcap w sc = .ok sc') : sc'.frameStop = none := by
  cases hs : sc'.frameStop with
  | none => rfl
  | some stop =>
    have := (Scan.run_stop dcap he e hs).2.2
    exact absurd (List.mem_of_getElem? this) hw

/-! ### What a scan has consumed -/

/-- The accumulator is that of the bytes consumed, and kind and sequence number are those of the control byte
among them (R108, R156, R157). -/
structure Scan.Content (sc : Scan) : Prop where
  atAddress : sc.pos = 0 → sc.fcs = Config.FCS_INIT
  atControl : sc.pos = 1 → ∃ a, sc.addr = some a ∧ sc.fcs = fcsFold Config.FCS_INIT [a]
  inPayload : 2 ≤ sc.pos → ∃ a c, sc.addr = some a ∧ sc.kind = some (ctlDec c).1 ∧
    sc.seq = some (ctlDec c).2 ∧ sc.fcs = fcsFold Config.FCS_INIT (a :: c :: sc.stored)
  behindFlag : ∀ start, sc.frameStart = some start → start + 1 + sc.pos ≤ sc.i

theorem Scan.start_content : Scan.start.Content := by
  constructor <;> simp [Scan.start]

theorem Scan.Content.consume {dcap : Nat} {sc sc' : Scan} (h : sc.Content) (hi : sc.Inv dcap) (b : Byte)
    (e : sc.consume dcap b = .ok sc') : sc'.Content := by
  have hg := h.behindFlag
  rcases Scan.consume_cases dcap b sc with ⟨p, e'⟩ | ⟨p, e'⟩ | ⟨p, p', e'⟩ | ⟨p, p', e'⟩ <;>
    rw [e'] at e <;> cases e
  · refine ⟨nofun, fun _ => ⟨b, rfl, by rw [h.atAddress p]; rfl⟩, fun x => absurd x (by simp), ?_⟩
    intro st hs
    have := hg st hs
    simp only
    omega
  · refine ⟨nofun, nofun, fun _ => ?_, ?_⟩
    · obtain ⟨a, ha, hf⟩ := h.atControl p
      have hs : sc.stored = [] := by
        have := hi.cursor
        rw [p] at this
        exact List.length_eq_zero_iff.1 this
      refine ⟨a, b, ha, rfl, rfl, ?_⟩
      simp only [hf, hs]
      rfl
    · intro st hs
      have := hg st hs
      simp only
      omega
  · refine ⟨fun x => absurd x (by simp), fun x => absurd x (by simp only; omega), fun _ => ?_, ?_⟩
    · obtain ⟨a, c, h1, h2, h3, h4⟩ := h.inPayload p
      refine ⟨a, c, h1, h2, h3, ?_⟩
      simp only [h4]
      rw [← List.cons_append, ← List.cons_append, fcsFold_append]
      rfl
    · intro st hs
      have := hg st hs
      simp only
      omega

/-- Every turn keeps what the registers say of the bytes consumed; a closing Flag is found behind them. -/
theorem Scan.Content.turn {dcap : Nat} {sc sc' : Scan} (h : sc.Content) (hi : sc.Inv dcap) (b : Byte)
    (next : Bool) (e : sc.turn dcap b next = .ok sc') :
    sc'.Content ∧ sc'.cur ≤ dcap ∧ sc'.cur = sc'.pos - 2 ∧
      (∀ start stop, sc'.frameStart = some start → sc'.frameStop = some stop →
        start + 1 + sc'.pos ≤ stop) := by
  have later : ∀ {sc' : Scan}, sc'.Content → sc'.Inv dcap →
      sc'.Content ∧ sc'.cur ≤ dcap ∧ sc'.cur = sc'.pos - 2 ∧
        (∀ start stop, sc'.frameStart = some start → sc'.frameStop = some stop →
          start + 1 + sc'.pos ≤ stop) := by
    intro sc' hc hv
    refine ⟨hc, hv.within, hv.cursor, fun start stop _ hs => ?_⟩
    rw [hv.notStopped] at hs
    exact nomatch hs
  have moved : ({ sc with i := sc.i + 1 } : Scan).Content :=
    { h with behindFlag := fun st hs => Nat.le_succ_of_le (h.behindFlag st hs) }
  rcases hi.turn b next e with hstop | hinv
  · rcases Scan.turn_stop dcap hi.notStopped e with hn | ⟨-, -, -, start, hs, rfl⟩
    · rw [hn] at hstop
      exact nomatch hstop
    · refine ⟨{ moved with }, hi.within, hi.cursor, ?_⟩
      rintro st stop hst ⟨⟩
      exact h.behindFlag st hst
  · refine later ?_ hinv
    unfold Scan.turn at e
    split at e
    · cases e
      rcases Scan.flag_cases next sc with ⟨hs, -, e⟩ | ⟨hs, -, e⟩ | ⟨st, hs, -, e⟩ | ⟨st, hs, -, -, e⟩ <;>
        rw [e]
      · exact moved
      · refine { moved with behindFlag := ?_ }
        rintro st ⟨⟩
        have := (hi.nothingConsumed hs).1
        simp only
        omega
      · exact moved
      · exact { moved with }
    · split at e
      · cases e
        rcases Scan.escape_cases sc with ⟨-, e⟩ | ⟨_, -, e⟩ <;> rw [e]
        · exact moved
        · exact { moved with }
      · unfold Scan.plain Scan.unescaped at e
        split at e
        · cases e
          exact moved
        · exact h.consume hi _ e

/-- What a run that ended knows of the bytes it consumed. -/
theorem Scan.Content.run {dcap : Nat} {w : List Byte} {sc sc' : Scan} (h : sc.Content)
    (hi : sc.Inv dcap) (e : Scan.run dcap w sc = .ok sc') :
    sc'.Content ∧ sc'.cur ≤ dcap ∧ sc'.cur = sc'.pos - 2 ∧
      (∀ start stop, sc'.frameStart = some start → sc'.frameStop = some stop →
        start + 1 + sc'.pos ≤ stop) := by
  induction w generalizing sc with
  | nil =>
    cases e
    refine ⟨h, hi.within, hi.cursor, fun start stop _ hs => ?_⟩
    rw [hi.notStopped] at hs
    exact nomatch hs
  | cons b w ih =>
    simp only [Scan.run] at e
    cases ht : sc.turn dcap b (nextIsFlag w) with
    | error i =>
      rw [ht] at e
      exact nomatch e
    | ok s1 =>
      rw [ht] at e
      simp only at e
      have facts := h.turn hi b _ ht
      split at e
      · cases e
        exact facts
      · rename_i hn
        rcases hi.turn b _ ht with hx | hx
        · exact absurd hx hn
        · exact ih facts.1 hx e

/-- A turn overflows only at the scan index, with the destination full and at least `dcap + 3` bytes of the
window behind it (R162). -/
theorem Scan.Content.turn_error {dcap i : Nat} {sc : Scan} (h : sc.Content) (hi : sc.Inv dcap) {b : Byte}
    {next : Bool} (e : sc.turn dcap b next = .error i) :
    i = sc.i ∧ sc.cur = dcap ∧ dcap + 3 ≤ sc.i := by
  unfold Scan.turn at e
  split at e
  · exact nomatch e
  · split at e
    · exact nomatch e
    · unfold Scan.plain Scan.unescaped at e
      split at e
      · exact nomatch e
      · rename_i start hs
        have hg := h.behindFlag start hs
        have hc := hi.cursor
        rcases Scan.consume_cases dcap (unescape sc.escapePending b) sc with
          ⟨-, e'⟩ | ⟨-, e'⟩ | ⟨-, -, e'⟩ | ⟨p, c, e'⟩ <;> rw [e'] at e <;> cases e
        exact ⟨rfl, c, by omega⟩

/-- A run overflows only at a byte of the window with at least `dcap + 3` bytes before it (R162). -/
theorem Scan.Content.run_error {dcap i : Nat} {w : List Byte} {sc : Scan} (h : sc.Content)
    (hi : sc.Inv dcap) (e : Scan.run dcap w sc = .error i) : dcap + 3 ≤ i ∧ i < sc.i + w.length := by
  induction w generalizing sc with
  | nil => exact nomatch e
  | cons b w ih =>
    simp only [Scan.run] at e
    simp only [List.length_cons]
    cases ht : sc.turn dcap b (nextIsFlag w) with
    | error j =>
      rw [ht] at e
      cases e
      have := h.turn_error hi ht
      omega
    | ok s1 =>
      rw [ht] at e
      simp only at e
      split at e
      · exact nomatch e
      · rename_i hn
        rcases hi.turn b _ ht with hx | hx
        · exact absurd hx hn
        · have := ih (h.turn hi b _ ht).1 hx e
          rw [Scan.turn_i dcap ht] at this
          omega

end Sys2Proof.Machine
end

