-- ==== Sys2Proof/Laws/Ops.lean ====
section
/-! SUPPORT. The shared operations over the state, each said once: the end of a scan, a turn of the scan in
progress, the buffer's updates and the two sequences of R78. -/

namespace Sys2Proof.Machine

/-! ### The start of an operation and the end of a scan -/

/-- Dropping the scan in progress keeps the invariant. -/
theorem State.Inv.beginOperation {s : State} (h : s.Inv) : s.beginOperation.Inv :=
  { h with scanInv := fun _ e => nomatch e }

/-- What `deliver` leaves after `Frame`: the bytes stored, every other cell of the destination free (R163, U5). -/
theorem State.deliver_frame (s : State) (dcap : Nat) (sc : Scan) {k : Kind} {q : Seq} {a : Byte} {p : List Byte}
    {l d : Nat} (h : sc.finish = .frame k q a p l d) :
    s.deliver dcap sc =
      { s with
        result := .frame k q a p l d
        dst := (s.dst.writeAll 0 sc.stored).unspecify s.draws sc.cur (dcap - sc.cur)
        draws := s.draws + 1 } := by
  unfold State.deliver
  rw [h]

/-- After any other outcome the whole destination holds unspecified values (R36, R238). -/
theorem State.deliver_other (s : State) (dcap : Nat) (sc : Scan)
    (h : ∀ k q a p l d, sc.finish ≠ .frame k q a p l d) :
    s.deliver dcap sc =
      { s with
        result := sc.finish, dst := s.dst.unspecify s.draws 0 dcap, draws := s.draws + 1 } := by
  unfold State.deliver
  split
  · rename_i e
    exact absurd e (h _ _ _ _ _ _)
  · rfl

/-- After `Frame` the bytes stored stand in the destination from cell 0 (R163). -/
theorem State.readAll_deliver_frame (s : State) (dcap : Nat) (sc : Scan) {k : Kind} {q : Seq} {a : Byte}
    {p : List Byte} {l d : Nat} (h : sc.finish = .frame k q a p l d) :
    (s.deliver dcap sc).dst.readAll .dst 0 sc.cur = sc.stored := by
  rw [State.deliver_frame s dcap sc h]
  refine Eq.trans (Memory.readAll_congr _ _ _ _ _ _ fun j hj => ?_)
    (Memory.readAll_writeAll .dst s.dst 0 sc.stored)
  exact Memory.read_unspecify_outside _ _ _ _ _ _ (by omega)

/-- No cell beyond the destination changes (R162). -/
theorem Memory.read_deliver_above (s : State) (dcap : Nat) (sc : Scan) (x : Nat) (hc : sc.cur ≤ x)
    (h : dcap ≤ x) : (s.deliver dcap sc).dst.read .dst x = s.dst.read .dst x := by
  unfold State.deliver
  split
  · exact (Memory.read_unspecify_outside _ _ _ _ _ _ (by omega)).trans
      (Memory.read_writeAll_outside _ _ _ _ _ (by rw [Scan.cur] at hc; omega))
  · exact Memory.read_unspecify_outside _ _ _ _ _ _ (by omega)

theorem State.deliver_dst_wf (s : State) (dcap : Nat) (sc : Scan) (h : s.dst.wf) :
    (s.deliver dcap sc).dst.wf := by
  unfold State.deliver
  split
  · exact Memory.unspecify_wf _ _ _ _ (Memory.writeAll_wf _ _ _ h)
  · exact Memory.unspecify_wf _ _ _ _ h

/-- The outcome of a scan without a closing Flag (R159). -/
theorem Scan.finish_noFrame (sc : Scan) (h : sc.frameStop = none) : sc.finish = .noFrame 0 := by
  unfold Scan.finish
  rw [h]
  split
  · rename_i e; exact nomatch e
  · rfl

/-- The outcome of an accepted scan (R152 L15). -/
theorem Scan.finish_frame (sc : Scan) {start stop : Nat} {k : Kind} {q : Seq} {a : Byte}
    (h1 : sc.frameStart = some start) (h2 : sc.frameStop = some stop) (h : sc.accepts start stop)
    (hk : sc.kind = some k) (hq : sc.seq = some q) (ha : sc.addr = some a) :
    sc.finish = .frame k q a (sc.stored.take (sc.cur - 2)) (sc.cur - 2) (stop + 1) := by
  unfold Scan.finish
  rw [h1, h2, hk, hq, ha]
  dsimp only
  rw [if_pos h]

/-- The outcome of a rejected scan (R152 L16). -/
theorem Scan.finish_badFrame (sc : Scan) {start stop : Nat}
    (h1 : sc.frameStart = some start) (h2 : sc.frameStop = some stop) (h : ¬ sc.accepts start stop) :
    sc.finish = .badFrame sc.kind sc.seq sc.addr (stop + 1) := by
  unfold Scan.finish
  rw [h1, h2]
  dsimp only
  rw [if_neg h]

/-- An outcome `Frame` says the scan was accepted, and what it held (R152 L15). -/
theorem Scan.of_finish_frame (sc : Scan) {k : Kind} {q : Seq} {a : Byte} {p : List Byte} {l d : Nat}
    (h : sc.finish = .frame k q a p l d) :
    ∃ start stop, sc.frameStart = some start ∧ sc.frameStop = some stop ∧ sc.accepts start stop ∧
      sc.kind = some k ∧ sc.seq = some q ∧ sc.addr = some a ∧
      p = sc.stored.take (sc.cur - 2) ∧ l = sc.cur - 2 ∧ d = stop + 1 := by
  unfold Scan.finish at h
  split at h
  · rename_i start stop h1 h2
    split at h
    · rename_i hacc
      split at h
      · rename_i h3 h4 h5
        simp only [Result.frame.injEq] at h
        obtain ⟨rfl, rfl, rfl, rfl, rfl, rfl⟩ := h
        exact ⟨start, stop, h1, h2, hacc, h3, h4, h5, rfl, rfl, rfl⟩
      · exact nomatch h
    · exact nomatch h
  · exact nomatch h

/-! ### A turn of the scan in progress -/

/-- A turn that does not end the scan only replaces its registers. -/
theorem State.afterTurn_goes_on (s : State) (sc : Scan) (h : sc.frameStop = none) :
    s.afterTurn sc = { s with scan := some sc } := by
  unfold State.afterTurn
  rw [h]
  rfl

/-- The closing Flag ends the scan in progress and delivers its outcome. -/
theorem State.afterTurn_ends (s : State) (sc : Scan) (h : sc.frameStop.isSome = true) :
    s.afterTurn sc = { s with scan := none }.deliver s.params.dcap sc := by
  unfold State.afterTurn
  rw [if_pos h]

theorem State.afterTurn_dst_wf (s : State) (sc : Scan) (h : s.dst.wf) : (s.afterTurn sc).dst.wf := by
  unfold State.afterTurn
  split
  · exact State.deliver_dst_wf _ _ _ h
  · exact h

/-- The scan in progress after a turn is either gone or the registers the turn left. -/
theorem State.afterTurn_scan (s : State) (sc : Scan) :
    ((s.afterTurn sc).scan = none ∧ sc.frameStop.isSome = true) ∨
      ((s.afterTurn sc).scan = some sc ∧ sc.frameStop = none) := by
  cases h : sc.frameStop with
  | none => exact .inr ⟨by rw [State.afterTurn_goes_on _ _ h], rfl⟩
  | some x =>
    refine .inl ⟨?_, rfl⟩
    rw [State.afterTurn_ends _ _ (by rw [h]; rfl)]
    simp

/-! ### The reassembly buffer -/

/-- `BUF.ERASE`'s update drops the first `k` readable bytes (R184, R191). -/
theorem State.erasePrefix_data (s : State) (k : Nat) (h : k ≤ s.tail) :
    (s.erasePrefix k).data = s.data.drop k := by
  unfold State.erasePrefix
  split
  · subst_vars; rfl
  · simp only [State.data, State.unspecifyFrom]
    rw [Memory.drop_readAll _ _ _ _ _ h]
    apply Memory.readAll_congr
    intro j hj
    rw [Memory.read_unspecify_outside _ _ _ _ _ _ (by omega), Memory.read_copyDown, if_pos (by omega)]
    congr 1
    omega

/-- `BUF.CLEAR`'s update leaves nothing readable (R185). -/
theorem State.clearAll_data (s : State) : s.clearAll.data = [] := by
  simp [State.data, Memory.readAll]

theorem State.erasePrefix_buf_outside (s : State) (k x : Nat) (h1 : s.tail ≤ x)
    (h2 : s.params.cap ≤ x) : (s.erasePrefix k).buf.read .buf x = s.buf.read .buf x := by
  unfold State.erasePrefix
  split
  · rfl
  · simp only [State.unspecifyFrom]
    rw [Memory.read_unspecify_outside _ _ _ _ _ _ (by omega), Memory.read_copyDown, if_neg (by omega)]

theorem State.clearAll_buf_outside (s : State) (x : Nat) (h : s.params.cap ≤ x) :
    s.clearAll.buf.read .buf x = s.buf.read .buf x := by
  unfold State.clearAll
  split
  · rfl
  · simp only [State.unspecifyFrom]
    rw [Memory.read_unspecify_outside _ _ _ _ _ _ (by omega)]

/-! ### The two sequences of R78 -/

/-- Issuing is carrying out with no scan left (R20). -/
theorem issue_eq (i : Instr) (s : State) : issue i s = exec i { s with scan := none } := rfl

@[simp] theorem andThen_next (s : State) (f : State → Outcome) : andThen (.next s) f = f s := rfl
@[simp] theorem andThen_fault (e : Fault) (f : State → Outcome) :
    andThen (.fault e) f = .fault e := rfl
@[simp] theorem andThen_refused (e : Refusal) (f : State → Outcome) :
    andThen (.refused e) f = .refused e := rfl

/-- The transport's fill of a run of suffix cells writes exactly those cells (R181). -/
theorem fillAll_eq (bytes : List Byte) (s : State) (index : Nat) (h : s.tail ≤ index)
    (h2 : bytes = [] ∨ index + bytes.length ≤ s.params.cap) :
    fillAll index bytes s = .next { s with buf := s.buf.writeAll index bytes } := by
  induction bytes generalizing index s with
  | nil => rfl
  | cons b bs ih =>
    simp only [List.length_cons, reduceCtorEq, false_or] at h2
    rw [fillAll, State.fillCell, if_pos ⟨h, by omega⟩, andThen_next,
      ih _ _ (by exact Nat.le_succ_of_le h) (.inr (by simp only; omega))]
    rfl

/-- Cells at and above `tail` are not readable data. -/
theorem State.data_of_writeAll (s : State) (bytes : List Byte) :
    (s.buf.writeAll s.tail bytes).readAll .buf 0 (s.tail + bytes.length) = s.data ++ bytes := by
  rw [Memory.readAll_append, Nat.zero_add, Memory.readAll_writeAll]
  congr 1
  apply Memory.readAll_congr
  intro j hj
  exact Memory.read_writeAll_outside _ _ _ _ _ (by omega)

end Sys2Proof.Machine
end

