-- ==== Sys2Proof/Laws/PerInstr.lean ====
section
/-! SUPPORT. Per-instruction law: the first word of every instruction is one its row of
spec/opcode_table.json matches under the row's mask. -/

namespace Sys2Proof.Laws.EncodedHead

/-- The row's mask and match of spec/opcode_table.json. -/
def row : Instr → Byte × Byte
  | .fcsInit => (0x0F, 0x00)
  | .fcsUpdate _ _ => (0x0F, 0x01)
  | .fcsFinal _ => (0x0F, 0x02)
  | .fcsCheck _ => (0x0F, 0x03)
  | .escEnc _ => (0x0F, 0x04)
  | .escDec _ _ => (0x0F, 0x05)
  | .ctlEnc _ _ => (0x0F, 0x06)
  | .ctlDec _ => (0x0F, 0x07)
  | .frmEnc _ _ _ _ _ => (0x0F, 0x08)
  | .frmDec _ _ => (0x0F, 0x09)
  | .bufUnused => (0x0F, 0x0A)
  | .bufAppend _ => (0x0F, 0x0B)
  | .bufData => (0x0F, 0x0C)
  | .bufErase _ => (0x0F, 0x0D)
  | .bufClear => (0x0F, 0x0E)
  | .bufCap => (0x0F, 0x0F)
  | .ctrlData _ _ _ => (0x01, 0x00)
  | .ctrlAck _ _ _ => (0x0D, 0x01)
  | .ctrlNack _ _ _ => (0x0D, 0x09)
  | .ctrlUnsupportedS1 _ _ _ => (0x0D, 0x05)
  | .ctrlUnsupportedS3 _ _ _ => (0x0D, 0x0D)
  | .wireFlag => (0xFF, 0x7E)
  | .wireEscape => (0xFF, 0x7D)

/-- The first word of `i` is one its row matches. -/
def Statement (i : Instr) : Prop := ∃ b t, encode i = b :: t ∧ b &&& (row i).1 = (row i).2

theorem fcsInit : Statement .fcsInit := ⟨_, _, rfl, by simp [row]⟩
theorem fcsUpdate (s : Acc) (b : Byte) : Statement (.fcsUpdate s b) := ⟨_, _, rfl, by simp [row]⟩
theorem fcsFinal (s : Acc) : Statement (.fcsFinal s) := ⟨_, _, rfl, by simp [row]⟩
theorem fcsCheck (s : Acc) : Statement (.fcsCheck s) := ⟨_, _, rfl, by simp [row]⟩
theorem escEnc (b : Byte) : Statement (.escEnc b) := ⟨_, _, rfl, by simp [row]⟩
theorem escDec (p : Bool) (b : Byte) : Statement (.escDec p b) := ⟨_, _, rfl, by simp [row]⟩
theorem ctlEnc (k : BitVec 2) (q : Seq) : Statement (.ctlEnc k q) := ⟨_, _, rfl, by simp [row]⟩
theorem ctlDec (c : Byte) : Statement (.ctlDec c) := ⟨_, _, rfl, by simp [row]⟩
theorem frmEnc (a : Byte) (k : BitVec 2) (q : Seq) (p : List Byte) (c : Nat) :
    Statement (.frmEnc a k q p c) := ⟨_, _, rfl, by simp [row]⟩
theorem frmDec (w : List Byte) (d : Nat) : Statement (.frmDec w d) := ⟨_, _, rfl, by simp [row]⟩
theorem bufUnused : Statement .bufUnused := ⟨_, _, rfl, by simp [row]⟩
theorem bufAppend (n : Nat) : Statement (.bufAppend n) := ⟨_, _, rfl, by simp [row]⟩
theorem bufData : Statement .bufData := ⟨_, _, rfl, by simp [row]⟩
theorem bufErase (k : Nat) : Statement (.bufErase k) := ⟨_, _, rfl, by simp [row]⟩
theorem bufClear : Statement .bufClear := ⟨_, _, rfl, by simp [row]⟩
theorem bufCap : Statement .bufCap := ⟨_, _, rfl, by simp [row]⟩

/-- S is bit 0, clear in a Data control byte. -/
theorem controlData_row (ns : Seq) (pf : BitVec 1) (nr : Seq) :
    controlData ns pf nr &&& 0x01 = 0x00 := by
  unfold controlData; revert ns pf nr; decide

/-- S and the S-type of a supervisory control byte. -/
theorem controlSuper_row (st : BitVec 2) (nr : Seq) (pf b1 : BitVec 1) :
    controlSuper st nr pf b1 &&& 0x0D = (st.setWidth 8 <<< 2) ||| 1 := by
  unfold controlSuper; revert st nr pf b1; decide

theorem ctrlData (ns : Seq) (pf : BitVec 1) (nr : Seq) : Statement (.ctrlData ns pf nr) :=
  ⟨_, _, rfl, controlData_row ns pf nr⟩
theorem ctrlAck (nr : Seq) (pf b1 : BitVec 1) : Statement (.ctrlAck nr pf b1) :=
  ⟨_, _, rfl, controlSuper_row 0 nr pf b1⟩
theorem ctrlNack (nr : Seq) (pf b1 : BitVec 1) : Statement (.ctrlNack nr pf b1) :=
  ⟨_, _, rfl, controlSuper_row 2 nr pf b1⟩
theorem ctrlUnsupportedS1 (nr : Seq) (pf b1 : BitVec 1) : Statement (.ctrlUnsupportedS1 nr pf b1) :=
  ⟨_, _, rfl, controlSuper_row 1 nr pf b1⟩
theorem ctrlUnsupportedS3 (nr : Seq) (pf b1 : BitVec 1) : Statement (.ctrlUnsupportedS3 nr pf b1) :=
  ⟨_, _, rfl, controlSuper_row 3 nr pf b1⟩
theorem wireFlag : Statement .wireFlag := ⟨_, _, rfl, by simp [row]⟩
theorem wireEscape : Statement .wireEscape := ⟨_, _, rfl, by simp [row]⟩

end Sys2Proof.Laws.EncodedHead
end

