-- ==== Sys2Proof/Laws/Session.lean ====
section
/-! SUPPORT. The pieces of the host's two loops, each said once: a transport read that places what it says, a
turn of the reader that reaches the transport, and polls that nobody answers. -/

namespace Sys2Proof.Machine

/-! ### read -/

@[simp] theorem TransportRead.ofBytes_placed (bytes : List Byte) :
    (TransportRead.ofBytes bytes).placed = bytes := rfl
@[simp] theorem TransportRead.ofBytes_value (bytes : List Byte) :
    (TransportRead.ofBytes bytes).value = bytes.length := rfl

@[simp] theorem Turn.andThen_done (s : State) (f : State → Turn) : (Turn.done s).andThen f = f s := rfl
@[simp] theorem Turn.andThen_failed (v : Int) (s : State) (f : State → Turn) :
    (Turn.failed v s).andThen f = .failed v s := rfl
@[simp] theorem Turn.andThen_fault (e : Fault) (s : State) (f : State → Turn) :
    (Turn.fault e s).andThen f = .fault e s := rfl
@[simp] theorem Turn.andThen_refused (e : Refusal) (s : State) (f : State → Turn) :
    (Turn.refused e s).andThen f = .refused e s := rfl

/-- An operation that completes. -/
theorem Turn.run_next {f : State → Outcome} {s t : State} (h : f s = .next t) : Turn.run f s = .done t := by
  unfold Turn.run
  rw [h]

/-- One that faults leaves the block as it was (R240). -/
theorem Turn.run_fault {f : State → Outcome} {s : State} {e : Fault} (h : f s = .fault e) :
    Turn.run f s = .fault e s := by
  unfold Turn.run
  rw [h]

/-- The window of the buffered data decodes as `FRM.DEC` does on the block `BUF.DATA` leaves. -/
theorem decodeWindow_next {dcap : Nat} {s t : State}
    (h : exec (.frmDec s.data dcap) (s.beginOperation.withResult (.window s.data s.tail)) = .next t) :
    decodeWindow dcap s = .done t := by
  unfold decodeWindow
  rw [Turn.run_next (f := issue .bufData) (t := s.beginOperation.withResult (.window s.data s.tail)) rfl,
    Turn.andThen_done,
    Turn.run_next (f := issue (.frmDec s.data dcap))
      (s := s.beginOperation.withResult (.window s.data s.tail)) h]

/-- A fault of that decode leaves the buffer, and a destination without a value (R163, R240). -/
theorem decodeWindow_fault {dcap : Nat} {s : State} {f : Fault}
    (h : exec (.frmDec s.data dcap) (s.beginOperation.withResult (.window s.data s.tail)) = .fault f) :
    decodeWindow dcap s =
      .fault f ((s.beginOperation.withResult (.window s.data s.tail)).unspecifyDst dcap) := by
  unfold decodeWindow
  rw [Turn.run_next (f := issue .bufData) (t := s.beginOperation.withResult (.window s.data s.tail)) rfl,
    Turn.andThen_done,
    Turn.run_fault (f := issue (.frmDec s.data dcap))
      (s := s.beginOperation.withResult (.window s.data s.tail)) h]

/-- Sub-step b with a read that delivers bytes the suffix has room for (R206): they are appended, decoded, and
what the decode discards is erased. -/
theorem readTransport_ofBytes (dstLen : Nat) (bytes : List Byte) (s : State) (h : bytes ≠ [])
    (hfit : s.tail + bytes.length ≤ s.params.cap) :
    readTransport dstLen (TransportRead.ofBytes bytes) s =
      (decodeWindow dstLen
        { s with
          buf := s.buf.writeAll s.tail bytes
          tail := s.tail + bytes.length
          result := .ok
          scan := none }).andThen (Turn.run eraseDiscard) := by
  have hpos : 0 < bytes.length := List.length_pos_of_ne_nil h
  have hfill := fillAll_eq bytes (s.beginOperation.withResult (.unused s.tail s.free)) s.tail (Nat.le_refl _)
    (.inr hfit)
  have happ : issue (.bufAppend bytes.length)
      { s.beginOperation.withResult (.unused s.tail s.free) with buf := s.buf.writeAll s.tail bytes } =
        .next { s with
          buf := s.buf.writeAll s.tail bytes
          tail := s.tail + bytes.length
          result := .ok
          scan := none } :=
    if_neg (by show ¬ s.params.cap - s.tail < bytes.length; omega)
  unfold readTransport
  rw [Turn.run_next (f := issue .bufUnused) (t := s.beginOperation.withResult (.unused s.tail s.free)) rfl,
    Turn.andThen_done, TransportRead.ofBytes_placed, State.withResult_tail, State.beginOperation_tail,
    Turn.run_next hfill, Turn.andThen_done, if_neg (by rw [TransportRead.ofBytes_value]; omega),
    TransportRead.ofBytes_value, Int.toNat_natCast]
  exact congrArg (fun x => Turn.andThen x fun s => (decodeWindow dstLen s).andThen (Turn.run eraseDiscard))
    (Turn.run_next (f := issue (.bufAppend bytes.length)) happ)

/-- Sub-step b with a read that places nothing and fails (R206). -/
theorem readTransport_failed (dstLen : Nat) (value : Int) (s : State) (h : value ≤ 0) :
    readTransport dstLen ⟨[], value⟩ s =
      .failed value (s.beginOperation.withResult (.unused s.tail s.free)) := by
  unfold readTransport
  exact if_pos h

/-- Sub-step c erases what the decode consumed and keeps its result (R206 c). -/
theorem eraseDiscard_erases (s : State) (h : 0 < s.result.discard) (ht : s.result.discard ≤ s.tail) :
    eraseDiscard s = .next { s.beginOperation.erasePrefix s.result.discard with result := s.result } := by
  have he : issue (.bufErase s.result.discard) s =
      .next ((s.beginOperation.erasePrefix s.result.discard).withResult .ok) :=
    if_neg (by show ¬ s.tail < s.result.discard; omega)
  unfold eraseDiscard
  rw [if_pos h, he]
  rfl

/-- With nothing consumed sub-step c does nothing (R206 c). -/
theorem eraseDiscard_nothing (s : State) (h : s.result.discard = 0) : eraseDiscard s = .next s := by
  unfold eraseDiscard
  rw [if_neg (by omega)]

/-- With an empty buffer a turn goes to the transport at once (R206 a). -/
theorem readTurn_empty (o : SessionOpen) (dstLen : Nat) (c : TransportRead) (s : State)
    (h : s.tail = 0) : readTurn o dstLen c s = (none, readTransport dstLen c s) := by
  unfold readTurn
  rw [if_pos (by simp [State.empty, h])]

/-- With data that is no complete frame yet in a buffer that is not full, a turn goes to the transport after the
decode (R206 a). -/
theorem readTurn_pending (o : SessionOpen) (dstLen : Nat) (c : TransportRead) (s t : State)
    (h : s.tail ≠ 0) (hd : decodeWindow dstLen s = .done t) (hr : t.result = .noFrame 0)
    (hf : t.tail ≠ t.params.cap) :
    readTurn o dstLen c s = (some t.result, readTransport dstLen c t) := by
  unfold readTurn
  have hrec : recoverOverflow t = .next t := if_neg (by simp [State.full, hf])
  rw [if_neg (by simp [State.empty, h]), hd]
  dsimp only
  rw [Turn.run_next hrec]
  simp [SessionOpen.complete, hr, Result.status]

/-- A turn of a session that is not stopped runs the sub-steps a to c (R205). -/
theorem ReadRun.turn_running (o : SessionOpen) (dstLen : Nat) (e : TurnInput) (r : ReadRun)
    (h : r.session.stopped = false) (hc : e.closed = false) :
    r.turn o dstLen e =
      let turn := readTurn o dstLen e.chunk r.block
      (r.noteFirst turn.1).conclude o e.written turn.2 := by
  unfold ReadRun.turn
  simp only [hc, Bool.false_eq_true, if_false, Session.readExit, h]

/-- A turn of a stopped session, or of one that is closed by then, ends the call (R212, R217). -/
theorem ReadRun.turn_stopped (o : SessionOpen) (dstLen : Nat) (e : TurnInput) (r : ReadRun)
    (h : r.session.stopped = true ∨ e.closed = true) :
    r.turn o dstLen e =
      { r with session := r.session.close, ending := .stopped r.session.lastError } := by
  unfold ReadRun.turn
  cases hc : e.closed with
  | true => rfl
  | false =>
    have hs : r.session.stopped = true := by simpa [hc] using h
    have hclose : r.session.close = r.session := by
      rw [Session.close, ← hs]
    rw [hclose]
    simp only [Bool.false_eq_true, if_false, Session.readExit, hs, if_true]

/-! ### write -/

/-- Polls that find nothing new, short of the timeout, only count milliseconds (R214 d). -/
theorem WriteRun.polls_silent (o : SessionOpen) (payload : List Byte) (n : Nat) (ws : List WriteResult)
    (h : Session) (s : State) (frames : List (List Byte)) (ending : WriteEnd) {q : Seq} {k w : Nat}
    (hs : h.sender = .awaitingAck q k w) (hw : h.writeResult = .none) (hn : w + n < h.writeTimeout) :
    WriteRun.polls o payload (List.replicate n .none ++ ws) ⟨h, s, frames, ending⟩ =
      WriteRun.polls o payload ws
        ⟨{ h with sender := .awaitingAck q k (w + n) }, s, frames, ending⟩ := by
  induction n generalizing h w with
  | zero => simp only [List.replicate_zero, List.nil_append, Nat.add_zero, ← hs]
  | succ n ih =>
    have hp : h.poll o payload = ({ h with sender := .awaitingAck q k (w + 1) }, none) := by
      unfold Session.poll
      rw [hs, hw]
      exact if_pos (by omega)
    have := ih { h with sender := .awaitingAck q k (w + 1) } rfl hw (by show w + 1 + n < h.writeTimeout; omega)
    simp only [List.replicate_succ, List.cons_append, WriteRun.polls, Session.publish, hp]
    rw [if_pos (by rw [hs]; rfl), this, show w + 1 + n = w + (n + 1) by omega]

end Sys2Proof.Machine
end

