-- ==== Sys2Proof/Tests/Slice0.lean ====
section
/-! SUPPORT. Tests. Expected results come from the spec: the worked examples of its rules, its test vectors
(95_test_vectors.md, V-…), or the words written out from its encoding tables. Then, for each obligation with
hypotheses, a witness that meets them together (`test_meets_…`), a clause each at the edge of its range. -/

namespace Sys2Proof.Tests

open Sys2Proof.Machine

/-! ### Helpers -/

/-- A block of the given capacities whose buffer holds `bytes`. -/
def block (cap dcap : Nat) (bytes : List Byte) : State :=
  { State.resetWith { cap := cap, wcap := 64, dcap := dcap, pmax := 1 } with
    buf := Memory.writeAll [] 0 bytes
    tail := bytes.length }

/-- A scan behind the opening Flag at index 0, at index `i`, body position `pos`. -/
def bodyScan (i pos : Nat) (stored : List Byte) : Scan :=
  { Scan.start with i := i, frameStart := some 0, pos := pos, stored := stored, addr := some 0xFF }

/-- A block in the middle of a scan. -/
def inScan (dcap : Nat) (sc : Scan) (inputs : List Input) : State :=
  { block 8 dcap [] with scan := some sc, inputs := inputs }

def after : Outcome → State
  | .next s => s
  | .fault _ | .refused _ => State.reset

def result (o : Outcome) : Option Result :=
  match o with
  | .next s => some s.result
  | .fault _ | .refused _ => none

def fault : Outcome → Option Fault
  | .fault f => some f
  | .next _ | .refused _ => none

def refusal : Outcome → Option Refusal
  | .refused r => some r
  | .next _ | .fault _ => none

/-! ### WellFormed: an ill-formed term for each check -/

theorem fitsLane_replicate : fitsLane (List.replicate (2 ^ 32) (0 : Byte)).length = false := by
  rw [List.length_replicate]
  rfl
theorem test_wf_refuses_long_payload :
    (Instr.frmEnc 0xFF 0 1 (List.replicate (2 ^ 32) 0) 16).wf = false := by
  rw [Instr.wf, fitsLane_replicate, Bool.false_and]
theorem test_wf_refuses_wide_ocap : (Instr.frmEnc 0xFF 0 1 [0x55] (2 ^ 32)).wf = false := by decide
theorem test_wf_refuses_long_window :
    (Instr.frmDec (List.replicate (2 ^ 32) 0) 16).wf = false := by
  rw [Instr.wf, fitsLane_replicate, Bool.false_and]
theorem test_wf_refuses_wide_dcap : (Instr.frmDec [0x7E] (2 ^ 32)).wf = false := by decide
theorem test_wf_refuses_wide_append : (Instr.bufAppend (2 ^ 32)).wf = false := by decide
theorem test_wf_refuses_wide_erase : (Instr.bufErase (2 ^ 32)).wf = false := by decide
theorem test_wf_takes_widest_count : (Instr.bufErase (2 ^ 32 - 1)).wf = true := by decide

theorem test_range_refuses_large_ocap :
    (Instr.frmEnc 0xFF 0 1 [0x55] 65).inRange Config.params = false := by decide
theorem test_range_refuses_large_window :
    (Instr.frmDec (List.replicate 65 0) 16).inRange Config.params = false := by decide
theorem test_range_refuses_large_dcap : (Instr.frmDec [0x7E] 65).inRange Config.params = false := by decide
theorem test_range_refuses_wide_counts :
    (Instr.bufAppend 128).inRange Config.params = false ∧
    (Instr.bufErase 128).inRange Config.params = false := by decide

/-- The reset block meets R252, the fault-free row included, and `IW` is 7 for capacities of 64 (R6). -/
theorem test_reset_params :
    Config.params.meetsObligations ∧ Config.params.faultFree ∧ Config.params.iw = 7 := by decide

/-! ### Decode: words written out from the spec's encodings -/

/-- R76's select codes; the operand lanes are assumption 9's. -/
theorem test_decode_fcs :
    decode .op [0b0000] = .ok (.fcsInit, []) ∧
    decode .op [0b0001, 0x34, 0x12, 0x56] = .ok (.fcsUpdate 0x1234 0x56, []) ∧
    decode .op [0b0010, 0xC9, 0x5C] = .ok (.fcsFinal 0x5CC9, []) ∧
    decode .op [0b0011, 0xB8, 0xF0] = .ok (.fcsCheck 0xF0B8, []) := by decide
theorem test_decode_esc_ctl :
    decode .op [0b0100, 0x7E] = .ok (.escEnc 0x7E, []) ∧
    decode .op [0b0101, 1, 0x5E] = .ok (.escDec true 0x5E, []) ∧
    decode .op [0b0110, 0b10, 0b001] = .ok (.ctlEnc 2 1, []) ∧
    decode .op [0b0111, 0x29] = .ok (.ctlDec 0x29, []) := by decide
theorem test_decode_frm :
    decode .op [0b1000, 0xFF, 0, 1, 1, 0, 0, 0, 16, 0, 0, 0, 0x55] =
      .ok (.frmEnc 0xFF 0 1 [0x55] 16, []) ∧
    decode .op [0b1001, 2, 0, 0, 0, 0, 1, 0, 0, 0x7E, 0x7E, 0x11] =
      .ok (.frmDec [0x7E, 0x7E] 256, [0x11]) := by decide
theorem test_decode_buf :
    decode .op [0b1010] = .ok (.bufUnused, []) ∧
    decode .op [0b1011, 4, 0, 0, 0] = .ok (.bufAppend 4, []) ∧
    decode .op [0b1100] = .ok (.bufData, []) ∧
    decode .op [0b1101, 6, 0, 0, 0] = .ok (.bufErase 6, []) ∧
    decode .op [0b1110] = .ok (.bufClear, []) ∧
    decode .op [0b1111] = .ok (.bufCap, []) := by decide
/-- R66's layout, bits 7:5 NR, 4 P/F, 3:1 NS or 3:2 S-type, 0 S. -/
theorem test_decode_control :
    decode .ctrl [0b000_1_001_0] = .ok (.ctrlData 1 1 0, []) ∧
    decode .ctrl [0b001_0_101_0] = .ok (.ctrlData 5 0 1, []) ∧
    decode .ctrl [0b010_0_00_0_1] = .ok (.ctrlAck 2 0 0, []) ∧
    decode .ctrl [0b001_0_10_0_1] = .ok (.ctrlNack 1 0 0, []) ∧
    decode .ctrl [0b110_1_01_1_1] = .ok (.ctrlUnsupportedS1 6 1 1, []) ∧
    decode .ctrl [0b011_1_11_0_1] = .ok (.ctrlUnsupportedS3 3 1 0, []) := by decide
/-- R120. -/
theorem test_decode_wire :
    decode .wire [0x7E] = .ok (.wireFlag, []) ∧ decode .wire [0x7D] = .ok (.wireEscape, []) ∧
    decode .wire [0x5E] = .error .notReserved := by decide
theorem test_decode_rejects :
    decode .op [] = .error .empty ∧ decode .op [0x10] = .error .notASelectCode ∧
    decode .op [0x1, 0x34] = .error .truncated ∧ decode .op [0x6, 4, 0] = .error .laneTooWide := by decide

/-! ### The FCS engine and the escaper -/

/-- R104's worked example. -/
theorem test_fcsInit : result (exec .fcsInit State.reset) = some (.accumulator 0xFFFF) := by decide
/-- V-F8. -/
theorem test_fcsUpdate :
    result (exec (.fcsUpdate 0x1234 0x56) State.reset) = some (.accumulator 0x4006) := by decide +kernel
/-- V-F12: the low byte cancels. -/
theorem test_fcsUpdate_index_zero :
    result (exec (.fcsUpdate 0xABCD 0xCD) State.reset) = some (.accumulator 0x00AB) := by decide +kernel
/-- R103 at V-F8's operands. -/
theorem test_serial : fcsUpdateSerial 0x1234 0x56 = 0x4006 := by decide +kernel
/-- R105's worked example. -/
theorem test_fcsFinal :
    result (exec (.fcsFinal 0x5CC9) State.reset) = some (.fcsBytes 0x36 0xA3) := by decide
/-- R106's worked examples. -/
theorem test_fcsCheck :
    result (exec (.fcsCheck 0xF0B8) State.reset) = some (.check true) ∧
    result (exec (.fcsCheck 0x0555) State.reset) = some (.check false) := by decide
/-- V-E1, V-E2. -/
theorem test_escEnc :
    result (exec (.escEnc 0x7E) State.reset) = some (.escaped 2 0x7D 0x5E) ∧
    result (exec (.escEnc 0x7D) State.reset) = some (.escaped 2 0x7D 0x5D) := by decide
/-- V-E5: a neighbour of a reserved byte is itself; the second lane is any value. -/
theorem test_escEnc_plain : ∃ o1, result (exec (.escEnc 0x7C) State.reset) = some (.escaped 1 0x7C o1) :=
  ⟨_, rfl⟩
/-- V-E11, V-E17. -/
theorem test_escDec :
    result (exec (.escDec true 0x5E) State.reset) = some (.unescaped false true 0x7E) ∧
    result (exec (.escDec true 0x00) State.reset) = some (.unescaped false true 0x20) := by decide
/-- V-E14: a second Escape keeps the bit set and produces nothing. -/
theorem test_escDec_escape :
    ∃ o, result (exec (.escDec true 0x7D) State.reset) = some (.unescaped true false o) := ⟨_, rfl⟩

/-! ### The control byte and the frame codec -/

/-- R130's worked examples, and the value 3. -/
theorem test_ctlEnc :
    result (exec (.ctlEnc 0 1) State.reset) = some (.control 0x12) ∧
    result (exec (.ctlEnc 1 2) State.reset) = some (.control 0x41) ∧
    result (exec (.ctlEnc 2 1) State.reset) = some (.control 0x29) ∧
    result (exec (.ctlEnc 3 1) State.reset) = some .invalidArgument := by decide
/-- V-C3, V-C14, V-C6, V-C16. -/
theorem test_ctlDec :
    result (exec (.ctlDec 0x2A) State.reset) = some (.kindSeq .data 5) ∧
    result (exec (.ctlDec 0xE1) State.reset) = some (.kindSeq .ack 7) ∧
    result (exec (.ctlDec 0x29) State.reset) = some (.kindSeq .nack 1) ∧
    result (exec (.ctlDec 0x05) State.reset) = some (.kindSeq .nack 0) := by decide
/-- Scenario 4 (V-F28): an escaped payload byte, in a sink it fills exactly. -/
theorem test_frmEnc :
    result (exec (.frmEnc 0xFF 0 1 [0x7E] 8) State.reset) =
      some (.encoded [0x7E, 0xFF, 0x12, 0x7D, 0x5E, 0xE7, 0x3C, 0x7E] 8) := by decide +kernel
/-- R133, R134: an empty Data payload, and a sink one byte too small. -/
theorem test_frmEnc_rejects :
    result (exec (.frmEnc 0xFF 0 1 [] 16) State.reset) = some .invalidArgument ∧
    result (exec (.frmEnc 0xFF 0 1 [0x7E] 7) State.reset) = some .invalidArgument := by decide +kernel
/-- V-D4, V-D5. -/
theorem test_frmDec :
    decoded [0x7E, 0xFF, 0x12, 0x7D, 0x5E, 0xE7, 0x3C, 0x7E] 32 State.reset =
      .ok (.frame .data 1 0xFF [0x7E] 1 8) ∧
    decoded [0x7E, 0xFF, 0x12, 0x33, 0x67, 0xF8, 0x7E] 32 State.reset =
      .ok (.badFrame (some .data) (some 1) (some 0xFF) 7) := by decide +kernel
/-- V-D17a, V-D18a: a field not reached is `none`; a good residual is not enough. -/
theorem test_frmDec_short :
    decoded [0x7E, 0x01, 0x7E] 32 State.reset = .ok (.badFrame none none (some 0x01) 3) ∧
    decoded [0x7E, 0xFF, 0x00, 0xFF, 0x7E] 32 State.reset =
      .ok (.badFrame (some .data) (some 0) (some 0xFF) 5) := by decide +kernel

/-! ### The reassembly buffer -/

/-- R180's worked example. -/
theorem test_bufUnused :
    result (exec .bufUnused (block 8 8 [1, 2, 3])) = some (.unused 3 5) := by decide
/-- R182's worked examples. -/
theorem test_bufAppend :
    (after (exec (.bufAppend 4) (block 8 8 [1, 2, 3]))).tail = 7 ∧
    result (exec (.bufAppend 2) (block 8 8 [1, 2, 3, 4, 5, 6, 7])) = some .invalidArgument := by decide
/-- R183's worked example. -/
theorem test_bufData :
    result (exec .bufData (block 8 8 [0x7E, 0xFF, 0x12])) = some (.window [0x7E, 0xFF, 0x12] 3) := by
  decide
/-- R184's worked example. -/
theorem test_bufErase :
    let t := after (exec (.bufErase 6) (block 8 8 [0x7E, 0xFF, 0x41, 0x0A, 0xA3, 0x7E, 0x11]))
    t.tail = 1 ∧ t.data = [0x11] := ⟨rfl, rfl⟩
theorem test_bufErase_too_many :
    result (exec (.bufErase 4) (block 8 8 [1, 2, 3])) = some .invalidArgument := by decide
/-- R185's worked example. -/
theorem test_bufClear :
    result (exec .bufUnused (after (exec .bufClear (block 8 8 [1, 2, 3, 4, 5, 6, 7, 8])))) =
      some (.unused 0 8) := by decide
/-- R186's worked example. -/
theorem test_bufCap : result (exec .bufCap (block 8 8 [])) = some (.capacity 8) := by decide

/-! ### The wire format -/

/-- R153, R154: a lone Flag opens (V-D8), a Flag before another is filler. -/
theorem test_wireFlag :
    (after (exec .wireFlag State.reset)).scanning.frameStart = some 0 ∧
    (after (exec .wireFlag (inScan 8 Scan.start [.wire 0x7E]))).scanning.frameStart = none := by decide
/-- R155, R166. -/
theorem test_wireEscape :
    (after (exec .wireEscape (inScan 8 (bodyScan 3 2 []) []))).scanning.escapePending = true ∧
    (after (exec .wireEscape State.reset)).scanning.escapePending = false := by decide
/-- The accumulator, kind and sequence number of scenario 1 behind its control byte (V-F7). -/
theorem test_ctrlData :
    let sc := (after (exec (.ctrlData 1 1 0) (inScan 8 Scan.atControlByte []))).scanning
    sc.fcs = 0x3CEB ∧ sc.kind = some .data ∧ sc.seq = some 1 ∧ sc.pos = 2 := by decide +kernel
/-- The accumulator of scenario 2 behind its control byte (V-F26). -/
theorem test_ctrlAck :
    let sc := (after (exec (.ctrlAck 2 0 0) (inScan 8 Scan.atControlByte []))).scanning
    sc.fcs = 0x5CF5 ∧ sc.kind = some .ack ∧ sc.seq = some 2 := by decide +kernel
/-- The accumulator of scenario 3 behind its control byte (V-F27). -/
theorem test_ctrlNack :
    let sc := (after (exec (.ctrlNack 1 0 0) (inScan 8 Scan.atControlByte []))).scanning
    sc.fcs = 0xB3BB ∧ sc.kind = some .nack ∧ sc.seq = some 1 := by decide +kernel
/-- D9: S-types 1 and 3 (V-C16, V-C18). -/
theorem test_ctrlUnsupported :
    (after (exec (.ctrlUnsupportedS1 0 0 0) (inScan 8 Scan.atControlByte []))).scanning.kind =
      some .nack ∧
    (after (exec (.ctrlUnsupportedS3 7 1 1) (inScan 8 Scan.atControlByte []))).scanning.seq =
      some 7 := by decide +kernel

/-! ### The step -/

/-- Words of the opcode table, placed and run as the first instruction after reset. -/
theorem test_step_runs_table_words :
    result (step (State.reset.withFetchWord 4 0xF)) = some (.capacity 64) ∧
    result (step (State.reset.withFetchWord 16 0x7E04)) = some (.escaped 2 0x7D 0x5E) ∧
    (after (step (State.reset.withFetchWord 8 0x7E))).scanning.frameStart = some 0 ∧
    (after (step (State.reset.withFetchWord 8 0x29))).scanning.kind = some .nack := by decide +kernel
theorem test_step_refuses_malformed_issue :
    refusal (step { State.reset with inputs := [.issue [0x10]] }) = some .malformedIssue := by decide
/-- R20: no scan survives the issue of an operation (`BUF.CLEAR` behind a Flag and an address). -/
theorem test_issue_drops_scan :
    (after (step (inScan 8 (bodyScan 2 1 []) [.issue [0xE]]))).scan = none := by decide
/-- R20 in the sequences of R78: `RX.POLL` in the middle of a scan. -/
theorem test_poll_drops_scan :
    (after (rxPoll 8 (inScan 8 (bodyScan 2 1 []) []))).scan = none := by decide
/-- The five codes of R231. -/
theorem test_port_status :
    portStatus (exec .bufCap State.reset) = some 0 ∧
    portStatus (exec (.frmDec [] 8) State.reset) = some 1 ∧
    portStatus (exec (.frmDec [0x7E, 0x01, 0x7E] 8) State.reset) = some 2 ∧
    portStatus (exec (.ctlEnc 3 1) State.reset) = some 3 ∧
    portStatus (exec (.frmDec [0x7E, 1, 2, 3] 0) State.reset) = some 4 := by decide +kernel
/-- The window's end without a closing Flag (R159). -/
theorem test_step_windowEnd :
    result (step (inScan 8 (bodyScan 3 2 []) [.windowEnd])) = some (.noFrame 0) := by decide
/-- `RX.PUSH` of scenario 2's frame, then `RX.POLL` (R78). -/
theorem test_push_poll :
    result (andThen (rxPush [0x7E, 0xFF, 0x41, 0x0A, 0xA3, 0x7E] (block 8 8 [])) (rxPoll 8)) =
      some (.frame .ack 2 0xFF [] 0 6) := by decide +kernel

/-! ### Witnesses: the hypotheses of the obligations, met together -/

theorem test_meets_DecodeEncodeAgree :
    (Instr.frmEnc 0x7E 3 7 [0x7D] (2 ^ 32 - 1)).wf = true ∧ (Instr.bufErase (2 ^ 32 - 1)).wf = true := by
  decide
theorem test_meets_StepRunsIssuedInstruction :
    State.reset.inputs = [] ∧ decode .op [0xF, 0x11] = .ok (.bufCap, [0x11]) ∧
    decode .op [0xB, 0x11] = .error .truncated := by decide
theorem test_meets_StepRunsWireInstruction :
    let s := inScan 8 Scan.atControlByte [.wire 0x12]
    s.inputs = .wire 0x12 :: [] ∧ s.scanning.frameStart = some 0 ∧ s.scanning.pos = 1 ∧
    State.reset.scanning.frameStart = none := by decide
theorem test_meets_FillWritesOneSuffixCell :
    let s := { block 8 8 [1, 2, 3] with inputs := [.fill 3 0x7E] }
    s.inputs = .fill 3 0x7E :: [] ∧ (s.tail ≤ 3 ∧ 3 < s.params.cap) ∧ (s.tail ≤ 7 ∧ 7 < s.params.cap) ∧
    ¬ (s.tail ≤ 2 ∧ 2 < s.params.cap) ∧ ¬ (s.tail ≤ 8 ∧ 8 < s.params.cap) := by decide
/-- One word on each port. -/
theorem test_meets_FetchWordRunsDecodedInstruction :
    (decodeTableWord 4 0x0 = some .fcsInit ∧ Instr.fcsInit.port = .op) ∧
    (decodeTableWord 8 0x7E = some .wireFlag ∧ Instr.wireFlag.port = .wire) ∧
    (decodeTableWord 8 0x41 = some (.ctrlAck 2 0 0) ∧ (Instr.ctrlAck 2 0 0).port = .ctrl) := by decide
theorem test_meets_EscClauses :
    ((0x7D : Byte) = 0x7E ∨ (0x7D : Byte) = 0x7D) ∧ ¬ ((0x7C : Byte) = 0x7E ∨ (0x7C : Byte) = 0x7D) ∧
    (0x7E : Byte) ≠ 0x7D := by decide
theorem test_meets_CtlDecClassifiesEveryByte :
    (0xFE : Byte).getLsbD 0 = false ∧
    ((0x03 : Byte).getLsbD 0 = true ∧ (0x03 : Byte).extractLsb' 2 2 = 0) ∧
    ((0x05 : Byte).getLsbD 0 = true ∧ (0x05 : Byte).extractLsb' 2 2 ≠ 0) := by decide
/-- A frame of 8 bytes that fits 8 and not 7, and the empty Data payload. -/
theorem test_meets_FrmEncBuildsFrame :
    let f := framedBytes 0xFF .data 1 [0x7E]
    (Kind.data = .data → ([0x7E] : List Byte) ≠ []) ∧ f.length ≤ 8 ∧ ¬ f.length ≤ 7 ∧
    ¬ (Kind.data = .data → ([] : List Byte) ≠ []) := by decide +kernel
theorem test_meets_FrameSizeBound : supportedAddr 0x7C ∧ ¬ supportedAddr 0x7D := by decide
theorem test_meets_FrameRoundTrip :
    Framable 0xFF .data [0x55] ∧ (Kind.data ≠ .data → ([0x55] : List Byte) = []) ∧
    ([0x55] : List Byte).length + 2 ≤ 3 ∧
    ∃ t, exec (.frmEnc 0xFF Kind.data.code 1 [0x55] 7) State.reset = .next t ∧
      t.result = .encoded [0x7E, 0xFF, 0x12, 0x55, 0x36, 0xA3, 0x7E] 7 :=
  ⟨by unfold Framable; decide, by decide, by decide, after (exec (.frmEnc 0xFF 0 1 [0x55] 7) State.reset),
    rfl, by decide +kernel⟩
theorem test_meets_PartialFrameIsNoFrame :
    6 < (framedBytes 0xFF .data 1 [0x55]).length ∧ (payloadOf .data [0x55]).length + 2 ≤ 3 := by
  decide +kernel
/-- A window of `dcap + 3` bytes: the longest that never faults (R162). -/
theorem test_meets_FrmDecCompletes :
    ([0x7E, 1, 2, 3] : List Byte).length ≤ 1 + 3 ∧
    decoded [0x7E, 1, 2, 3] 1 State.reset = .ok (.noFrame 0) := by decide +kernel
theorem test_meets_FrmDecOutcomes :
    decoded [0x7E] 0 State.reset = .ok (.noFrame 0) ∧
    decoded [0x7E, 1, 2, 7, 0x7E] 1 State.reset = .ok (.badFrame (some .data) (some 1) (some 1) 5) ∧
    decoded [0x7E, 0xFF, 0x41, 0x0A, 0xA3, 0x7E] 2 State.reset = .ok (.frame .ack 2 0xFF [] 0 6) := by
  decide +kernel
/-- One body byte more than `dcap`, and no room at all. -/
theorem test_meets_FrmDecOverflowFaults :
    ¬ isReserved 0xFF ∧ ¬ isReserved 0x12 ∧ (∀ b ∈ ([1, 2] : List Byte), ¬ isReserved b) ∧
    1 < ([1, 2] : List Byte).length ∧ 0 < ([1] : List Byte).length ∧
    decoded [0x7E, 0xFF, 0x12, 1, 2] 1 State.reset = .error 4 := by decide +kernel
theorem test_meets_LeadingBytesAreSkipped :
    Config.FLAG ∉ ([0x7D, 1] : List Byte) ∧
    decoded [0x7E, 0xFF, 0x41, 0x0A, 0xA3, 0x7E] 2 State.reset = .ok (.frame .ack 2 0xFF [] 0 6) ∧
    decoded [0x7E, 0xFF, 0x41, 0x0A] 0 State.reset = .error 3 := by decide +kernel
theorem test_meets_TrailingFlagsAreConsumed :
    Framable 0xFF .ack [] ∧ (payloadOf .ack []).length + 2 ≤ 2 ∧ nextIsFlag [] = false ∧
    nextIsFlag [0x00, 0x7E] = false := by unfold Framable; decide
/-- The closing Flag not last, and last. -/
theorem test_meets_TerminalDecodeIsStable :
    decoded [0x7E, 0x01, 0x7E, 0x00] 8 State.reset = .ok (.badFrame none none (some 0x01) 3) ∧
    IsTerminal (.badFrame none none (some 0x01) 3) ∧ 3 < 4 ∧
    decoded [0x7E, 0x01, 0x7E] 8 State.reset = .ok (.badFrame none none (some 0x01) 3) ∧
    nextIsFlag [0x00] = false := ⟨by decide +kernel, trivial, by decide, by decide +kernel, rfl⟩
/-- The four clauses: leading filler, opening, filler inside (either reason), closing with and without
acceptance (the accumulator of a good frame, at distance 4 and 3). -/
theorem test_meets_WireFlagTurn :
    let good : Scan :=
      { bodyScan 4 4 [0x14, 0xC3] with fcs := 0xF0B8, kind := some .data, seq := some 1 }
    (∀ s ∈ [inScan 8 Scan.start [.wire 0x7E], inScan 8 Scan.start [.wire 0x00], inScan 8 good [],
      inScan 8 (bodyScan 1 0 []) []], s.scanning.frameStop = none) ∧
    (inScan 8 Scan.start [.wire 0x7E]).inputs = .wire Config.FLAG :: [] ∧
    (inScan 8 Scan.start [.wire 0x00]).lookAhead = false ∧
    (inScan 8 (bodyScan 1 0 []) []).scanning.i = 0 + 1 ∧
    good.frameStart = some 0 ∧ good.i ≠ 0 + 1 ∧ (0 + 4 ≤ good.i ∧ good.fcs = 0xF0B8 ∧ 2 ≤ good.stored.length) ∧
    good.kind = some .data ∧ good.seq = some 1 ∧ good.addr = some 0xFF ∧
    ¬ (0 + 4 ≤ (bodyScan 3 2 []).i) := by decide
theorem test_meets_WireEscapeTurn :
    State.reset.scanning.frameStop = none ∧ State.reset.scanning.frameStart = none ∧
    (bodyScan 1 0 []).frameStop = none ∧ (bodyScan 1 0 []).frameStart = some 0 := by decide
theorem test_meets_ControlRowsDecodeKindAndSeq :
    let s := inScan 8 Scan.atControlByte []
    s.scanning.frameStop = none ∧ s.scanning.frameStart = some 0 ∧ s.scanning.pos = 1 := by decide
/-- Before the Flag; at position 0; at position 2 with room for one byte and with none. -/
theorem test_meets_ControlRowsElsewhereInAScan :
    (Instr.ctrlAck 2 0 0).port = .ctrl ∧ encode (.ctrlAck 2 0 0) = [0x41] ∧
    (inScan 1 Scan.start []).scanning.frameStart = none ∧
    ((inScan 1 (bodyScan 1 0 []) []).scanning.frameStart = some 0 ∧ (bodyScan 1 0 []).pos = 0) ∧
    (2 ≤ (bodyScan 3 2 []).pos ∧ (bodyScan 3 2 []).stored.length ≠ 1) ∧
    (2 ≤ (bodyScan 4 3 [7]).pos ∧ (bodyScan 4 3 [7]).stored.length = 1) := by decide
/-- A terminal window, one that is not, and one that overflows. -/
theorem test_meets_WireStepsRefineFrmDec :
    let s (w : List Byte) : State := { block 8 0 [] with inputs := w.map Input.wire ++ [.windowEnd] }
    (s [0x7E, 1, 0x7E]).scan = none ∧ (s [0x7E, 1, 0x7E]).inputs = [0x7E, 1, 0x7E].map Input.wire ++ [.windowEnd] ∧
    decoded [0x7E, 1, 0x7E] 0 (s [0x7E, 1, 0x7E]) = .ok (.badFrame none none (some 1) 3) ∧
    decoded [0x7E, 1] 0 (s [0x7E, 1]) = .ok (.noFrame 0) ∧
    decoded [0x7E, 1, 2, 3] 0 (s [0x7E, 1, 2, 3]) = .error 3 := by decide +kernel
theorem test_meets_BufAppendAdvancesTail :
    5 ≤ (block 8 8 [1, 2, 3]).params.cap - (block 8 8 [1, 2, 3]).tail ∧
    (block 8 8 [1, 2, 3]).params.cap - (block 8 8 [1, 2, 3]).tail < 6 := by decide
theorem test_meets_BufEraseDropsOldestBytes :
    0 ≤ (block 8 8 [1, 2, 3]).tail ∧ 3 ≤ (block 8 8 [1, 2, 3]).tail ∧ (block 8 8 [1, 2, 3]).tail < 4 := by
  decide
theorem test_meets_RxPushAppendsBytes :
    ([4, 5, 6, 7, 8] : List Byte).length ≤ (block 8 8 [1, 2, 3]).params.cap - (block 8 8 [1, 2, 3]).tail := by
  decide
/-- A full buffer without a Flag, and one that is not full. -/
theorem test_meets_RxPollRecoversOverflow :
    decoded (block 2 8 [1, 2]).data 8 (block 2 8 [1, 2]) = .ok (.noFrame 0) ∧
    (block 2 8 [1, 2]).tail = (block 2 8 [1, 2]).params.cap ∧
    decoded (block 3 8 [1, 2]).data 8 (block 3 8 [1, 2]) = .ok (.noFrame 0) ∧
    (block 3 8 [1, 2]).tail ≠ (block 3 8 [1, 2]).params.cap := by decide +kernel
/-- Scenario 2's frame in a buffer it fills exactly, cut before its closing Flag. -/
theorem test_meets_ChunkedFrameIsReceived :
    (block 6 8 []).tail = 0 ∧ Framable 0xFF .ack [] ∧
    framedBytes 0xFF .ack 2 [] = [0x7E, 0xFF, 0x41, 0x0A, 0xA3] ++ [0x7E] ∧
    ([0x7E, 0xFF, 0x41, 0x0A, 0xA3] ++ [0x7E] : List Byte).length ≤ (block 6 8 []).params.cap ∧
    (payloadOf .ack []).length + 2 ≤ 2 := by unfold Framable; decide +kernel
/-- In the middle of a scan, at a payload byte; and at rest. -/
theorem test_meets_StepKeepsInvariant :
    let sc := { bodyScan 4 3 [7] with kind := some .data, seq := some 1 }
    (∃ t, (inScan 8 sc [.wire 0x55]).Inv ∧ step (inScan 8 sc [.wire 0x55]) = .next t) ∧
    (∃ t, State.reset.Inv ∧ step State.reset = .next t) := by
  refine ⟨⟨_, ⟨rfl, by decide, by decide, by decide, by decide, by decide, ?_⟩, rfl⟩,
    ⟨State.reset, ⟨rfl, by decide, by decide, by decide, by decide, by decide, nofun⟩, rfl⟩⟩
  rintro sc ⟨⟩
  exact ⟨rfl, by rintro _ ⟨⟩; decide, nofun, rfl, rfl, rfl, rfl, by decide, by decide⟩
theorem test_meets_StepKeepsParameters :
    ∃ t, step { block 8 8 [1] with inputs := [.issue [0xE], .windowEnd] } = .next t := ⟨_, rfl⟩
theorem test_meets_BufClearEmptiesBuffer :
    (block 8 8 []).tail = 0 ∧ (block 8 8 []).params.cap ≤ 8 := by decide
theorem test_meets_OnlyBufferOpsChangeTheBlock :
    ∃ t, exec .bufCap State.reset = .next t ∧ (∀ n, Instr.bufCap ≠ .bufAppend n) ∧
      (∀ k, Instr.bufCap ≠ .bufErase k) ∧ Instr.bufCap ≠ .bufClear := ⟨_, rfl, nofun, nofun, nofun⟩
theorem test_meets_OnlyFrameScansFault :
    fault (exec (.frmDec [0x7E, 1, 2, 3] 0) State.reset) = some (.dstOverflow 3) ∧
    fault (exec (.ctrlAck 2 0 0) (inScan 1 (bodyScan 4 3 [7]) [])) = some (.dstOverflow 4) := by
  decide +kernel

/-- The spec's reading of what the document leaves open. -/
def plainHost : SessionOpen :=
  { badFrameSkipsRead := false
    suppressDuplicates := false
    rxSeqIncrements := 1
    nackFromFrame := false
    nackError := .badData
    answerReceived := false
    replyCap := 8 }

/-- Sequence number 7 is followed by 0 (R264). -/
theorem test_meets_DataFrameIsAcknowledged :
    plainHost.rxSeqIncrements = 1 ∧ plainHost.suppressDuplicates = false ∧
    (({ Session.new 1 0 with rxSeq := 7 }).dispatch plainHost
      (.frame .data 3 0xFF [0x55] 1 7)).session.rxSeq = 0 := by decide
theorem test_meets_OtherFramesAreDispatched :
    plainHost.nackFromFrame = false ∧ (none : Option Kind) ≠ some .data ∧ some Kind.ack ≠ some .data := by
  decide
/-- One millisecond, no retry: the shortest wait. -/
theorem test_meets_UnansweredWriteTimesOut :
    1 ≤ (Session.new 1 0).writeTimeout ∧
    ∃ h, (Session.new 1 0).writeBegin [0x55] = some (.ok h) ∧
      (pollTimes plainHost [0x55] 1 h).2 = some (.error .timeout) := ⟨by decide, _, rfl, rfl⟩


theorem test_meets_WireFlagCompletes :
    State.reset.scanning.frameStop = none ∧ (bodyScan 3 2 []).frameStop = none := by decide
/-- Lanes that are no operation, fills on both sides of the suffix, a window that overflows, and a byte met with
a full and a not quite full destination. -/
theorem test_meets_StopsOfAStep :
    decode .op [0x10] = .error .notASelectCode ∧
    ¬ ((block 8 8 [1]).tail ≤ 0 ∧ 0 < (block 8 8 [1]).params.cap) ∧
    ¬ ((block 8 8 [1]).tail ≤ 8 ∧ 8 < (block 8 8 [1]).params.cap) ∧
    fault (step { State.reset with inputs := [.issue (encode (.frmDec [0x7E, 1, 2, 3] 0))] }) =
      some (.dstOverflow 3) ∧
    fault (step (inScan 1 (bodyScan 4 3 [7]) [.wire 0x55])) = some (.dstOverflow 4) ∧
    fault (step (inScan 2 (bodyScan 4 3 [7]) [.wire 0x55])) = none := by decide +kernel
theorem test_meets_NoScanSurvivesAnOperation :
    let s := inScan 8 (bodyScan 2 1 []) [.issue [0xE]]
    s.inputs = .issue [0xE] :: [] ∧ s.scan.isSome ∧ (∃ t, step s = .next t) ∧
    (∃ t, rxPush [0x7E] s = .next t) ∧ (∃ t, rxPoll 8 s = .next t) :=
  ⟨rfl, rfl, ⟨_, rfl⟩, ⟨_, rfl⟩, ⟨_, rfl⟩⟩

/-! ### The host's two loops -/

/-- A turn in which nothing is closed and every callback succeeds. -/
def turnOf (bytes : List Byte) : TurnInput := ⟨false, TransportRead.ofBytes bytes, 1⟩

/-- Scenario 6: the frame in two reads; the payload comes on the second (R208, R211). -/
theorem test_read_chunked :
    let r := (Session.new 1 0).read plainHost 8
      [turnOf [0x7E, 0xFF, 0x12], turnOf [0x55, 0x36, 0xA3, 0x7E]] (block 16 16 [])
    r.ending = .delivered ⟨[0x55], 0xFF⟩ ∧ r.session.rxSeq = 1 ∧ r.block.tail = 0 := by decide +kernel
/-- Scenario 5 with `rx_seq` 1 (conflict C7): the bad frame is answered with the Nack it prints, the loop goes on,
and the exit returns `BadData` (R212). -/
theorem test_read_badFrame :
    let r := { Session.new 1 0 with rxSeq := 1 }.read plainHost 8
      [turnOf [0x7E, 0xFF, 0x12, 0x33, 0x67, 0xF8, 0x7E], { turnOf [] with closed := true }] (block 16 16 [])
    r.writes = [[0x7E, 0xFF, 0x29, 0x44, 0x4C, 0x7E]] ∧ r.ending = .stopped (some .badData) := by
  decide +kernel
/-- R212: the last decode error is that of sub-step a, `NoMessage` on junk, when sub-step b's decode is a good Ack
(scenario 2's frame). -/
theorem test_read_stopped_after_first_decode :
    ((Session.new 1 0).read plainHost 8
      [turnOf [0x7E, 0xFF, 0x41, 0x0A, 0xA3, 0x7E], { turnOf [] with closed := true }]
      (block 16 16 [0x11])).ending = .stopped (some .noMessage) := by decide +kernel
/-- Scenario 1: the first frame of a session, to the default address (R213); no timeout, so no wait (R214 c). -/
theorem test_write_default_address :
    let r := (Session.new 0 0).write plainHost none [0x55] [⟨1, []⟩] State.reset
    r.writes = [[0x7E, 0xFF, 0x12, 0x55, 0x36, 0xA3, 0x7E]] ∧ r.ending = .returned (.ok 1) := by
  decide +kernel
/-- An empty payload, a transport that fails, a Nack on the last attempt (R213 to R215, R235). -/
theorem test_write_errors :
    ((Session.new 1 0).write plainHost none [] [] State.reset).ending =
      .returned (.error .invalidArgument) ∧
    ((Session.new 1 0).write plainHost none [0x55] [⟨0, []⟩] State.reset).ending =
      .returned (.error (.transport 0)) ∧
    ((Session.new 1 1).write plainHost none [0x55] [⟨1, [.nack]⟩, ⟨1, [.nack]⟩] State.reset).ending =
      .returned (.error plainHost.nackError) := by decide +kernel

/-- Scenario 1's frame cut in three, into a buffer and a destination it fills exactly. -/
theorem test_meets_ReadReceivesAnyChunking :
    plainHost.suppressDuplicates = false ∧ (Session.new 1 0).stopped = false ∧ (block 7 8 []).tail = 0 ∧
    Framable 0xFF .data [0x55] ∧
    [[0x7E], [0xFF, 0x12, 0x55, 0x36], [0xA3, 0x7E]].flatten = framedBytes 0xFF .data 1 [0x55] ∧
    (∀ c ∈ ([[0x7E], [0xFF, 0x12, 0x55, 0x36], [0xA3, 0x7E]] : List (List Byte)), c ≠ []) ∧
    (framedBytes 0xFF .data 1 [0x55]).length ≤ (block 7 8 []).params.cap ∧
    8 ≤ plainHost.replyCap ∧ ([0x55] : List Byte).length + 2 ≤ 3 ∧
    3 ≤ (block 7 8 []).params.cap := by unfold Framable; decide +kernel
/-- Destinations at both edges; a closed and an open turn; a transport that returns 0; and four body bytes behind a
control byte for a destination of three, in the buffer, and cut at the byte that faults. -/
theorem test_meets_ReadEndsWithoutPayload :
    ((0 : Nat) = 0 ∧ (block 8 8 []).params.cap < 9) ∧ (1 ≤ 1 ∧ 8 ≤ (block 8 8 []).params.cap) ∧
    ({ turnOf [] with closed := true } : TurnInput).closed = true ∧
    (Session.new 1 0).stopped = false ∧ (turnOf []).closed = false ∧ (block 8 8 []).tail = 0 ∧
    (turnOf []).chunk.placed = [] ∧ (turnOf []).chunk.value ≤ 0 ∧
    3 ≤ (block 7 8 []).params.cap ∧
    (block 7 8 [0x7E, 1, 2, 3, 4, 5, 6]).tail ≠ 0 ∧
    decoded (block 7 8 [0x7E, 1, 2, 3, 4, 5, 6]).data 3 (block 7 8 [0x7E, 1, 2, 3, 4, 5, 6]) = .error 6 ∧
    (block 7 8 [0x7E, 1, 2, 3, 4, 5]).tail + ([6] : List Byte).length ≤ (block 7 8 []).params.cap ∧
    decoded (block 7 8 [0x7E, 1, 2, 3, 4, 5]).data 3 (block 7 8 [0x7E, 1, 2, 3, 4, 5]) = .ok (.noFrame 0) ∧
    decoded ((block 7 8 [0x7E, 1, 2, 3, 4, 5]).data ++ [6]) 3 (block 7 8 [0x7E, 1, 2, 3, 4, 5]) = .error 6 := by
  decide +kernel
/-- A frame that fills the sink exactly; one millisecond, and none. -/
theorem test_meets_WriteTransmitsSameFrame :
    (0 : Int) < 1 ∧ ([0x55] : List Byte) ≠ [] ∧ (Session.new 1 0).writerLocked = false ∧
    (framedBytes ((none : Option Byte).getD 0xFF) .data ((Session.new 1 0).txSeq + 1) [0x55]).length ≤
      (State.resetWith { cap := 7, wcap := 7, dcap := 8, pmax := 1 }).params.wcap ∧
    1 ≤ (Session.new 1 0).writeTimeout ∧ 0 < (Session.new 1 0).writeTimeout ∧
    (Session.new 0 0).writeTimeout = 0 := by decide +kernel

/-- The Ack of scenario 1 is in the reader's sink, the writer's scratch untouched (R219, U16). -/
theorem test_reply_sink :
    let r := (Session.new 1 0).read plainHost 8 [turnOf [0x7E, 0xFF, 0x12, 0x55, 0x36, 0xA3, 0x7E]] (block 16 16 [])
    r.session.replyOut.map Prod.snd = [0x7E, 0xFF, 0x21, 0x0C, 0xC0, 0x7E] ∧ r.block.out = [] := by decide +kernel
/-- A Data frame is answered, and a payload written behind a held lock. -/
theorem test_meets_RolesKeepToTheirOwn :
    ((Session.new 1 0).read plainHost 8 [turnOf [0x7E, 0xFF, 0x12, 0x55, 0x36, 0xA3, 0x7E]]
      (block 16 16 [])).writes ≠ [] ∧
    ({ Session.new 1 0 with writerLocked := true } : Session).writerLocked = true := by decide +kernel

end Sys2Proof.Tests
end

section
/-! The FCS engine's three operations beside the update: the start value, the two trailing bytes, the residual
test (R104 to R106). -/

namespace Sys2Proof.Machine

/-! ### What the dispatch does with them -/

theorem exec_fcsInit (s : State) :
    exec .fcsInit s = .next (s.withResult (.accumulator Config.FCS_INIT)) := rfl

theorem exec_fcsFinal (acc : Acc) (s : State) :
    exec (.fcsFinal acc) s = .next (s.withResult (.fcsBytes (fcsFinal acc).1 (fcsFinal acc).2)) := rfl

theorem exec_fcsCheck (acc : Acc) (s : State) :
    exec (.fcsCheck acc) s = .next (s.withResult (.check (fcsCheck acc))) := rfl

/-! ### The accumulator at the start of a frame, and at its end -/

@[simp] theorem Enc.start_fcs : Enc.start.fcs = Config.FCS_INIT := rfl

@[simp] theorem Scan.start_fcs : Scan.start.fcs = Config.FCS_INIT := rfl

/-- The first byte appended is bits 7:0 of the inverted accumulator. -/
theorem fcsFinal_fst (acc : Acc) : (fcsFinal acc).1 = (acc ^^^ Config.FCS_XOROUT).extractLsb' 0 8 := by
  rw [fcsFinal, BitVec.setWidth_eq_extractLsb' (by decide)]

/-- The second is bits 15:8. -/
theorem fcsFinal_snd (acc : Acc) : (fcsFinal acc).2 = (acc ^^^ Config.FCS_XOROUT).extractLsb' 8 8 := rfl

end Sys2Proof.Machine

namespace Sys2Proof.Proofs.Fcs

open Sys2Proof.Machine

/-- Settles O8: the dispatch answers with the constant that both halves of the codec start from. -/
theorem fcsInitGivesInitialAccumulator : Obligations.FcsInitGivesInitialAccumulator :=
  ⟨exec_fcsInit, Enc.start_fcs, Scan.start_fcs⟩

/-- Settles O11: the low byte, a truncation in the model, is the slice from bit 0. -/
theorem fcsFinalInvertsAndSplits : Obligations.FcsFinalInvertsAndSplits := by
  intro s acc
  rw [exec_fcsFinal, fcsFinal_fst, fcsFinal_snd, State.withResult]

/-- Settles O12: the Boolean equality test decides equality with the residual. -/
theorem fcsCheckComparesResidual : Obligations.FcsCheckComparesResidual := by
  intro s acc
  rw [exec_fcsCheck, fcsCheck_eq, State.withResult]

end Sys2Proof.Proofs.Fcs
end

section
/-! The reassembly buffer's three reading operations: the writable suffix, the readable prefix and the capacity
(R180, R183, R186). -/

namespace Sys2Proof.Machine

/-! ### The readable prefix, cell by cell -/

@[simp] theorem State.length_data (s : State) : s.data.length = s.tail :=
  Memory.length_readAll .buf s.buf 0 s.tail

/-- Byte `j` of the readable data is cell `j` of `buf`: the prefix starts at cell 0 (R23, R25). -/
theorem State.data_getElem? (s : State) (j : Nat) (hj : j < s.tail) :
    s.data[j]? = some (s.buf.read .buf j) := by
  have hlen : j < s.data.length := by rwa [State.length_data]
  have hcell : s.data[j] = s.buf.read .buf (0 + j) := Memory.getElem_readAll .buf s.buf 0 s.tail j hj
  rw [List.getElem?_eq_getElem hlen, hcell, Nat.zero_add]

/-! ### What the dispatch does with them -/

theorem exec_bufUnused (s : State) : exec .bufUnused s = .next (s.withResult (.unused s.tail s.free)) := rfl

theorem exec_bufData (s : State) : exec .bufData s = .next (s.withResult (.window s.data s.tail)) := rfl

theorem exec_bufCap (s : State) : exec .bufCap s = .next (s.withResult (.capacity s.params.cap)) := rfl

end Sys2Proof.Machine

namespace Sys2Proof.Proofs.Buffer

open Sys2Proof.Machine

/-- Settles O39: the window is the readable data, whose byte `j` is cell `j`. -/
theorem bufDataGivesReadableCells : Obligations.BufDataGivesReadableCells := fun s =>
  ⟨s.data, exec_bufData s, s.length_data, s.data_getElem?⟩

/-- Settles O37: the suffix begins at the tail and holds the free cells. -/
theorem bufUnusedGivesSuffix : Obligations.BufUnusedGivesSuffix := by
  intro s
  rw [exec_bufUnused, State.free, State.withResult]

/-- Settles O42: the capacity is the parameter the block was built with. -/
theorem bufCapGivesCapacity : Obligations.BufCapGivesCapacity := by
  intro s
  rw [exec_bufCap, State.withResult]

end Sys2Proof.Proofs.Buffer
end

section
/-! The decoder reads back what the encoder lays out: the operand lanes in the order of R76, the fields of a control
byte (R66), the reserved wire bytes (R120). -/

namespace Sys2Proof

@[simp] theorem decode_op_cons (b : Byte) (t : List Byte) : decode .op (b :: t) = decodeOp b.toNat t := rfl

@[simp] theorem decode_ctrl_cons (b : Byte) (t : List Byte) :
    decode .ctrl (b :: t) = .ok (decodeControl b, t) := rfl

/-- A lane that was read hands its operand and the lanes behind it on. -/
@[simp] theorem ok_bind_eq {α β : Type} (a : α) (f : α → Except DecodeError β) :
    (Except.ok a >>= f : Except DecodeError β) = f a := rfl

/-- The four operands of `FRM.ENC` before the payload, and the payload behind its length (assumption 9). -/
theorem decodeOp_frmEnc (a : Byte) (k : BitVec 2) (q : Seq) (p t : List Byte) (ocap : Nat)
    (hp : p.length < 2 ^ 32) (ho : ocap < 2 ^ 32) :
    decodeOp 0x8 (a :: k.setWidth 8 :: q.setWidth 8 ::
      (encodeCount p.length ++ (encodeCount ocap ++ (p ++ t)))) = .ok (.frmEnc a k q p ocap, t) := by
  simp [decodeOp, laneNarrow_setWidth, laneCount_encodeCount _ _ hp, laneCount_encodeCount _ _ ho]

theorem decodeOp_frmDec (w t : List Byte) (dcap : Nat) (hw : w.length < 2 ^ 32) (hd : dcap < 2 ^ 32) :
    decodeOp 0x9 (encodeCount w.length ++ (encodeCount dcap ++ (w ++ t))) = .ok (.frmDec w dcap, t) := by
  simp [decodeOp, laneCount_encodeCount _ _ hw, laneCount_encodeCount _ _ hd]

end Sys2Proof

namespace Sys2Proof.Proofs.Codec

/-- Settles O1: row by row, each operand's lane gives the operand back. -/
theorem decodeEncodeAgree : Obligations.DecodeEncodeAgree := by
  intro i rest hwf
  cases i with
  | fcsInit | bufUnused | bufData | bufClear | bufCap | escEnc | ctlDec => rfl
  | fcsUpdate | fcsFinal | fcsCheck => simp [Instr.port, encode, decodeOp]
  | escDec p b => cases p <;> rfl
  | ctlEnc k q => simp [Instr.port, encode, decodeOp, laneNarrow_setWidth]
  | frmEnc a k q p ocap =>
    obtain ⟨hp, ho⟩ : p.length < 2 ^ 32 ∧ ocap < 2 ^ 32 := by simpa [Instr.wf] using hwf
    simpa [Instr.port, encode] using decodeOp_frmEnc a k q p rest ocap hp ho
  | frmDec w d =>
    obtain ⟨hw, hd⟩ : w.length < 2 ^ 32 ∧ d < 2 ^ 32 := by simpa [Instr.wf] using hwf
    simpa [Instr.port, encode] using decodeOp_frmDec w rest d hw hd
  | bufAppend n | bufErase n =>
    have hn : n < 2 ^ 32 := by simpa [Instr.wf] using hwf
    simp [Instr.port, encode, decodeOp, laneCount_encodeCount _ _ hn]
  | ctrlData ns pf nr =>
    exact congrArg (fun i => Except.ok (i, rest)) (decodeControl_controlData ns pf nr)
  | ctrlAck nr pf b1 =>
    exact congrArg (fun i => Except.ok (i, rest)) (decodeControl_controlSuper 0 nr pf b1)
  | ctrlNack nr pf b1 =>
    exact congrArg (fun i => Except.ok (i, rest)) (decodeControl_controlSuper 2 nr pf b1)
  | ctrlUnsupportedS1 nr pf b1 =>
    exact congrArg (fun i => Except.ok (i, rest)) (decodeControl_controlSuper 1 nr pf b1)
  | ctrlUnsupportedS3 nr pf b1 =>
    exact congrArg (fun i => Except.ok (i, rest)) (decodeControl_controlSuper 3 nr pf b1)
  | wireFlag | wireEscape => rfl

/-- Settles O2: the fields a row leaves open and those it fixes are all eight bits (R66, R71). -/
theorem encodeDecodeControl : Obligations.EncodeDecodeControl := by
  intro c
  refine ⟨?_, decodeControl_port c⟩
  revert c
  decide

/-- Settles O3: the ten words, computed. -/
theorem tableWordsDecode : Obligations.TableWordsDecode := by
  unfold Obligations.TableWordsDecode
  decide

end Sys2Proof.Proofs.Codec
end

section
/-! The algebra of the FCS update: eight conditional shifts of the accumulator xored with the byte are both engines
of R102 and R103, and the update's linearity gives the residual law (R107) and its inverses (R109). -/

namespace Sys2Proof.Machine

/-! ### Eight conditional shifts -/

/-- `n` conditional shifts of the polynomial engine (R100, R103). -/
def polyShifts (n : Nat) (v : Acc) : Acc := polyShift^[n] v

theorem tableEntry_eq_polyShifts (i : Byte) : tableEntry i = polyShifts 8 (zext16 i) := rfl

theorem polyShifts_succ (n : Nat) (v : Acc) : polyShifts (n + 1) v = polyShift (polyShifts n v) :=
  Function.iterate_succ_apply' polyShift n v

theorem polyShifts_xor (n : Nat) (v w : Acc) : polyShifts n (v ^^^ w) = polyShifts n v ^^^ polyShifts n w := by
  induction n with
  | zero => rfl
  | succ n ih => simp only [polyShifts_succ, ih, polyShift_xor]

/-- With bit 0 clear a conditional shift is a shift. -/
theorem polyShift_of_even (v : Acc) (h : v.getLsbD 0 = false) : polyShift v = v >>> 1 := by
  rw [polyShift, h]
  rfl

/-- Where the low `n` bits are clear, `n` conditional shifts are shifts. -/
theorem polyShifts_of_low_clear (n : Nat) (v : Acc) (h : ∀ k < n, v.getLsbD k = false) :
    polyShifts n v = v >>> n := by
  induction n with
  | zero => rfl
  | succ n ih =>
    have heven : (v >>> n).getLsbD 0 = false := by
      rw [BitVec.getLsbD_ushiftRight]
      exact h n (Nat.lt_succ_self n)
    rw [polyShifts_succ, ih fun k hk => h k (Nat.lt_succ_of_lt hk), polyShift_of_even _ heven,
      BitVec.shiftRight_add]

/-- An accumulator is its high byte in place and its low byte. -/
theorem high_xor_low (v : Acc) : (v ^^^ zext16 (v.setWidth 8)) ^^^ zext16 (v.setWidth 8) = v := by
  rw [BitVec.xor_assoc, BitVec.xor_self, BitVec.xor_zero]

/-- The table form of eight shifts: the high byte comes down and the low byte selects the entry (R100, R102). -/
theorem polyShifts_eight (v : Acc) : polyShifts 8 v = (v >>> 8) ^^^ tableEntry (v.setWidth 8) := by
  have clear : ∀ k < 8, (v ^^^ zext16 (v.setWidth 8)).getLsbD k = false := by
    intro k hk
    simp [hk, Nat.lt_trans hk (by decide : 8 < 16)]
  have high : (v ^^^ zext16 (v.setWidth 8)) >>> 8 = v >>> 8 := by
    ext k hk
    simp [BitVec.getLsbD_setWidth]
  calc polyShifts 8 v
      = polyShifts 8 ((v ^^^ zext16 (v.setWidth 8)) ^^^ zext16 (v.setWidth 8)) := by rw [high_xor_low]
    _ = (v >>> 8) ^^^ tableEntry (v.setWidth 8) := by
      rw [polyShifts_xor, polyShifts_of_low_clear 8 _ clear, high, tableEntry_eq_polyShifts]

/-- The update is eight conditional shifts of the accumulator xored with the byte. -/
theorem fcsUpdate_eq_polyShifts (s : Acc) (b : Byte) : fcsUpdate s b = polyShifts 8 (s ^^^ zext16 b) := by
  have hhigh : (s ^^^ zext16 b) >>> 8 = s >>> 8 := by
    ext k hk
    simp [BitVec.getLsbD_setWidth]
  rw [polyShifts_eight, hhigh, fcsUpdate_eq]

/-! ### The polynomial engine -/

/-- A step of the engine leaves `v` where a conditional shift leaves `v` with the byte's bits from `k` on; the bits
that are still to come are shifted along (R103). -/
theorem polyShift_xor_pending (b : Byte) (v : Acc) (k : Nat) :
    polyShift (v ^^^ zext16 b >>> k) = polyStep b v k ^^^ zext16 b >>> (k + 1) := by
  have bit : (zext16 b >>> k).getLsbD 0 = b.getLsbD k := by
    simp [BitVec.getLsbD_setWidth]
    intro h
    exact BitVec.lt_of_getLsbD h |>.trans (by decide)
  unfold polyShift polyStep
  rw [BitVec.getLsbD_xor, bit, BitVec.ushiftRight_xor_distrib, ← BitVec.shiftRight_add]
  split
  · ac_rfl
  · rfl

/-- After the bits below `n`, the engine is `n` conditional shifts short of the bits that are still to come. -/
theorem polyShifts_eq_serial (s : Acc) (b : Byte) (n : Nat) :
    polyShifts n (s ^^^ zext16 b) = (List.range n).foldl (polyStep b) s ^^^ zext16 b >>> n := by
  induction n with
  | zero => rfl
  | succ n ih =>
    rw [polyShifts_succ, ih, polyShift_xor_pending, List.range_succ, List.foldl_append]
    rfl

theorem fcsUpdate_eq_serial (s : Acc) (b : Byte) : fcsUpdate s b = fcsUpdateSerial s b := by
  have hnone : zext16 b >>> 8 = 0#16 := by
    ext k hk
    simp [BitVec.getLsbD_setWidth]
  rw [fcsUpdate_eq_polyShifts, polyShifts_eq_serial, hnone, BitVec.xor_zero]
  rfl

/-! ### The residual -/

/-- An accumulator's own low byte cancels it (R102). -/
theorem fcsUpdate_own_byte (s : Acc) : fcsUpdate s (s.setWidth 8) = s >>> 8 := by
  have hzero : (s ^^^ zext16 (s.setWidth 8)).setWidth 8 = 0#8 := by
    ext k hk
    simp
  rw [fcsUpdate_eq, hzero]
  exact BitVec.xor_zero

/-- What an update adds to an accumulator's own low byte, it adds to the result. -/
theorem fcsUpdate_xor_own_byte (s u : Acc) (b : Byte) :
    fcsUpdate (s ^^^ u) (s.setWidth 8 ^^^ b) = s >>> 8 ^^^ fcsUpdate u b := by
  rw [fcsUpdate_xor, fcsUpdate_own_byte]

theorem highByte_eq (s : Acc) : s.extractLsb' 8 8 = (s >>> 8).setWidth 8 := by
  ext k hk
  simp

/-- The two bytes of `FCS.FINAL`, each the accumulator's own byte inverted, take every accumulator to the residual
(R105, R107). -/
theorem fcsFold_fcsFinal (s : Acc) : fcsFold s [(fcsFinal s).1, (fcsFinal s).2] = Config.FCS_GOOD := by
  have hlo : (fcsFinal s).1 = s.setWidth 8 ^^^ 0xFF := by
    rw [fcsFinal, BitVec.setWidth_xor]
    rfl
  have hhi : (fcsFinal s).2 = (s >>> 8).setWidth 8 ^^^ 0xFF := by
    rw [fcsFinal_snd, highByte_eq, BitVec.ushiftRight_xor_distrib, BitVec.setWidth_xor]
    rfl
  have hgone : s >>> 8 >>> 8 = 0#16 := by
    ext k hk
    simp
  calc fcsFold s [(fcsFinal s).1, (fcsFinal s).2]
      = fcsUpdate (fcsUpdate (s ^^^ 0#16) (s.setWidth 8 ^^^ 0xFF)) ((s >>> 8).setWidth 8 ^^^ 0xFF) := by
        rw [fcsFold_cons, fcsFold_cons, fcsFold_nil, hlo, hhi, BitVec.xor_zero]
    _ = 0#16 ^^^ fcsUpdate (fcsUpdate 0#16 0xFF) 0xFF := by
        rw [fcsUpdate_xor_own_byte, fcsUpdate_xor_own_byte, hgone]
    _ = Config.FCS_GOOD := by decide +kernel

/-! ### The inverses -/

theorem polyShift_eq_zero {v : Acc} (h : polyShift v = 0#16) : v = 0#16 := by
  unfold polyShift at h
  split at h
  · have htop : (v >>> 1).getLsbD 15 = Config.FCS_POLY.getLsbD 15 :=
      congrArg (BitVec.getLsbD · 15) (BitVec.xor_eq_zero_iff.1 h)
    rw [BitVec.getLsbD_ushiftRight, BitVec.getLsbD_of_ge _ _ (by decide)] at htop
    exact absurd htop (by decide)
  · rename_i hlow
    refine BitVec.eq_of_getLsbD_eq fun k hk => ?_
    cases k with
    | zero => simpa using hlow
    | succ k =>
      have hbit : (v >>> 1).getLsbD k = false := by rw [h]; exact BitVec.getLsbD_zero
      rw [BitVec.getLsbD_ushiftRight, Nat.add_comm] at hbit
      rw [hbit, BitVec.getLsbD_zero]

theorem polyShift_injective : Function.Injective polyShift := by
  intro v w h
  have hzero : polyShift (v ^^^ w) = 0#16 := by rw [polyShift_xor, h, BitVec.xor_self]
  exact BitVec.xor_eq_zero_iff.1 (polyShift_eq_zero hzero)

/-- Two updates agree exactly when accumulator and byte differ in the same bits (R109). -/
theorem fcsUpdate_inj {s t : Acc} {b c : Byte} :
    fcsUpdate s b = fcsUpdate t c ↔ s ^^^ zext16 b = t ^^^ zext16 c := by
  rw [fcsUpdate_eq_polyShifts, fcsUpdate_eq_polyShifts]
  exact (polyShift_injective.iterate 8).eq_iff

theorem zext16_injective : Function.Injective zext16 := by
  intro b c h
  have hb : (zext16 b).setWidth 8 = (zext16 c).setWidth 8 := congrArg (BitVec.setWidth 8) h
  simpa using hb

theorem fcsUpdate_injective_byte (s : Acc) : Function.Injective (fcsUpdate s) := fun _ _ h =>
  zext16_injective (BitVec.xor_right_inj s |>.1 (fcsUpdate_inj.1 h))

theorem fcsUpdate_injective_acc (b : Byte) : Function.Injective fun s => fcsUpdate s b := fun _ _ h =>
  BitVec.xor_left_inj (zext16 b) |>.1 (fcsUpdate_inj.1 h)

/-- Of the table's entries only the first has no high byte. -/
theorem tableEntry_high_eq_zero (i : Byte) (h : tableEntry i >>> 8 = 0#16) : i = 0#8 := by
  revert i
  decide +kernel

/-- What two bytes add to an accumulator is the table's entry at the bits they differ in. -/
theorem fcsUpdate_xor_same (s : Acc) (b c : Byte) : fcsUpdate s b ^^^ fcsUpdate s c = tableEntry (b ^^^ c) := by
  rw [← fcsUpdate_xor, BitVec.xor_self, fcsUpdate_eq_polyShifts, BitVec.zero_xor, tableEntry_eq_polyShifts]

theorem xor_eq_xor_swap {v w x y : Acc} (h : v ^^^ x = w ^^^ y) : v ^^^ w = x ^^^ y := by
  rw [← BitVec.xor_eq_zero_iff] at h ⊢
  rw [← h]
  ac_rfl

/-- Two pairs of bytes are told apart by where they take an accumulator (R109). -/
theorem fcsFold_pair_injective (s : Acc) :
    Function.Injective fun p : Byte × Byte => fcsFold s [p.1, p.2] := by
  rintro ⟨b, c⟩ ⟨b', c'⟩ h
  have hentry : tableEntry (b ^^^ b') = zext16 (c ^^^ c') := by
    have hstep : fcsUpdate s b ^^^ zext16 c = fcsUpdate s b' ^^^ zext16 c' := fcsUpdate_inj.1 h
    rw [← fcsUpdate_xor_same s, zext16, BitVec.setWidth_xor]
    exact xor_eq_xor_swap hstep
  have hfirst : b = b' := by
    refine BitVec.xor_eq_zero_iff.1 (tableEntry_high_eq_zero _ ?_)
    rw [hentry]
    ext k hk
    simp
  subst hfirst
  exact congrArg (b, ·) (fcsUpdate_injective_byte _ h)

theorem card_bitVec (n : Nat) : Fintype.card (BitVec n) = 2 ^ n := by
  rw [← FinEnum.card_eq_fintypeCard, FinEnum.card_bitVec]

/-- There are as many pairs of bytes as accumulators. -/
theorem card_bytePair : Fintype.card (Byte × Byte) = Fintype.card Acc := by
  rw [Fintype.card_prod, card_bitVec, card_bitVec, ← Nat.pow_add]

theorem fcsFold_pair_bijective (s : Acc) :
    Function.Bijective fun p : Byte × Byte => fcsFold s [p.1, p.2] :=
  (Fintype.bijective_iff_injective_and_card _).2 ⟨fcsFold_pair_injective s, card_bytePair⟩

theorem exec_fcsUpdate (acc : Acc) (b : Byte) (s : State) :
    exec (.fcsUpdate acc b) s = .next (s.withResult (.accumulator (fcsUpdate acc b))) := rfl

end Sys2Proof.Machine

namespace Sys2Proof.Proofs.FcsUpdate

open Sys2Proof.Machine

/-- Settles O9: the printed table is the generated one. -/
theorem fcsUpdateIsTableStep : Obligations.FcsUpdateIsTableStep := by
  intro s acc b
  rw [exec_fcsUpdate, fcsUpdate_eq, BitVec.setWidth_eq_extractLsb' (by decide), State.withResult]

/-- Settles O10: both engines are eight conditional shifts of the accumulator xored with the byte. -/
theorem polynomialEngineEqualsTable : Obligations.PolynomialEngineEqualsTable := by
  intro s acc b
  rw [exec_fcsUpdate, fcsUpdate_eq_serial]

/-- Settles O13: whatever the message left, its own FCS bytes take it to the residual. -/
theorem residualLaw : Obligations.ResidualLaw := by
  intro m acc
  rw [fcsFold_append]
  exact fcsFold_fcsFinal acc

/-- Settles O14: the conditional shift is injective, and there are as many pairs of bytes as accumulators. -/
theorem fcsUpdateIsInvertible : Obligations.FcsUpdateIsInvertible :=
  ⟨fcsUpdate_injective_byte, fun b => Finite.injective_iff_bijective.1 (fcsUpdate_injective_acc b),
    fun target => (fcsFold_pair_bijective Config.FCS_INIT).existsUnique target⟩

end Sys2Proof.Proofs.FcsUpdate
end

section
/-! The escaper and the control byte: the cases of R121, R122, R130 and R150, and their inverse laws (R123, R150). -/

namespace Sys2Proof.Machine

/-! ### The escaper -/

theorem execEscEnc_reserved (b : Byte) (s : State) (h : isReserved b) :
    execEscEnc b s = .next (s.withResult (.escaped 2 Config.ESC (b ^^^ Config.ESC_MASK))) := if_pos h

theorem execEscEnc_plain (b : Byte) (s : State) (h : ¬ isReserved b) :
    execEscEnc b s = .next (s.withFreeLane (.escaped 1 b)) := if_neg h

theorem escEnc_reserved {b : Byte} (h : isReserved b) : escEnc b = [Config.ESC, b ^^^ Config.ESC_MASK] := if_pos h

theorem escEnc_plain {b : Byte} (h : ¬ isReserved b) : escEnc b = [b] := if_neg h

@[simp] theorem escDec_escape (pending : Bool) : escDec pending Config.ESC = (true, none) := if_pos rfl

theorem escDec_byte (pending : Bool) {b : Byte} (h : b ≠ Config.ESC) :
    escDec pending b = (false, some (unescape pending b)) := if_neg h

theorem execEscDec_byte (pending : Bool) {b : Byte} (h : b ≠ Config.ESC) (s : State) :
    execEscDec pending b s = .next (s.withResult (.unescaped false true (unescape pending b))) := by
  rw [execEscDec, escDec_byte pending h]

/-- The byte behind an Escape is no Escape, and unescaping it gives the reserved byte back (R123). -/
theorem unescape_masked {b : Byte} (h : isReserved b) :
    b ^^^ Config.ESC_MASK ≠ Config.ESC ∧ unescape true (b ^^^ Config.ESC_MASK) = b := by
  rcases h with rfl | rfl <;> decide

/-! ### The control byte -/

@[simp] theorem Kind.ofCode_code (k : Kind) : Kind.ofCode k.code = some k := by cases k <;> rfl

theorem execCtlEnc_some {k : BitVec 2} {kind : Kind} (h : Kind.ofCode k = some kind) (q : Seq) (s : State) :
    execCtlEnc k q s = .next (s.withResult (.control (ctlEnc kind q))) := by
  rw [execCtlEnc, h]

theorem execCtlEnc_none {k : BitVec 2} (h : Kind.ofCode k = none) (q : Seq) (s : State) :
    execCtlEnc k q s = .next (s.withResult .invalidArgument) := by
  rw [execCtlEnc, h]

@[simp] theorem ctlDec_ctlEnc (k : Kind) (q : Seq) : ctlDec (ctlEnc k q) = (k, q) := by
  cases k <;> (revert q; decide)

theorem not_isReserved_ctlEnc (k : Kind) (q : Seq) : ¬ isReserved (ctlEnc k q) := by
  cases k <;> (revert q; decide)

theorem ctlDec_data {c : Byte} (h : c.getLsbD 0 = false) : ctlDec c = (.data, c.extractLsb' 1 3) := if_pos h

theorem ctlDec_ack {c : Byte} (h : c.getLsbD 0 = true) (hs : c.extractLsb' 2 2 = 0) :
    ctlDec c = (.ack, c.extractLsb' 5 3) := by
  rw [ctlDec, if_neg (by simp [h]), if_pos hs]

theorem ctlDec_nack {c : Byte} (h : c.getLsbD 0 = true) (hs : c.extractLsb' 2 2 ≠ 0) :
    ctlDec c = (.nack, c.extractLsb' 5 3) := by
  rw [ctlDec, if_neg (by simp [h]), if_neg hs]

theorem exec_ctlDec (c : Byte) (s : State) :
    exec (.ctlDec c) s = .next (s.withResult (.kindSeq (ctlDec c).1 (ctlDec c).2)) := rfl

end Sys2Proof.Machine

namespace Sys2Proof.Proofs.Bytes

open Sys2Proof.Machine

/-- Settles O15: the two cases of R121. -/
theorem escEncEscapesReservedBytes : Obligations.EscEncEscapesReservedBytes := fun s b =>
  ⟨execEscEnc_reserved b s, fun h => ⟨_, execEscEnc_plain b s h⟩⟩

/-- Settles O16: the two cases of R122. -/
theorem escDecUnescapesOneByte : Obligations.EscDecUnescapesOneByte := by
  intro s pending b
  constructor
  · rintro rfl
    exact ⟨_, rfl⟩
  · intro h
    exact execEscDec_byte pending h s

/-- Settles O17: a reserved byte comes back through the pending escape, any other byte as it is. -/
theorem escaperInverseLaw : Obligations.EscaperInverseLaw := by
  intro b
  refine ⟨?_, flag_not_mem_escEnc b⟩
  by_cases h : isReserved b
  · obtain ⟨hesc, hback⟩ := unescape_masked h
    rw [escEnc_reserved h, List.foldl_cons, List.foldl_cons, List.foldl_nil, escDec_escape,
      escDec_byte true hesc, hback]
    rfl
  · have hesc : b ≠ Config.ESC := fun e => h (.inr e)
    rw [escEnc_plain h, List.foldl_cons, List.foldl_nil, escDec_byte false hesc]
    rfl

/-- Settles O18: the four operand values. -/
theorem ctlEncBuildsControlByte : Obligations.CtlEncBuildsControlByte := fun _ _ => ⟨rfl, rfl, rfl, rfl⟩

/-- Settles O19: the three branches of R150. -/
theorem ctlDecClassifiesEveryByte : Obligations.CtlDecClassifiesEveryByte := by
  intro s c
  refine ⟨fun h => ?_, fun h hs => ?_, fun h hs => ?_⟩ <;> rw [exec_ctlDec, State.withResult]
  · rw [ctlDec_data h]
  · rw [ctlDec_ack h hs]
  · rw [ctlDec_nack h hs]

/-- Settles O20: for each kind, all eight numbers. -/
theorem controlByteRoundTrip : Obligations.ControlByteRoundTrip := fun k q =>
  ⟨ctlDec_ctlEnc k q, not_isReserved_ctlEnc k q⟩

end Sys2Proof.Proofs.Bytes
end

section
/-! What a step does with each kind of input, said once: the issue of an operation, a raw wire byte, the end of the
window, the transport's fill. -/

namespace Sys2Proof.Machine

/-! ### The control-byte rows -/

theorem exists_encode_of_ctrl {i : Instr} (h : i.port = .ctrl) : ∃ c, encode i = [c] := by
  cases i with
  | ctrlData | ctrlAck | ctrlNack | ctrlUnsupportedS1 | ctrlUnsupportedS3 => exact ⟨_, rfl⟩
  | _ => exact nomatch h

/-- Every control-byte row is its byte met by the scan in progress (R157). -/
theorem exec_ctrl {i : Instr} {c : Byte} (h : i.port = .ctrl) (hc : encode i = [c]) (s : State) :
    exec i s = s.controlByte c := by
  cases i with
  | ctrlData | ctrlAck | ctrlNack | ctrlUnsupportedS1 | ctrlUnsupportedS3 => cases hc; rfl
  | _ => exact nomatch h

theorem exec_decodeControl (c : Byte) (s : State) : exec (decodeControl c) s = s.controlByte c :=
  exec_ctrl (decodeControl_port c) (Proofs.Codec.encodeDecodeControl c).1 s

/-- A plain byte is its unescaped value met by the scan in progress (R155). -/
theorem State.plainByte_eq (s : State) (b : Byte) :
    s.plainByte b = s.controlByte (unescape s.scanning.escapePending b) := rfl

theorem State.atControl_iff (s : State) :
    s.atControl = true ↔ (∃ start, s.scanning.frameStart = some start) ∧ s.scanning.pos = 1 := by
  simp [State.atControl, Option.isSome_iff_exists]

/-! ### The row a wire byte stands for -/

theorem decode_wire_other {b : Byte} (hf : b ≠ Config.FLAG) (he : b ≠ Config.ESC) (t : List Byte) :
    decode .wire (b :: t) = .error .notReserved := by
  rw [decode, if_neg hf, if_neg he]

theorem State.wireInstr_other (s : State) {b : Byte} (hf : b ≠ Config.FLAG) (he : b ≠ Config.ESC) :
    s.wireInstr b =
      if s.atControl then some (decodeControl (unescape s.scanning.escapePending b)) else none := by
  rw [State.wireInstr, decode_wire_other hf he]

/-! ### One step -/

section step

variable {s : State} {rest : List Input}

theorem step_idle (h : s.inputs = []) : step s = .next s := by
  rw [step, h]

theorem step_issue_ok {lanes spare : List Byte} {i : Instr} (h : s.inputs = .issue lanes :: rest)
    (hd : decode .op lanes = .ok (i, spare)) : step s = exec i { s with inputs := rest, scan := none } := by
  rw [step, h]
  dsimp only
  rw [hd]
  rfl

theorem step_issue_error {lanes : List Byte} {e : DecodeError} (h : s.inputs = .issue lanes :: rest)
    (hd : decode .op lanes = .error e) : step s = .refused .malformedIssue := by
  rw [step, h]
  dsimp only
  rw [hd]

theorem step_wire_instr {b : Byte} {i : Instr} (h : s.inputs = .wire b :: rest) (hi : s.wireInstr b = some i) :
    step s = exec i { s with inputs := rest } := by
  rw [step, h]
  dsimp only
  rw [hi]

theorem step_wire_none {b : Byte} (h : s.inputs = .wire b :: rest) (hi : s.wireInstr b = none) :
    step s = State.plainByte { s with inputs := rest } b := by
  rw [step, h]
  dsimp only
  rw [hi]

theorem step_wire_flag (h : s.inputs = .wire Config.FLAG :: rest) :
    step s = exec .wireFlag { s with inputs := rest } := step_wire_instr h rfl

theorem step_wire_escape (h : s.inputs = .wire Config.ESC :: rest) :
    step s = exec .wireEscape { s with inputs := rest } := step_wire_instr h rfl

/-- Any other byte, unescaped, meets the scan in progress, whether or not a row of the table names it. -/
theorem step_wire_other {b : Byte} (h : s.inputs = .wire b :: rest) (hf : b ≠ Config.FLAG) (he : b ≠ Config.ESC) :
    step s = State.controlByte { s with inputs := rest } (unescape s.scanning.escapePending b) := by
  have hrow := s.wireInstr_other hf he
  split at hrow
  · rw [step_wire_instr h hrow, exec_decodeControl]
  · rw [step_wire_none h hrow, State.plainByte_eq]
    rfl

theorem step_windowEnd (h : s.inputs = .windowEnd :: rest) :
    step s = .next (State.deliver { s with inputs := rest, scan := none } s.params.dcap s.scanning) := by
  rw [step, h]
  rfl

/-- The transport's fill of a cell of the suffix (R181). -/
theorem step_fill_inside {x : Nat} {b : Byte} (h : s.inputs = .fill x b :: rest)
    (hx : s.tail ≤ x ∧ x < s.params.cap) : step s = .next { s with inputs := rest, buf := s.buf.write x b } := by
  rw [step, h]
  exact if_pos hx

theorem step_fill_outside {x : Nat} {b : Byte} (h : s.inputs = .fill x b :: rest)
    (hx : ¬ (s.tail ≤ x ∧ x < s.params.cap)) : step s = .refused .fillOutsideSuffix := by
  rw [step, h]
  exact if_neg hx

end step

theorem decode_op_port {lanes spare : List Byte} {i : Instr} (h : decode .op lanes = .ok (i, spare)) :
    i.port = .op := by
  cases lanes with
  | nil => exact nomatch h
  | cons b t => exact decode_port h

/-- What a step comes to, by its oldest input. -/
inductive StepCase (s : State) : Prop where
  | idle (hin : s.inputs = []) (hstep : step s = .next s)
  | issued (lanes rest spare) (i : Instr) (hin : s.inputs = .issue lanes :: rest)
      (hdec : decode .op lanes = .ok (i, spare)) (hport : i.port = .op)
      (hstep : step s = exec i { s with inputs := rest, scan := none })
  | malformed (lanes rest e) (hin : s.inputs = .issue lanes :: rest) (hdec : decode .op lanes = .error e)
      (hstep : step s = .refused .malformedIssue)
  | flag (rest) (hin : s.inputs = .wire Config.FLAG :: rest)
      (hstep : step s = exec .wireFlag { s with inputs := rest })
  | escape (rest) (hin : s.inputs = .wire Config.ESC :: rest)
      (hstep : step s = exec .wireEscape { s with inputs := rest })
  | other (b rest) (hin : s.inputs = .wire b :: rest) (hflag : b ≠ Config.FLAG) (hesc : b ≠ Config.ESC)
      (hstep : step s = State.controlByte { s with inputs := rest } (unescape s.scanning.escapePending b))
  | windowEnd (rest) (hin : s.inputs = .windowEnd :: rest)
      (hstep : step s = .next (State.deliver { s with inputs := rest, scan := none } s.params.dcap s.scanning))
  | filled (x b rest) (hin : s.inputs = .fill x b :: rest) (hx : s.tail ≤ x ∧ x < s.params.cap)
      (hstep : step s = .next { s with inputs := rest, buf := s.buf.write x b })
  | denied (x b rest) (hin : s.inputs = .fill x b :: rest) (hx : ¬ (s.tail ≤ x ∧ x < s.params.cap))
      (hstep : step s = .refused .fillOutsideSuffix)

theorem step_case (s : State) : StepCase s := by
  cases hin : s.inputs with
  | nil => exact .idle hin (step_idle hin)
  | cons input rest =>
    cases input with
    | issue lanes =>
      cases hdec : decode .op lanes with
      | error e => exact .malformed lanes rest e hin hdec (step_issue_error hin hdec)
      | ok d => exact .issued lanes rest d.2 d.1 hin hdec (decode_op_port hdec) (step_issue_ok hin hdec)
    | wire b =>
      by_cases hf : b = Config.FLAG
      · subst hf
        exact .flag rest hin (step_wire_flag hin)
      · by_cases he : b = Config.ESC
        · subst he
          exact .escape rest hin (step_wire_escape hin)
        · exact .other b rest hin hf he (step_wire_other hin hf he)
    | windowEnd => exact .windowEnd rest hin (step_windowEnd hin)
    | fill x b =>
      by_cases hx : s.tail ≤ x ∧ x < s.params.cap
      · exact .filled x b rest hin hx (step_fill_inside hin hx)
      · exact .denied x b rest hin hx (step_fill_outside hin hx)

/-! ### A placed table word -/

theorem lanesOfWord_eq (nbits w : Nat) :
    lanesOfWord nbits w = BitVec.ofNat 8 (w % 2 ^ nbits) :: bytesOf 11 (w % 2 ^ nbits / 0x100) := rfl

/-- A word on the control port is no reserved byte. -/
theorem not_reserved_of_ctrl_word {w : Nat} (h : portOfWord w = .ctrl) :
    BitVec.ofNat 8 w ≠ Config.FLAG ∧ BitVec.ofNat 8 w ≠ Config.ESC := by
  have value (c : Byte) (hc : BitVec.ofNat 8 w = c) : w % 0x100 = c.toNat := by
    rw [← hc, BitVec.toNat_ofNat]
  refine ⟨fun hc => ?_, fun hc => ?_⟩ <;> simp [portOfWord, value _ hc] at h

theorem decodeTableWord_eq_some {nbits w : Nat} {i : Instr} (h : decodeTableWord nbits w = some i) :
    ∃ spare, decode (portOfWord (w % 2 ^ nbits)) (lanesOfWord nbits w) = .ok (i, spare) := by
  unfold decodeTableWord at h
  split at h
  · cases h
    exact ⟨_, ‹_›⟩
  · exact nomatch h

/-- What a reserved byte stands for does not depend on what follows it. -/
theorem decode_wire_cons {b : Byte} {t spare : List Byte} {i : Instr}
    (h : decode .wire (b :: t) = .ok (i, spare)) : decode .wire [b] = .ok (i, []) := by
  simp only [decode] at h ⊢
  split at h
  · cases h; rw [if_pos ‹_›]
  · split at h
    · cases h; rw [if_neg ‹_›, if_pos ‹_›]
    · exact nomatch h

end Sys2Proof.Machine

namespace Sys2Proof.Proofs.Step

open Sys2Proof.Machine

/-- Settles O4: the rules for an empty queue and for an issue. -/
theorem stepRunsIssuedInstruction : Obligations.StepRunsIssuedInstruction := fun _ =>
  ⟨step_idle, fun _ _ hin => ⟨fun _ _ hd => step_issue_ok hin hd, fun _ hd => step_issue_error hin hd⟩⟩

/-- Settles O5: the three kinds of a raw byte, the last by the scan's position. -/
theorem stepRunsWireInstruction : Obligations.StepRunsWireInstruction := by
  intro s b rest hin
  refine ⟨?_, ?_, fun hf he => ⟨fun hat => ?_, fun hat => ?_⟩⟩
  · rintro rfl; exact step_wire_flag hin
  · rintro rfl; exact step_wire_escape hin
  · have hrow := s.wireInstr_other hf he
    rw [if_pos (s.atControl_iff.2 hat)] at hrow
    exact step_wire_instr hin hrow
  · have hrow := s.wireInstr_other hf he
    rw [if_neg fun h => hat (s.atControl_iff.1 h)] at hrow
    exact step_wire_none hin hrow

/-- Settles O6: a fill is one write of `buf`, inside the suffix only. -/
theorem fillWritesOneSuffixCell : Obligations.FillWritesOneSuffixCell := by
  intro s x b rest hin
  exact ⟨fun hx => ⟨s.buf.write x b, step_fill_inside hin hx, Memory.read_write_same _ _ _ _,
    fun y hy => Memory.read_write_other _ _ _ _ _ hy⟩, step_fill_outside hin⟩

/-- Settles O7: on each port, the byte or the lanes placed decode to the word's own instruction. -/
theorem fetchWordRunsDecodedInstruction : Obligations.FetchWordRunsDecodedInstruction := by
  intro s nbits w i h
  obtain ⟨spare, hdec⟩ := decodeTableWord_eq_some h
  have hport : i.port = portOfWord (w % 2 ^ nbits) := decode_port (lanesOfWord_eq nbits w ▸ hdec)
  rw [hport]
  cases hword : portOfWord (w % 2 ^ nbits) with
  | op =>
    rw [hword] at hdec
    refine ⟨none, ?_, fun _ => rfl, nofun, nofun⟩
    rw [State.withFetchWord, hword]
    exact step_issue_ok (rest := s.inputs) rfl hdec
  | wire =>
    rw [hword, lanesOfWord_eq] at hdec
    refine ⟨s.scan, ?_, nofun, fun _ => rfl, nofun⟩
    rw [State.withFetchWord, hword]
    refine step_wire_instr (rest := s.inputs) rfl ?_
    rw [State.wireInstr, decode_wire_cons hdec]
  | ctrl =>
    rw [hword, lanesOfWord_eq] at hdec
    cases hdec
    obtain ⟨hf, he⟩ := not_reserved_of_ctrl_word hword
    refine ⟨some Scan.atControlByte, ?_, nofun, nofun, fun _ => rfl⟩
    rw [State.withFetchWord, hword]
    refine step_wire_instr (rest := s.inputs) rfl ?_
    rw [State.wireInstr_other _ hf he]
    rfl

end Sys2Proof.Proofs.Step
end

section
/-! The frame encoder as an operation: the frame of R60 to R63 when it fits, its size and its shape (R65, R139). -/

namespace Sys2Proof.Machine

/-- The bytes between the two Flags: the escaped body with its FCS bytes (R60, R63). -/
def bodyBytes (addr : Byte) (k : Kind) (q : Seq) (p : List Byte) : List Byte :=
  (addr :: ctlEnc k q :: (payloadOf k p ++
    [(fcsFinal (fcsFold Config.FCS_INIT (coveredBytes addr k q p))).1,
      (fcsFinal (fcsFold Config.FCS_INIT (coveredBytes addr k q p))).2])).flatMap escEnc

theorem framedBytes_eq (addr : Byte) (k : Kind) (q : Seq) (p : List Byte) :
    framedBytes addr k q p = [Config.FLAG] ++ bodyBytes addr k q p ++ [Config.FLAG] := by
  rw [framedBytes, bodyBytes, fcsFinal_fst, fcsFinal_snd]
  rfl

theorem frameEncode_framed (addr : Byte) (k : Kind) (q : Seq) (p : List Byte) (ocap : Nat) :
    frameEncode addr k q p ocap =
      if (k = .data → p ≠ []) ∧ (framedBytes addr k q p).length ≤ ocap then some (framedBytes addr k q p)
      else none := by
  rw [framedBytes_eq, frameEncode_eq]
  rfl

theorem exec_frmEnc_fits {addr : Byte} {k : Kind} {q : Seq} {p : List Byte} {ocap : Nat}
    (h : (k = .data → p ≠ []) ∧ (framedBytes addr k q p).length ≤ ocap) (s : State) :
    exec (.frmEnc addr k.code q p ocap) s = .next (encodeDone (framedBytes addr k q p) s) := by
  show execFrmEnc addr k.code q p ocap s = _
  rw [execFrmEnc, Kind.ofCode_code]
  dsimp only
  rw [frameEncode_framed, if_pos h]

theorem exec_frmEnc_rejected {addr : Byte} {k : Kind} {q : Seq} {p : List Byte} {ocap : Nat}
    (h : ¬ ((k = .data → p ≠ []) ∧ (framedBytes addr k q p).length ≤ ocap)) (s : State) :
    exec (.frmEnc addr k.code q p ocap) s = .next (encodeRejected ocap s) := by
  show execFrmEnc addr k.code q p ocap s = _
  rw [execFrmEnc, Kind.ofCode_code]
  dsimp only
  rw [frameEncode_framed, if_neg h]

/-- An encode that answers a frame answers the one of R60 to R63. -/
theorem exec_frmEnc_encoded {addr : Byte} {k : Kind} {q : Seq} {p f : List Byte} {ocap n : Nat} {s t : State}
    (h : exec (.frmEnc addr k.code q p ocap) s = .next t) (hr : t.result = .encoded f n) :
    f = framedBytes addr k q p ∧ n = f.length := by
  by_cases hfit : (k = .data → p ≠ []) ∧ (framedBytes addr k q p).length ≤ ocap
  · rw [exec_frmEnc_fits hfit] at h
    cases h
    cases hr
    exact ⟨rfl, rfl⟩
  · rw [exec_frmEnc_rejected hfit] at h
    cases h
    cases hr

/-- A failed encode leaves the sink's cells beyond `ocap` (assumption 4). -/
theorem read_encodeRejected_above (s : State) (ocap x : Nat) (h : ocap ≤ x) :
    (encodeRejected ocap s).out.read .out x = s.out.read .out x :=
  Memory.read_unspecify_outside _ _ _ _ _ _ (.inr (by omega))

/-! ### Size and shape -/

theorem flag_not_mem_bodyBytes (addr : Byte) (k : Kind) (q : Seq) (p : List Byte) :
    Config.FLAG ∉ bodyBytes addr k q p := by
  rw [bodyBytes, List.mem_flatMap]
  rintro ⟨b, -, hb⟩
  exact flag_not_mem_escEnc b hb

/-- Two Flags, address, control byte and two FCS bytes beside the payload, and one byte for each reserved one
(R65). -/
theorem length_framedBytes (addr : Byte) (k : Kind) (q : Seq) (p : List Byte) :
    (framedBytes addr k q p).length = 6 + (payloadOf k p).length +
      ((coveredBytes addr k q p ++
        [(fcsFinal (fcsFold Config.FCS_INIT (coveredBytes addr k q p))).1,
          (fcsFinal (fcsFold Config.FCS_INIT (coveredBytes addr k q p))).2]).filter
        fun b => decide (isReserved b)).length := by
  rw [framedBytes_eq, bodyBytes, List.length_append, List.length_append, length_flatMap_escEnc]
  simp only [coveredBytes, List.cons_append, List.length_cons, List.length_append, List.length_nil]
  omega

/-- Neither a supported address nor the control byte is reserved, so at most payload and FCS bytes are (R80, R139). -/
theorem length_framedBytes_le {addr : Byte} (h : supportedAddr addr) (k : Kind) (q : Seq) (p : List Byte) :
    (framedBytes addr k q p).length ≤ 2 * (payloadOf k p).length + 8 := by
  rw [length_framedBytes, coveredBytes, List.cons_append, List.cons_append,
    List.filter_cons_of_neg (by simpa using h), List.filter_cons_of_neg (by simpa using not_isReserved_ctlEnc k q)]
  have hle := List.length_filter_le (fun b => decide (isReserved b))
    (payloadOf k p ++ [(fcsFinal (fcsFold Config.FCS_INIT (coveredBytes addr k q p))).1,
      (fcsFinal (fcsFold Config.FCS_INIT (coveredBytes addr k q p))).2])
  rw [List.length_append] at hle
  simp only [List.length_cons, List.length_nil] at hle
  rw [coveredBytes] at hle
  omega

end Sys2Proof.Machine

namespace Sys2Proof.Proofs.FrameEncode

open Sys2Proof.Machine

/-- Settles O21: the algorithm of R132 as one equation, and what the two endings leave in the sink. -/
theorem frmEncBuildsFrame : Obligations.FrmEncBuildsFrame := by
  intro s addr k q p ocap f
  refine ⟨fun h => ⟨_, exec_frmEnc_fits h s, fun j hj => ?_, fun x hx => ?_⟩,
    fun h => ⟨_, exec_frmEnc_rejected h s, read_encodeRejected_above s ocap⟩⟩
  · simpa using Memory.read_writeAll_inside .out s.out 0 j f hj
  · exact Memory.read_writeAll_outside _ _ _ _ _ (.inr ((Nat.zero_add _).trans_le hx))

/-- Settles O22: the operand value 3 stands for no kind. -/
theorem frmEncRefusesNonKind : Obligations.FrmEncRefusesNonKind := fun s _ _ _ ocap =>
  ⟨_, rfl, read_encodeRejected_above s ocap⟩

/-- Settles O23: the escaper's length law on the body, and no Flag among what it produces. -/
theorem frameSizeBound : Obligations.FrameSizeBound := fun addr k q p =>
  ⟨length_framedBytes addr k q p, fun h => length_framedBytes_le h k q p,
    bodyBytes addr k q p, framedBytes_eq addr k q p, flag_not_mem_bodyBytes addr k q p⟩

end Sys2Proof.Proofs.FrameEncode
end

section
/-! `FRM.DEC` as an operation: its answer from the scan of its window, its frame, and its round trip with `FRM.ENC`
(R141, R152 to R171). -/

namespace Sys2Proof.Machine

/-! ### The operation and its scan -/

theorem exec_frmDec_ok {w : List Byte} {dcap : Nat} {sc : Scan} (h : Scan.run dcap w Scan.start = .ok sc) (s : State) :
    exec (.frmDec w dcap) s = .next (s.deliver dcap sc) := by
  show execFrmDec w dcap s = _
  rw [execFrmDec, h]

theorem exec_frmDec_error {w : List Byte} {dcap i : Nat} (h : Scan.run dcap w Scan.start = .error i) (s : State) :
    exec (.frmDec w dcap) s = .fault (.dstOverflow i) := by
  show execFrmDec w dcap s = _
  rw [execFrmDec, h]
  rfl

/-- A decode that answers a next state has scanned its window to the end of the scan. -/
theorem exec_frmDec_next {w : List Byte} {dcap : Nat} {s t : State} (h : exec (.frmDec w dcap) s = .next t) :
    ∃ sc, Scan.run dcap w Scan.start = .ok sc ∧ t = s.deliver dcap sc := by
  cases hrun : Scan.run dcap w Scan.start with
  | error i =>
    rw [exec_frmDec_error hrun] at h
    exact nomatch h
  | ok sc =>
    rw [exec_frmDec_ok hrun] at h
    cases h
    exact ⟨sc, rfl, rfl⟩

theorem decoded_eq (w : List Byte) (dcap : Nat) (s : State) :
    decoded w dcap s = (Scan.run dcap w Scan.start).map Scan.finish := by
  unfold decoded
  cases hrun : Scan.run dcap w Scan.start with
  | error i => rw [exec_frmDec_error hrun]; rfl
  | ok sc => rw [exec_frmDec_ok hrun]; exact congrArg Except.ok (State.deliver_result s dcap sc)

theorem decoded_ok_iff {w : List Byte} {dcap : Nat} {s : State} {r : Result} :
    decoded w dcap s = .ok r ↔ ∃ sc, Scan.run dcap w Scan.start = .ok sc ∧ sc.finish = r := by
  rw [decoded_eq]
  cases Scan.run dcap w Scan.start <;> simp [Except.map]

theorem decoded_error_iff {w : List Byte} {dcap i : Nat} {s : State} :
    decoded w dcap s = .error i ↔ Scan.run dcap w Scan.start = .error i := by
  rw [decoded_eq]
  cases Scan.run dcap w Scan.start <;> simp [Except.map]

/-! ### The outcome of a scan -/

/-- A scan whose two delimiters were found has a terminal outcome, which consumes the bytes up to the closing one
(R160). -/
theorem Scan.finish_terminal (sc : Scan) {start stop : Nat} (h1 : sc.frameStart = some start)
    (h2 : sc.frameStop = some stop) : IsTerminal sc.finish ∧ sc.finish.discard = stop + 1 := by
  unfold Scan.finish
  rw [h1, h2]
  dsimp only
  split
  · split <;> exact ⟨trivial, rfl⟩
  · exact ⟨trivial, rfl⟩

/-- The outcome of a scan is `NoFrame` with nothing consumed, or both delimiters were found (R159, R160). -/
theorem Scan.finish_cases (sc : Scan) :
    sc.finish = .noFrame 0 ∨
      ∃ stop, sc.frameStop = some stop ∧ IsTerminal sc.finish ∧ sc.finish.discard = stop + 1 := by
  cases h1 : sc.frameStart with
  | none => left; unfold Scan.finish; rw [h1]
  | some start =>
    cases h2 : sc.frameStop with
    | none => exact .inl (sc.finish_noFrame h2)
    | some stop => exact .inr ⟨stop, rfl, sc.finish_terminal h1 h2⟩

theorem not_isTerminal_noFrame (d : Nat) : ¬ IsTerminal (.noFrame d) := id

/-- A terminal outcome has a closing Flag at `discard - 1` (R160). -/
theorem Scan.of_finish_terminal {sc : Scan} (h : IsTerminal sc.finish) :
    ∃ stop, sc.frameStop = some stop ∧ sc.finish.discard = stop + 1 := by
  rcases sc.finish_cases with hno | ⟨stop, hstop, -, hd⟩
  · rw [hno] at h
    exact absurd h (not_isTerminal_noFrame 0)
  · exact ⟨stop, hstop, hd⟩

/-- The outcome of a scan moved along the window by `n` (R160). -/
theorem Scan.finish_shift (n : Nat) (sc : Scan) : (sc.shift n).finish = discardMore n sc.finish := by
  cases h1 : sc.frameStart with
  | none => simp [Scan.finish, Scan.shift, h1, discardMore]
  | some start =>
    cases h2 : sc.frameStop with
    | none => simp [Scan.finish, Scan.shift, h1, h2, discardMore]
    | some stop =>
      have h1' : (sc.shift n).frameStart = some (start + n) := by simp [Scan.shift, h1]
      have h2' : (sc.shift n).frameStop = some (stop + n) := by simp [Scan.shift, h2]
      have hacc : (sc.shift n).accepts (start + n) (stop + n) ↔ sc.accepts start stop := by
        simp only [Scan.accepts, Scan.shift, Scan.cur]
        rw [Nat.add_right_comm start, Nat.add_le_add_iff_right]
      by_cases h : sc.accepts start stop
      · have fields : (sc.shift n).kind = sc.kind ∧ (sc.shift n).seq = sc.seq ∧ (sc.shift n).addr = sc.addr ∧
            (sc.shift n).cur = sc.cur ∧ (sc.shift n).stored = sc.stored := ⟨rfl, rfl, rfl, rfl, rfl⟩
        obtain ⟨hk, hq, ha, hc, hs⟩ := fields
        unfold Scan.finish
        rw [h1, h2, h1', h2']
        dsimp only
        rw [if_pos h, if_pos (hacc.2 h), hk, hq, ha, hc, hs, Nat.add_right_comm]
        cases sc.kind <;> cases sc.seq <;> cases sc.addr <;> rfl
      · rw [sc.finish_badFrame h1 h2 h, (sc.shift n).finish_badFrame h1' h2' (mt hacc.1 h), discardMore,
          Nat.add_right_comm]
        rfl

/-! ### A frame in the window -/

theorem nextIsFlag_bodyBytes (addr : Byte) (k : Kind) (q : Seq) (p w : List Byte) :
    nextIsFlag (bodyBytes addr k q p ++ w) = false := by
  rw [bodyBytes, List.flatMap_cons, List.append_assoc]
  exact nextIsFlag_escEnc addr _

theorem four_le_length_bodyBytes (addr : Byte) (k : Kind) (q : Seq) (p : List Byte) :
    4 ≤ (bodyBytes addr k q p).length := by
  rw [bodyBytes, length_flatMap_escEnc]
  simp only [List.length_cons, List.length_append, List.length_nil]
  omega

/-- The registers behind the body of a frame: its bytes are consumed and leave the residual (R107, R156). -/
def Scan.behindBody (addr : Byte) (k : Kind) (q : Seq) (p : List Byte) : Scan :=
  { i := 1 + (bodyBytes addr k q p).length
    frameStart := some 0
    frameStop := none
    escapePending := false
    fcs := Config.FCS_GOOD
    stored := payloadOf k p ++
      [(fcsFinal (fcsFold Config.FCS_INIT (coveredBytes addr k q p))).1,
        (fcsFinal (fcsFold Config.FCS_INIT (coveredBytes addr k q p))).2]
    pos := 2 + ((payloadOf k p).length + 2)
    addr := some addr
    kind := some k
    seq := some q }

theorem Scan.behindBody_cur (addr : Byte) (k : Kind) (q : Seq) (p : List Byte) :
    (Scan.behindBody addr k q p).cur = (payloadOf k p).length + 2 := List.length_append

/-- The opening Flag and the body of a frame, whatever follows. -/
theorem Scan.run_bodyBytes (addr : Byte) (k : Kind) (q : Seq) (p w : List Byte) {dcap : Nat}
    (hd : (payloadOf k p).length + 2 ≤ dcap) :
    Scan.run dcap (Config.FLAG :: (bodyBytes addr k q p ++ w)) Scan.start =
      Scan.run dcap w (Scan.behindBody addr k q p) := by
  rw [Scan.run_open dcap _ (nextIsFlag_bodyBytes addr k q p w), bodyBytes,
    Scan.run_body dcap _ _ _ _ (by simpa using hd),
    ← List.cons_append, ← List.cons_append, fcsFold_append]
  show Scan.run dcap w { fcs := fcsFold (fcsFold Config.FCS_INIT (coveredBytes addr k q p)) _, .. } = _
  rw [fcsFold_fcsFinal, ctlDec_ctlEnc, List.length_append]
  rfl

theorem flag_cons_flags (n : Nat) (w : List Byte) :
    Config.FLAG :: (List.replicate n Config.FLAG ++ w) = List.replicate n Config.FLAG ++ Config.FLAG :: w := by
  rw [← List.cons_append, ← List.replicate_succ, List.replicate_succ', List.append_assoc, List.singleton_append]

/-- A frame, Flags behind it, and anything that begins with no Flag: the frame closes at the last of the Flags (R154,
R168). -/
theorem Scan.run_framedBytes (addr : Byte) (k : Kind) (q : Seq) (p w : List Byte) (n : Nat) {dcap : Nat}
    (hd : (payloadOf k p).length + 2 ≤ dcap) (hw : nextIsFlag w = false) :
    ∃ sc, Scan.run dcap (framedBytes addr k q p ++ List.replicate n Config.FLAG ++ w) Scan.start = .ok sc ∧
      sc.finish = .frame k q addr (payloadOf k p) (payloadOf k p).length ((framedBytes addr k q p).length + n) := by
  have hbody := four_le_length_bodyBytes addr k q p
  have hlen : (framedBytes addr k q p).length = 1 + (bodyBytes addr k q p).length + 1 := by
    simp only [framedBytes_eq, List.length_append, List.length_cons, List.length_nil]
  have hwin : framedBytes addr k q p ++ List.replicate n Config.FLAG ++ w =
      Config.FLAG :: (bodyBytes addr k q p ++ (List.replicate n Config.FLAG ++ Config.FLAG :: w)) := by
    simp only [framedBytes_eq, List.append_assoc, List.cons_append, List.nil_append, flag_cons_flags]
  rw [hwin, Scan.run_bodyBytes addr k q p _ hd, Scan.run_filler dcap _ _ _ rfl,
    Scan.run_close dcap (start := 0) w _ hw rfl (by simp only [Scan.behindBody]; omega)]
  refine ⟨_, rfl, ?_⟩
  have hcur := Scan.behindBody_cur addr k q p
  have hacc : 0 + Config.MIN_DISTANCE ≤ 1 + (bodyBytes addr k q p).length + n ∧ fcsCheck Config.FCS_GOOD = true ∧
      2 ≤ (Scan.behindBody addr k q p).cur :=
    ⟨by simp only [Config.MIN_DISTANCE]; omega, by decide, by omega⟩
  rw [Scan.finish_frame _ (start := 0) rfl rfl hacc rfl rfl rfl]
  show Result.frame k q addr ((Scan.behindBody addr k q p).stored.take ((Scan.behindBody addr k q p).cur - 2))
    ((Scan.behindBody addr k q p).cur - 2) (1 + (bodyBytes addr k q p).length + n + 1) = _
  rw [hcur, Nat.add_sub_cancel, hlen, Scan.behindBody, List.take_left, Nat.add_right_comm]

/-- The frame alone in the window. -/
theorem Scan.run_frame_alone (addr : Byte) (k : Kind) (q : Seq) (p : List Byte) {dcap : Nat}
    (hd : (payloadOf k p).length + 2 ≤ dcap) :
    ∃ sc, Scan.run dcap (framedBytes addr k q p) Scan.start = .ok sc ∧
      sc.finish = .frame k q addr (payloadOf k p) (payloadOf k p).length (framedBytes addr k q p).length := by
  simpa using Scan.run_framedBytes addr k q p [] 0 hd rfl

/-! ### A part of a frame in the window -/

/-- Up to the first Flag a scan takes its window byte by byte, whatever follows it (R152). -/
theorem Scan.run_append_of_no_flag {dcap : Nat} (w x : List Byte) (sc : Scan) (hw : Config.FLAG ∉ w)
    (he : sc.frameStop = none) :
    Scan.run dcap (w ++ x) sc = (Scan.run dcap w sc).bind (Scan.run dcap x) := by
  induction w generalizing sc with
  | nil => rfl
  | cons b w ih =>
    obtain ⟨hb, hw⟩ := not_or.1 (List.mem_cons.not.1 hw)
    have look (n : Bool) : sc.turn dcap b n = sc.turn dcap b false := by
      simp only [Scan.turn, if_neg (Ne.symm hb)]
    rw [List.cons_append, Scan.run, Scan.run, look, look (nextIsFlag w)]
    cases ht : sc.turn dcap b false with
    | error i => rfl
    | ok s1 =>
      have hn : s1.frameStop = none := by
        rcases Scan.turn_stop dcap he ht with hn | ⟨-, hflag, -, -⟩
        · exact hn
        · exact absurd hflag.symm hb
      simp only [hn, Option.isSome_none, Bool.false_eq_true, if_false]
      exact ih s1 hw hn

/-- A scan of a Flag-free part of a window that is scanned without overflow does not overflow either. -/
theorem Scan.run_prefix_ok {dcap : Nat} {w x : List Byte} {sc sc' : Scan} (hw : Config.FLAG ∉ w)
    (he : sc.frameStop = none) (h : Scan.run dcap (w ++ x) sc = .ok sc') :
    ∃ s1, Scan.run dcap w sc = .ok s1 ∧ s1.frameStop = none := by
  rw [Scan.run_append_of_no_flag w x sc hw he] at h
  cases hrun : Scan.run dcap w sc with
  | error i =>
    rw [hrun] at h
    exact nomatch h
  | ok s1 => exact ⟨s1, rfl, Scan.run_no_flag dcap hw he hrun⟩

theorem nextIsFlag_of_not_mem {w : List Byte} (h : Config.FLAG ∉ w) : nextIsFlag w = false := by
  cases w with
  | nil => rfl
  | cons b w => exact beq_eq_false_iff_ne.2 fun e => h (e ▸ List.mem_cons_self)

/-- A proper part of a frame holds no closing Flag (R159, R171). -/
theorem Scan.run_take_framedBytes (addr : Byte) (k : Kind) (q : Seq) (p : List Byte) {j dcap : Nat}
    (hj : j < (framedBytes addr k q p).length) (hd : (payloadOf k p).length + 2 ≤ dcap) :
    ∃ sc, Scan.run dcap ((framedBytes addr k q p).take j) Scan.start = .ok sc ∧ sc.frameStop = none := by
  cases j with
  | zero => exact ⟨Scan.start, rfl, rfl⟩
  | succ j =>
    have hpart : (framedBytes addr k q p).take (j + 1) = Config.FLAG :: (bodyBytes addr k q p).take j := by
      rw [framedBytes_eq, List.length_append] at hj
      rw [framedBytes_eq, List.take_append_of_le_length (by exact Nat.lt_succ_iff.1 hj)]
      rfl
    have hno : Config.FLAG ∉ (bodyBytes addr k q p).take j := fun h =>
      flag_not_mem_bodyBytes addr k q p (List.mem_of_mem_take h)
    have hwhole := Scan.run_bodyBytes addr k q p [] hd
    rw [List.append_nil, Scan.run_open dcap _ (nextIsFlag_of_not_mem (flag_not_mem_bodyBytes addr k q p)),
      ← List.take_append_drop j (bodyBytes addr k q p)] at hwhole
    rw [hpart, Scan.run_open dcap _ (nextIsFlag_of_not_mem hno)]
    exact Scan.run_prefix_ok hno rfl hwhole

/-! ### A window that overflows -/

theorem flatMap_escEnc_plain {m : List Byte} (h : ∀ b ∈ m, ¬ isReserved b) : m.flatMap escEnc = m := by
  induction m with
  | nil => rfl
  | cons b m ih =>
    rw [List.flatMap_cons, escEnc_plain (h b List.mem_cons_self), ih fun c hc => h c (List.mem_cons_of_mem b hc)]
    rfl

/-- A byte to be stored meets a full destination (R162). -/
theorem Scan.run_overflow {dcap start : Nat} {b : Byte} {sc : Scan} (hs : sc.frameStart = some start)
    (he : sc.frameStop = none) (hp : sc.escapePending = false) (hpos : 2 ≤ sc.pos) (hc : sc.cur = dcap)
    (hb : ¬ isReserved b) (w : List Byte) : Scan.run dcap (b :: w) sc = .error sc.i := by
  have hrun := Scan.run_escEnc dcap hs he hp b w
  rw [escEnc_plain hb] at hrun
  rcases Scan.consume_cases dcap b sc with ⟨p, -⟩ | ⟨p, -⟩ | ⟨-, p, -⟩ | ⟨-, -, e⟩
  · omega
  · omega
  · exact absurd hc p
  · rw [List.singleton_append] at hrun
    rw [hrun]
    show (match sc.consume dcap b with | .ok sc' => _ | .error i => _) = _
    rw [e]

/-- Plain bytes behind an opening Flag, an address and a control byte: the first that does not fit overflows. -/
theorem Scan.run_plain_body_overflow {a c : Byte} {body : List Byte} {dcap : Nat} (ha : ¬ isReserved a)
    (hc : ¬ isReserved c) (hb : ∀ b ∈ body, ¬ isReserved b) (hlen : dcap < body.length) (w : List Byte) :
    Scan.run dcap (Config.FLAG :: a :: c :: body ++ w) Scan.start = .error (3 + dcap) := by
  have htake : (body.take dcap).length = dcap := List.length_take_of_le (Nat.le_of_lt hlen)
  have hplain : (a :: c :: body.take dcap).flatMap escEnc = a :: c :: body.take dcap := by
    refine flatMap_escEnc_plain fun b h => ?_
    rcases List.mem_cons.1 h with rfl | h
    · exact ha
    · rcases List.mem_cons.1 h with rfl | h
      · exact hc
      · exact hb b (List.mem_of_mem_take h)
  have hwin : a :: c :: body ++ w =
      (a :: c :: body.take dcap).flatMap escEnc ++ (body[dcap] :: (body.drop (dcap + 1) ++ w)) := by
    have hsplit : body = body.take dcap ++ body[dcap] :: body.drop (dcap + 1) := by
      rw [← List.drop_eq_getElem_cons hlen, List.take_append_drop]
    rw [hplain]
    conv_lhs => rw [hsplit]
    simp only [List.cons_append, List.append_assoc]
  have hopen : nextIsFlag (a :: c :: body ++ w) = false := beq_eq_false_iff_ne.2 fun e => ha (.inl e)
  rw [List.cons_append, Scan.run_open dcap _ hopen, hwin, Scan.run_body dcap _ _ _ _ (Nat.le_of_eq htake),
    Scan.run_overflow (start := 0) rfl rfl rfl (by simp) htake (hb _ (List.getElem_mem hlen)), hplain]
  simp only [List.length_cons, htake]
  congr 1
  omega

/-! ### What the operation leaves -/

/-- The end of a scan changes result, destination and the count of free values only. -/
theorem State.deliver_eq (s : State) (dcap : Nat) (sc : Scan) :
    s.deliver dcap sc =
      { s with result := sc.finish, dst := (s.deliver dcap sc).dst, draws := s.draws + 1 } := by
  unfold State.deliver
  split
  · rename_i h
    rw [h]
  · rfl

/-- The scan of a whole window holds what R29 and R152 have of it at its end. -/
theorem Scan.run_facts {dcap : Nat} {w : List Byte} {sc : Scan} (h : Scan.run dcap w Scan.start = .ok sc) :
    sc.Content ∧ sc.cur ≤ dcap ∧ sc.cur = sc.pos - 2 ∧
      (∀ start stop, sc.frameStart = some start → sc.frameStop = some stop → start + 1 + sc.pos ≤ stop) :=
  Scan.start_content.run (Scan.start_inv dcap) h

theorem exists_append_pair {l : List Byte} (h : 2 ≤ l.length) :
    ∃ lo hi, l = l.take (l.length - 2) ++ [lo, hi] := by
  have htwo : (l.drop (l.length - 2)).length = 2 := by rw [List.length_drop]; omega
  obtain ⟨lo, hi, hpair⟩ := List.length_eq_two.1 htwo
  exact ⟨lo, hi, by rw [← hpair, List.take_append_drop]⟩

theorem payloadOf_eq {k : Kind} {p : List Byte} (h : k ≠ .data → p = []) : payloadOf k p = p := by
  cases k with
  | data => rfl
  | ack | nack => exact (h nofun).symm

/-- What an accepted scan of a whole window says of the bytes it stored (R106, R157, R158, R164). -/
theorem Scan.run_frame_facts {dcap : Nat} {w : List Byte} {sc : Scan} {k : Kind} {q : Seq} {a : Byte}
    {p : List Byte} {l d : Nat} (h : Scan.run dcap w Scan.start = .ok sc) (hf : sc.finish = .frame k q a p l d) :
    p.length = l ∧ sc.cur = l + 2 ∧ l + 2 ≤ dcap ∧ l + 6 ≤ d ∧
      ∃ c lo hi, ctlDec c = (k, q) ∧ sc.stored = p ++ [lo, hi] ∧
        fcsFold Config.FCS_INIT (a :: c :: sc.stored) = Config.FCS_GOOD := by
  obtain ⟨start, stop, hstart, hstop, ⟨-, hgood, htwo⟩, hk, hq, ha, hp, hl, hd⟩ := sc.of_finish_frame hf
  obtain ⟨hcontent, hfit, hcur, hbehind⟩ := Scan.run_facts h
  have hpos := hbehind start stop hstart hstop
  obtain ⟨a', c, ha', hk', hq', hfcs⟩ := hcontent.inPayload (by omega)
  obtain ⟨lo, hi, hstored⟩ := exists_append_pair htwo
  rw [ha'] at ha
  rw [hk'] at hk
  rw [hq'] at hq
  cases ha
  cases hk
  cases hq
  rw [Scan.cur] at *
  refine ⟨by rw [hp, List.length_take_of_le (by omega), hl], by omega, by omega, by omega, c, lo, hi, rfl, ?_, ?_⟩
  · rw [hp]
    exact hstored
  · rw [← hfcs]
    simpa using hgood

end Sys2Proof.Machine

namespace Sys2Proof.Proofs.FrameDecode

open Sys2Proof.Machine

/-- Settles O24: the encoder's frame is the one of R60 to R63, whose scan consumes its body to the residual and stops
at its closing Flag. -/
theorem frameRoundTrip : Obligations.FrameRoundTrip := by
  intro s addr k q p ocap dcap t f n _ hp hd henc hres
  obtain ⟨rfl, rfl⟩ := exec_frmEnc_encoded henc hres
  have hpay := payloadOf_eq hp
  obtain ⟨sc, hrun, hfin⟩ := Scan.run_frame_alone addr k q p (hpay.symm ▸ hd)
  refine ⟨_, exec_frmDec_ok hrun t, ?_⟩
  rw [State.deliver_result, hfin, hpay]

/-- Settles O25: a part of the body holds no Flag, and what the whole body does not overflow the part does not. -/
theorem partialFrameIsNoFrame : Obligations.PartialFrameIsNoFrame := by
  intro s addr k q p j dcap hj hd
  obtain ⟨sc, hrun, hstop⟩ := Scan.run_take_framedBytes addr k q p hj hd
  refine ⟨_, exec_frmDec_ok hrun s, ?_⟩
  rw [State.deliver_result, sc.finish_noFrame hstop]

/-- Settles O26: an overflow needs `dcap + 3` bytes before the byte that overflows. -/
theorem frmDecCompletes : Obligations.FrmDecCompletes := by
  intro s w dcap hw
  cases hrun : Scan.run dcap w Scan.start with
  | error i =>
    have hlate := Scan.start_content.run_error (Scan.start_inv dcap) hrun
    rw [show Scan.start.i = 0 from rfl] at hlate
    omega
  | ok sc =>
    have hfit := (Scan.run_facts hrun).2.1
    exact ⟨sc.finish, (s.deliver dcap sc).dst, s.draws + 1, by rw [exec_frmDec_ok hrun, ← State.deliver_eq],
      fun x hx => Memory.read_deliver_above s dcap sc x (Nat.le_trans hfit hx) hx⟩

/-- Settles O27: what the scan's registers hold at its end, read off the three outcomes. -/
theorem frmDecOutcomes : Obligations.FrmDecOutcomes := by
  intro s t w dcap h
  obtain ⟨sc, hrun, rfl⟩ := exec_frmDec_next h
  rw [State.deliver_result]
  refine ⟨?_, fun hterm => ?_, fun k q a p l d hf => ?_⟩
  · rcases sc.finish_cases with hno | ⟨_, -, hterm, -⟩
    · exact .inl hno
    · exact .inr hterm
  · obtain ⟨stop, hstop, hd⟩ := Scan.of_finish_terminal hterm
    obtain ⟨-, hin, hflag⟩ := Scan.run_stop dcap rfl hrun hstop
    rw [show Scan.start.i = 0 from rfl] at hin hflag
    rw [hd]
    exact ⟨by omega, by omega, hflag⟩
  · obtain ⟨hp, hcur, hfit, hd, c, lo, hi, hctl, hstored, hgood⟩ := Scan.run_frame_facts hrun hf
    refine ⟨hp, hfit, hd, ⟨c, lo, hi, hctl, ?_, ?_⟩, fun x hx =>
      Memory.read_deliver_above s dcap sc x (by omega) hx⟩
    · rw [List.cons_append, List.cons_append, ← hstored]
      exact hgood
    · rw [← hcur, ← hstored]
      exact State.readAll_deliver_frame s dcap sc hf

/-- Settles O28: address, control byte and the first `dcap` body bytes are consumed, the next one overflows. -/
theorem frmDecOverflowFaults : Obligations.FrmDecOverflowFaults := fun s _ _ _ w _ ha hc hb hlen =>
  exec_frmDec_error (Scan.run_plain_body_overflow ha hc hb hlen w) s

/-- Settles O29: junk and filler only move the scan index, and a scan moved along the window ends as it would have
ended, its indices higher. -/
theorem leadingBytesAreSkipped : Obligations.LeadingBytesAreSkipped := by
  intro s junk w n dcap hj
  have hmoved : Scan.run dcap (junk ++ List.replicate n Config.FLAG ++ Config.FLAG :: w) Scan.start =
      Scan.run dcap (Config.FLAG :: w) (Scan.start.shift (junk.length + n)) := by
    rw [List.append_assoc, Scan.run_junk dcap _ _ _ hj rfl rfl, Scan.run_filler dcap _ _ _ rfl]
    simp only [Scan.shift, Scan.start, Option.map_none, Nat.zero_add]
  rw [decoded_eq, decoded_eq, hmoved, Scan.run_shift]
  cases Scan.run dcap (Config.FLAG :: w) Scan.start with
  | error i => rfl
  | ok sc => exact congrArg Except.ok (sc.finish_shift _)

/-- Settles O30: all but the last of the Flags are filler inside the frame. -/
theorem trailingFlagsAreConsumed : Obligations.TrailingFlagsAreConsumed := by
  intro s addr k q p w n dcap _ hd hw
  exact decoded_ok_iff.2 (Scan.run_framedBytes addr k q p w n hd hw)

/-- Settles O31: the scan of the longer window stops at the same Flag. -/
theorem terminalDecodeIsStable : Obligations.TerminalDecodeIsStable := by
  intro s w x dcap r hdec hterm hx
  obtain ⟨sc, hrun, rfl⟩ := decoded_ok_iff.1 hdec
  obtain ⟨stop, hstop, hd⟩ := Scan.of_finish_terminal hterm
  have hgrow : stop + 1 < Scan.start.i + w.length ∨ nextIsFlag x = false := by
    rw [show Scan.start.i = 0 from rfl, Nat.zero_add, ← hd]
    exact hx
  exact decoded_ok_iff.2 ⟨sc, Scan.run_append dcap rfl hrun hstop hgrow, rfl⟩

end Sys2Proof.Proofs.FrameDecode
end

section
/-! The wire format byte by byte: what a Flag, an Escape and an unescaped byte do to the scan in progress
(R153 to R166). -/

namespace Sys2Proof.Machine

/-! ### The rules of a Flag -/

theorem State.lookAhead_iff (s : State) : s.lookAhead = true ↔ ∃ rest, s.inputs = .wire Config.FLAG :: rest := by
  unfold State.lookAhead
  split
  · rename_i b rest h
    simp [h]
  · rename_i h
    simp only [Bool.false_eq_true, false_iff, not_exists]
    exact fun rest e => h _ rest e

theorem State.lookAhead_eq_false {s : State} (h : ¬ ∃ rest, s.inputs = .wire Config.FLAG :: rest) :
    s.lookAhead = false := Bool.eq_false_iff.2 (mt s.lookAhead_iff.1 h)

section flag

variable {sc : Scan} {start : Nat}

theorem Scan.flag_skips (h : sc.frameStart = none) : sc.flag true = { sc with i := sc.i + 1 } := by
  simp [Scan.flag, Scan.advance, h]

theorem Scan.flag_opens (h : sc.frameStart = none) :
    sc.flag false = { sc with i := sc.i + 1, frameStart := some sc.i } := by
  simp [Scan.flag, Scan.advance, h]

theorem Scan.flag_fills (h : sc.frameStart = some start) {next : Bool} (hn : next = true ∨ sc.i = start + 1) :
    sc.flag next = { sc with i := sc.i + 1 } := by
  simp [Scan.flag, Scan.advance, h, hn]

theorem Scan.flag_closes (h : sc.frameStart = some start) (hi : sc.i ≠ start + 1) :
    sc.flag false = { sc with i := sc.i + 1, frameStop := some sc.i } := by
  simp [Scan.flag, Scan.advance, h, hi]

end flag

theorem exec_wireFlag (s : State) : exec .wireFlag s = .next (s.afterTurn (s.scanning.flag s.lookAhead)) := rfl

theorem exec_wireEscape (s : State) : exec .wireEscape s = .next (s.afterTurn s.scanning.escape) := rfl

/-- An Escape never ends the scan in progress. -/
theorem exec_wireEscape_goes_on {s : State} {sc : Scan} (h : s.scanning.escape = sc) (hs : sc.frameStop = none) :
    exec .wireEscape s = .next { s with scan := some sc } := by
  rw [exec_wireEscape, h, State.afterTurn_goes_on s sc hs]

/-- A Flag that does not close only moves the registers on. -/
theorem exec_wireFlag_goes_on {s : State} {sc : Scan} (h : s.scanning.flag s.lookAhead = sc)
    (hs : sc.frameStop = none) : exec .wireFlag s = .next { s with scan := some sc } := by
  rw [exec_wireFlag, h, State.afterTurn_goes_on s sc hs]

/-- The registers once the closing Flag under the scan index has been found (R154). -/
def Scan.closed (sc : Scan) : Scan := { sc with i := sc.i + 1, frameStop := some sc.i }

/-- The closing Flag delivers the outcome of the scan in progress (R158 to R164). -/
theorem exec_wireFlag_closes {s : State} {start : Nat} (hs : s.scanning.frameStart = some start)
    (h : ¬ ((∃ rest, s.inputs = .wire Config.FLAG :: rest) ∨ s.scanning.i = start + 1)) :
    exec .wireFlag s =
      .next (State.deliver { s with scan := none } s.params.dcap s.scanning.closed) := by
  obtain ⟨hnext, hi⟩ := not_or.1 h
  rw [exec_wireFlag, State.lookAhead_eq_false hnext, Scan.flag_closes hs hi]
  exact congrArg Host.Outcome.next (State.afterTurn_ends s s.scanning.closed rfl)

/-! ### The rules of an unescaped byte -/

section byte

variable {s : State} (c : Byte)

theorem takeTurn_goes_on {r : Except Nat Scan} {sc : Scan} (h : r = .ok sc) (hs : sc.frameStop = none) :
    s.takeTurn r = .next { s with scan := some sc } := by
  rw [h]
  exact congrArg Host.Outcome.next (State.afterTurn_goes_on s sc hs)

/-- Before the opening Flag the byte is skipped (R166). -/
theorem controlByte_skips (hstop : s.scanning.frameStop = none) (h : s.scanning.frameStart = none) :
    s.controlByte c = .next { s with scan := some { s.scanning with i := s.scanning.i + 1 } } := by
  refine takeTurn_goes_on ?_ hstop
  rw [Scan.unescaped, h]
  rfl

variable {start : Nat} (h : s.scanning.frameStart = some start)

include h

/-- Behind it the byte is consumed. -/
theorem controlByte_consumes : s.controlByte c = s.takeTurn (s.scanning.consume s.params.dcap c) := by
  rw [State.controlByte, Scan.unescaped, h]

theorem controlByte_address (hstop : s.scanning.frameStop = none) (hp : s.scanning.pos = 0) :
    s.controlByte c =
      .next { s with
        scan := some { s.scanning with
          i := s.scanning.i + 1
          escapePending := false
          fcs := fcsUpdate s.scanning.fcs c
          addr := some c
          pos := 1 } } := by
  rw [controlByte_consumes c h]
  refine takeTurn_goes_on ?_ hstop
  rcases Scan.consume_cases s.params.dcap c s.scanning with ⟨-, e⟩ | ⟨p, -⟩ | ⟨p, -⟩ | ⟨p, -⟩
  · exact e
  all_goals omega

theorem controlByte_control (hstop : s.scanning.frameStop = none) (hp : s.scanning.pos = 1) :
    s.controlByte c =
      .next { s with
        scan := some { s.scanning with
          i := s.scanning.i + 1
          escapePending := false
          fcs := fcsUpdate s.scanning.fcs c
          kind := some (ctlDec c).1
          seq := some (ctlDec c).2
          pos := 2 } } := by
  rw [controlByte_consumes c h]
  refine takeTurn_goes_on ?_ hstop
  rcases Scan.consume_cases s.params.dcap c s.scanning with ⟨p, -⟩ | ⟨-, e⟩ | ⟨p, -⟩ | ⟨p, -⟩
  · omega
  · exact e
  all_goals omega

theorem controlByte_stores (hstop : s.scanning.frameStop = none) (hp : 2 ≤ s.scanning.pos)
    (hc : s.scanning.stored.length ≠ s.params.dcap) :
    s.controlByte c =
      .next { s with
        scan := some { s.scanning with
          i := s.scanning.i + 1
          escapePending := false
          fcs := fcsUpdate s.scanning.fcs c
          stored := s.scanning.stored ++ [c]
          pos := s.scanning.pos + 1 } } := by
  rw [controlByte_consumes c h]
  refine takeTurn_goes_on ?_ hstop
  rcases Scan.consume_cases s.params.dcap c s.scanning with ⟨p, -⟩ | ⟨p, -⟩ | ⟨-, -, e⟩ | ⟨-, e, -⟩
  · omega
  · omega
  · exact e
  · exact absurd e hc

theorem controlByte_overflows (hp : 2 ≤ s.scanning.pos) (hc : s.scanning.stored.length = s.params.dcap) :
    s.controlByte c = .fault (.dstOverflow s.scanning.i) := by
  rw [controlByte_consumes c h]
  rcases Scan.consume_cases s.params.dcap c s.scanning with ⟨p, -⟩ | ⟨p, -⟩ | ⟨-, e, -⟩ | ⟨-, -, e⟩
  · omega
  · omega
  · exact absurd hc e
  · rw [e]
    rfl

end byte

end Sys2Proof.Machine

namespace Sys2Proof.Proofs.Wire

open Sys2Proof.Machine

/-- Settles O32: the four cases of a Flag, the last with the two outcomes of the scan. -/
theorem wireFlagTurn : Obligations.WireFlagTurn := by
  intro s hstop sc next
  refine ⟨fun hs hn => ?_, fun hs hn => ?_, fun start hs hn => ?_, fun start hs hn => ?_⟩
  · refine exec_wireFlag_goes_on ?_ hstop
    rw [s.lookAhead_iff.2 hn, Scan.flag_skips hs]
  · refine exec_wireFlag_goes_on ?_ hstop
    rw [State.lookAhead_eq_false hn, Scan.flag_opens hs]
  · refine exec_wireFlag_goes_on (Scan.flag_fills hs ?_) hstop
    exact hn.imp_left s.lookAhead_iff.2
  · rw [exec_wireFlag_closes hs hn]
    have hacc : sc.closed.accepts start sc.i ↔ start + 4 ≤ sc.i ∧ sc.fcs = 0xF0B8 ∧ 2 ≤ sc.stored.length := by
      simp [Scan.accepts, Scan.closed]
    refine ⟨fun k q a h hk hq ha => ?_, fun h => ?_⟩
    · have hfin := sc.closed.finish_frame hs rfl (hacc.2 h) hk hq ha
      refine ⟨_, ?_, State.readAll_deliver_frame { s with scan := none } s.params.dcap sc.closed hfin,
        fun x hx hd => Memory.read_deliver_above _ _ _ x hx hd⟩
      rw [State.deliver_eq, hfin]
      rfl
    · have hfin := sc.closed.finish_badFrame hs rfl (mt hacc.1 h)
      have hother : ∀ k q a p l d, sc.closed.finish ≠ .frame k q a p l d := fun _ _ _ _ _ _ e => by
        rw [hfin] at e
        exact nomatch e
      rw [State.deliver_other _ _ _ hother, hfin]
      exact ⟨_, rfl, fun x hx => Memory.read_unspecify_outside _ _ _ _ _ _ (.inr (by omega))⟩

/-- Settles O33: before the opening Flag and behind it. -/
theorem wireEscapeTurn : Obligations.WireEscapeTurn := by
  intro s hstop sc
  refine ⟨fun hs => exec_wireEscape_goes_on ?_ hstop, fun start hs => exec_wireEscape_goes_on ?_ hstop⟩
  all_goals simp [Scan.escape, Scan.advance, sc, hs]

/-- Settles O34: each row is its byte at the control position, laid out by R66 and decoded by R150. -/
theorem controlRowsDecodeKindAndSeq : Obligations.ControlRowsDecodeKindAndSeq := by
  intro s start ns nr pf b1 hstop hs hp after
  have row (c : Byte) : s.controlByte c = .next (after c (ctlDec c).1 (ctlDec c).2) :=
    controlByte_control c hs hstop hp
  refine ⟨?_, ?_, ?_, ?_, ?_⟩
  · rw [exec_ctrl rfl rfl, row, ctlDec_controlData, controlData_eq]
  all_goals rw [exec_ctrl rfl rfl, row, ctlDec_controlSuper, controlSuper_eq]; rfl

/-- Settles O35: a row is its byte, which the scan's position says what to do with. -/
theorem controlRowsElsewhereInAScan : Obligations.ControlRowsElsewhereInAScan := by
  intro s i c hport henc hstop sc
  rw [exec_ctrl hport henc]
  exact ⟨controlByte_skips c hstop, fun start hs =>
    ⟨controlByte_address c hs hstop, controlByte_stores c hs hstop, controlByte_overflows c hs⟩⟩

/-- Settles O54: three of the four cases of a Flag move the registers on, the closing one ends the scan. -/
theorem wireFlagCompletes : Obligations.WireFlagCompletes := by
  intro s
  refine ⟨_, exec_wireFlag s, ⟨by simp, by simp, by simp⟩, by simp, by simp, fun hstop => ?_⟩
  have goes_on {sc : Scan} (he : s.scanning.flag s.lookAhead = sc) (h : sc.frameStop = none) :
      s.afterTurn (s.scanning.flag s.lookAhead) = { s with scan := some sc } := by
    rw [he, State.afterTurn_goes_on s sc h]
  rcases Scan.flag_cases s.lookAhead s.scanning with
    ⟨-, -, e⟩ | ⟨-, -, e⟩ | ⟨start, -, -, e⟩ | ⟨start, hs, -, -, e⟩
  · rw [goes_on e hstop]
    exact .inl ⟨rfl, rfl, rfl, rfl⟩
  · rw [goes_on e hstop]
    exact .inl ⟨rfl, rfl, rfl, rfl⟩
  · rw [goes_on e hstop]
    exact .inl ⟨rfl, rfl, rfl, rfl⟩
  · rw [e, State.afterTurn_ends s _ rfl, State.deliver_scan, State.deliver_result]
    exact .inr ⟨rfl, Scan.finish_terminal _ hs rfl⟩

end Sys2Proof.Proofs.Wire
end

section
/-! What an instruction can do, said once, and what follows for every instruction and every step: the invariant
(R24, R29), what stays unchanged (R27, R45, R76), and where the machine stops (R240). -/

namespace Sys2Proof.Machine

/-! ### What an instruction can do -/

/-- One turn of R152's loop leads from `sc` to `sc'`. -/
def Scan.TurnsTo (dcap : Nat) (sc sc' : Scan) : Prop :=
  (∃ next, sc' = sc.flag next) ∨ sc' = sc.escape ∨ ∃ c, sc.unescaped dcap c = .ok sc'

/-- The state an instruction leaves when it completes. -/
inductive ExecNext (s : State) : Instr → State → Prop where
  /-- Only the result port, and perhaps the count of free values. -/
  | answered (i : Instr) (r : Result) (d : Nat) : ExecNext s i { s with result := r, draws := d }
  | encoded (a : Byte) (k : BitVec 2) (q : Seq) (p : List Byte) (ocap : Nat) (r : Result) (m : Memory) (d : Nat)
      (hwf : s.out.wf → m.wf) : ExecNext s (.frmEnc a k q p ocap) { s with result := r, out := m, draws := d }
  | decoded (w : List Byte) (dcap : Nat) (sc : Scan) (hrun : Scan.run dcap w Scan.start = .ok sc) :
      ExecNext s (.frmDec w dcap) (s.deliver dcap sc)
  | appended (n : Nat) (hfit : n ≤ s.free) : ExecNext s (.bufAppend n) { s with tail := s.tail + n, result := .ok }
  | erased (k : Nat) (hfit : k ≤ s.tail) : ExecNext s (.bufErase k) ((s.erasePrefix k).withResult .ok)
  | cleared : ExecNext s .bufClear (s.clearAll.withResult .ok)
  | turned (i : Instr) (sc : Scan) (hport : i.port ≠ .op) (hturn : s.scanning.TurnsTo s.params.dcap sc) :
      ExecNext s i (s.afterTurn sc)

theorem takeTurn_next {s t : State} {r : Except Nat Scan} (h : s.takeTurn r = .next t) :
    ∃ sc, r = .ok sc ∧ t = s.afterTurn sc := by
  cases r with
  | error i => exact nomatch h
  | ok sc => cases h; exact ⟨sc, rfl, rfl⟩

theorem takeTurn_fault {s : State} {r : Except Nat Scan} {f : Fault} (h : s.takeTurn r = .fault f) :
    ∃ i, r = .error i ∧ f = .dstOverflow i := by
  cases r with
  | error i => cases h; exact ⟨i, rfl, rfl⟩
  | ok sc => exact nomatch h

theorem takeTurn_ne_refused (s : State) (r : Except Nat Scan) (x : Refusal) : s.takeTurn r ≠ .refused x := by
  cases r <;> exact nofun

/-- What an instruction answers: a next state, or the fault of the decode or of the control-byte row it is (R230, R240).
No instruction is refused. -/
inductive ExecCase (s : State) (i : Instr) : Prop where
  | next (t : State) (hexec : exec i s = .next t) (hnext : ExecNext s i t)
  | decodeFault (w : List Byte) (dcap x : Nat) (hi : i = .frmDec w dcap)
      (hrun : Scan.run dcap w Scan.start = .error x) (hexec : exec i s = .fault (.dstOverflow x))
  | turnFault (c : Byte) (x : Nat) (hport : i.port = .ctrl) (henc : encode i = [c])
      (hturn : s.scanning.unescaped s.params.dcap c = .error x) (hexec : exec i s = .fault (.dstOverflow x))

/-- A control-byte row takes a turn of the scan in progress. -/
theorem execCase_ctrl {i : Instr} (hport : i.port = .ctrl) (s : State) : ExecCase s i := by
  obtain ⟨c, hc⟩ := exists_encode_of_ctrl hport
  have hexec := exec_ctrl hport hc s
  unfold State.controlByte at hexec
  cases hturn : s.scanning.unescaped s.params.dcap c with
  | error x =>
    rw [hturn] at hexec
    exact .turnFault c x hport hc hturn hexec
  | ok sc =>
    rw [hturn] at hexec
    exact .next _ hexec (.turned i sc (by rw [hport]; exact nofun) (.inr (.inr ⟨c, hturn⟩)))

theorem execCase_frmDec (w : List Byte) (dcap : Nat) (s : State) : ExecCase s (.frmDec w dcap) := by
  cases hrun : Scan.run dcap w Scan.start with
  | error x => exact .decodeFault w dcap x rfl hrun (exec_frmDec_error hrun s)
  | ok sc => exact .next _ (exec_frmDec_ok hrun s) (.decoded w dcap sc hrun)

theorem execCase_frmEnc (a : Byte) (k : BitVec 2) (q : Seq) (p : List Byte) (ocap : Nat) (s : State) :
    ExecCase s (.frmEnc a k q p ocap) := by
  have rejected (h : exec (.frmEnc a k q p ocap) s = .next (encodeRejected ocap s)) :
      ExecCase s (.frmEnc a k q p ocap) :=
    .next _ h (.encoded a k q p ocap _ _ _ (Memory.unspecify_wf _ _ _ _))
  cases hk : Kind.ofCode k with
  | none => exact rejected (by show execFrmEnc a k q p ocap s = _; rw [execFrmEnc, hk])
  | some kind =>
    cases henc : frameEncode a kind q p ocap with
    | none => exact rejected (by show execFrmEnc a k q p ocap s = _; rw [execFrmEnc, hk]; dsimp only; rw [henc])
    | some bytes =>
      refine .next (encodeDone bytes s) ?_ (.encoded a k q p ocap _ _ s.draws (Memory.writeAll_wf _ _ _))
      show execFrmEnc a k q p ocap s = _
      rw [execFrmEnc, hk]
      dsimp only
      rw [henc]

/-- Every instruction answers in one of these ways. -/
theorem execCase (i : Instr) (s : State) : ExecCase s i := by
  cases i with
  | fcsInit | fcsUpdate | fcsFinal | fcsCheck | ctlDec | bufUnused | bufData | bufCap =>
    exact .next _ rfl (.answered _ _ s.draws)
  | escEnc b =>
    by_cases hb : isReserved b
    · exact .next _ (execEscEnc_reserved b s hb) (.answered _ _ s.draws)
    · exact .next _ (execEscEnc_plain b s hb) (.answered _ _ _)
  | escDec p b =>
    by_cases hb : b = Config.ESC
    · subst hb
      exact .next _ rfl (.answered _ _ _)
    · exact .next _ (execEscDec_byte p hb s) (.answered _ _ s.draws)
  | ctlEnc k q =>
    cases hk : Kind.ofCode k with
    | none => exact .next _ (execCtlEnc_none hk q s) (.answered _ _ s.draws)
    | some kind => exact .next _ (execCtlEnc_some hk q s) (.answered _ _ s.draws)
  | frmEnc a k q p ocap => exact execCase_frmEnc a k q p ocap s
  | frmDec w dcap => exact execCase_frmDec w dcap s
  | bufAppend n =>
    by_cases h : s.free < n
    · exact .next _ (if_pos h) (.answered _ _ s.draws)
    · exact .next _ (if_neg h) (.appended n (Nat.le_of_not_lt h))
  | bufErase k =>
    by_cases h : s.tail < k
    · exact .next _ (if_pos h) (.answered _ _ s.draws)
    · exact .next _ (if_neg h) (.erased k (Nat.le_of_not_lt h))
  | bufClear => exact .next _ rfl .cleared
  | ctrlData | ctrlAck | ctrlNack | ctrlUnsupportedS1 | ctrlUnsupportedS3 => exact execCase_ctrl rfl s
  | wireFlag => exact .next _ rfl (.turned _ _ nofun (.inl ⟨_, rfl⟩))
  | wireEscape => exact .next _ rfl (.turned _ _ nofun (.inr (.inl rfl)))

/-- The next state of an instruction. -/
theorem execNext {i : Instr} {s t : State} (h : exec i s = .next t) : ExecNext s i t := by
  cases execCase i s with
  | next t' hexec hnext =>
    rw [hexec] at h
    cases h
    exact hnext
  | decodeFault _ _ _ _ _ hexec => rw [hexec] at h; exact nomatch h
  | turnFault _ _ _ _ _ hexec => rw [hexec] at h; exact nomatch h

/-- No instruction is refused (R230). -/
theorem exec_ne_refused (i : Instr) (s : State) (r : Refusal) : exec i s ≠ .refused r := by
  intro h
  cases execCase i s with
  | next _ hexec => rw [hexec] at h; exact nomatch h
  | decodeFault _ _ _ _ _ hexec => rw [hexec] at h; exact nomatch h
  | turnFault _ _ _ _ _ hexec => rw [hexec] at h; exact nomatch h

/-- A fault is `FRM.DEC`'s, or that of a control-byte row (R230, R240). -/
theorem exec_fault {i : Instr} {s : State} {f : Fault} (h : exec i s = .fault f) :
    (∃ w dcap x, i = .frmDec w dcap ∧ Scan.run dcap w Scan.start = .error x) ∨
      (i.port = .ctrl ∧ ∃ c x, s.scanning.unescaped s.params.dcap c = .error x) := by
  cases execCase i s with
  | next _ hexec => rw [hexec] at h; exact nomatch h
  | decodeFault w dcap x hi hrun => exact .inl ⟨w, dcap, x, hi, hrun⟩
  | turnFault c x hport _ hturn => exact .inr ⟨hport, c, x, hturn⟩

/-! ### What an instruction leaves unchanged -/

section frame

variable {s t : State} {i : Instr} (h : ExecNext s i t)

include h

theorem ExecNext.params : t.params = s.params := by cases h <;> simp

theorem ExecNext.inputs : t.inputs = s.inputs := by cases h <;> simp

/-- An operation, unlike a row of the wire format, leaves the scan in progress alone. -/
theorem ExecNext.scan (hport : i.port = .op) : t.scan = s.scan := by
  cases h with
  | turned _ _ hp => exact absurd hport hp
  | _ => simp

/-- Only `FRM.ENC` writes the sink. -/
theorem ExecNext.out (hi : ∀ a k q p ocap, i ≠ .frmEnc a k q p ocap) : t.out = s.out := by
  cases h with
  | encoded a k q p ocap => exact absurd rfl (hi a k q p ocap)
  | _ => simp

/-- The buffer's contents and bound are those of `BUF.APPEND`, `BUF.ERASE` and `BUF.CLEAR` only (R76). -/
theorem ExecNext.sameBlock (ha : ∀ n, i ≠ .bufAppend n) (he : ∀ k, i ≠ .bufErase k) (hc : i ≠ .bufClear) :
    SameBlock s t := by
  cases h with
  | appended n => exact absurd rfl (ha n)
  | erased k => exact absurd rfl (he k)
  | cleared => exact absurd rfl hc
  | _ => exact ⟨by simp, by simp, by simp⟩

end frame

/-! ### The invariant -/

/-- A turn keeps the registers' invariant until the closing Flag is found. -/
theorem Scan.Inv.turnsTo {dcap : Nat} {sc sc' : Scan} (h : sc.Inv dcap) (ht : sc.TurnsTo dcap sc') :
    sc'.frameStop.isSome = true ∨ sc'.Inv dcap := by
  rcases ht with ⟨next, rfl⟩ | rfl | ⟨c, hc⟩
  · exact h.flag next
  · exact .inr h.escape
  · exact .inr (h.unescaped c hc)

theorem State.Inv.scanning {s : State} (h : s.Inv) : s.scanning.Inv s.params.dcap := by
  unfold State.scanning
  cases hs : s.scan with
  | none => exact Scan.start_inv _
  | some sc => exact h.scanInv sc hs

theorem State.Inv.afterTurn {s : State} (h : s.Inv) {sc : Scan} (ht : s.scanning.TurnsTo s.params.dcap sc) :
    (s.afterTurn sc).Inv where
  headZero := rfl
  tailBound := by simpa using h.tailBound
  bufWf := by simpa using h.bufWf
  bufBound := by simpa using h.bufBound
  dstWf := State.afterTurn_dst_wf s sc h.dstWf
  outWf := by simpa using h.outWf
  scanInv := by
    intro sc' hsc
    rw [State.afterTurn_params]
    rcases State.afterTurn_scan s sc with ⟨hnone, -⟩ | ⟨hsome, hstop⟩
    · rw [hnone] at hsc
      exact nomatch hsc
    · rw [hsome] at hsc
      cases hsc
      refine (h.scanning.turnsTo ht).resolve_left ?_
      simp [hstop]

theorem State.Inv.deliver {s : State} (h : s.Inv) (dcap : Nat) (sc : Scan) : (s.deliver dcap sc).Inv where
  headZero := rfl
  tailBound := by simpa using h.tailBound
  bufWf := by simpa using h.bufWf
  bufBound := by simpa using h.bufBound
  dstWf := State.deliver_dst_wf s dcap sc h.dstWf
  outWf := by simpa using h.outWf
  scanInv := by simpa using h.scanInv

theorem State.erasePrefix_buf_inv {s : State} (h : s.Inv) {k : Nat} (hk : k ≤ s.tail) :
    (s.erasePrefix k).buf.wf ∧ (s.erasePrefix k).buf.below s.params.cap := by
  have htail := h.tailBound
  unfold State.erasePrefix
  split
  · exact ⟨h.bufWf, h.bufBound⟩
  · exact ⟨Memory.unspecify_wf _ _ _ _ (Memory.copyDown_wf _ _ _ _ _ h.bufWf),
      Memory.unspecify_below _ _ _ _ _ (Memory.copyDown_below _ _ _ _ _ _ h.bufBound (by omega)) (by dsimp only; omega)⟩

theorem State.clearAll_buf_inv {s : State} (h : s.Inv) :
    s.clearAll.buf.wf ∧ s.clearAll.buf.below s.params.cap := by
  unfold State.clearAll
  split
  · exact ⟨h.bufWf, h.bufBound⟩
  · exact ⟨Memory.unspecify_wf _ _ _ _ h.bufWf, Memory.unspecify_below _ _ _ _ _ h.bufBound (by dsimp only; omega)⟩

/-- Every instruction that completes keeps the invariant. -/
theorem State.Inv.exec {s t : State} {i : Instr} (h : s.Inv) (he : ExecNext s i t) : t.Inv := by
  have htail := h.tailBound
  cases he with
  | answered => exact { h with }
  | encoded _ _ _ _ _ _ _ _ hwf => exact { h with outWf := hwf h.outWf }
  | decoded w dcap sc => exact h.deliver dcap sc
  | appended n hfit => exact { h with tailBound := by rw [State.free] at hfit; dsimp only; omega }
  | erased k hfit =>
    obtain ⟨hwf, hbelow⟩ := State.erasePrefix_buf_inv h hfit
    exact
      { headZero := rfl
        tailBound := by simp only [State.withResult_tail, State.erasePrefix_tail, State.withResult_params,
          State.erasePrefix_params]; omega
        bufWf := hwf
        bufBound := by simpa using hbelow
        dstWf := by simpa using h.dstWf
        outWf := by simpa using h.outWf
        scanInv := by simpa using h.scanInv }
  | cleared =>
    obtain ⟨hwf, hbelow⟩ := State.clearAll_buf_inv h
    exact
      { headZero := rfl
        tailBound := by simp
        bufWf := hwf
        bufBound := by simpa using hbelow
        dstWf := by simpa using h.dstWf
        outWf := by simpa using h.outWf
        scanInv := by simpa using h.scanInv }
  | turned _ sc _ hturn => exact h.afterTurn hturn

theorem State.Inv.controlByte {s t : State} (h : s.Inv) {c : Byte} (he : s.controlByte c = .next t) : t.Inv := by
  obtain ⟨sc, hturn, rfl⟩ := takeTurn_next he
  exact h.afterTurn (.inr (.inr ⟨c, hturn⟩))

theorem State.resetWith_inv (p : Config.Params) : (State.resetWith p).Inv where
  headZero := rfl
  tailBound := Nat.zero_le _
  bufWf := .nil
  bufBound := nofun
  dstWf := .nil
  outWf := .nil
  scanInv := nofun

/-! ### The stops -/

/-- An unescaped byte overflows exactly when it is a body byte at position 2 or later, behind the opening Flag, and the
destination is full (R162). -/
theorem Scan.unescaped_error_iff {dcap x : Nat} {c : Byte} {sc : Scan} :
    sc.unescaped dcap c = .error x ↔
      sc.frameStart.isSome ∧ 2 ≤ sc.pos ∧ sc.stored.length = dcap ∧ x = sc.i := by
  unfold Scan.unescaped
  cases sc.frameStart with
  | none => simp
  | some start =>
    rcases Scan.consume_cases dcap c sc with ⟨p, e⟩ | ⟨p, e⟩ | ⟨p, hc, e⟩ | ⟨p, hc, e⟩ <;>
      simp only [e, reduceCtorEq]
    · simp [p]
    · simp [p]
    · simpa [p] using fun h => absurd h hc
    · simpa [p, hc] using eq_comm

/-- `FRM.DEC` overflows only on a window longer than `dcap + 3` bytes (R162). -/
theorem Scan.lt_length_of_run_error {dcap x : Nat} {w : List Byte} (h : Scan.run dcap w Scan.start = .error x) :
    dcap + 3 < w.length := by
  have hlate := Scan.start_content.run_error (Scan.start_inv dcap) h
  rw [show Scan.start.i = 0 from rfl] at hlate
  omega

theorem controlByte_fault_iff {s : State} {c : Byte} {x : Nat} :
    s.controlByte c = .fault (.dstOverflow x) ↔ s.scanning.unescaped s.params.dcap c = .error x := by
  unfold State.controlByte
  constructor
  · intro h
    obtain ⟨y, hy, e⟩ := takeTurn_fault h
    cases e
    exact hy
  · intro h
    rw [h]
    rfl

/-- What a step refuses (assumptions 8, 17). -/
theorem step_refused_iff (s : State) (r : Refusal) :
    step s = .refused r ↔
      (r = .malformedIssue ∧
        ∃ lanes rest e, s.inputs = .issue lanes :: rest ∧ decode .op lanes = .error e) ∨
      (r = .fillOutsideSuffix ∧
        ∃ x b rest, s.inputs = .fill x b :: rest ∧ ¬ (s.tail ≤ x ∧ x < s.params.cap)) := by
  constructor
  · intro h
    cases step_case s with
    | idle _ hstep => rw [hstep] at h; exact nomatch h
    | issued _ _ _ _ _ _ _ hstep => exact absurd (hstep ▸ h) (exec_ne_refused _ _ _)
    | malformed lanes rest e hin hdec hstep =>
      rw [hstep] at h
      cases h
      exact .inl ⟨rfl, lanes, rest, e, hin, hdec⟩
    | flag _ _ hstep => exact absurd (hstep ▸ h) (exec_ne_refused _ _ _)
    | escape _ _ hstep => exact absurd (hstep ▸ h) (exec_ne_refused _ _ _)
    | other _ _ _ _ _ hstep => exact absurd (hstep ▸ h) (takeTurn_ne_refused _ _ _)
    | windowEnd _ _ hstep => rw [hstep] at h; exact nomatch h
    | filled _ _ _ _ _ hstep => rw [hstep] at h; exact nomatch h
    | denied x b rest hin hx hstep =>
      rw [hstep] at h
      cases h
      exact .inr ⟨rfl, x, b, rest, hin, hx⟩
  · rintro (⟨rfl, lanes, rest, e, hin, hdec⟩ | ⟨rfl, x, b, rest, hin, hx⟩)
    · exact step_issue_error hin hdec
    · exact step_fill_outside hin hx

/-- A byte presented to the scan in progress overflows as a body byte does (assumptions 11, 24). -/
theorem step_wire_fault_iff {s : State} {b : Byte} {rest : List Input} {x : Nat} (hin : s.inputs = .wire b :: rest) :
    step s = .fault (.dstOverflow x) ↔
      b ≠ Config.FLAG ∧ b ≠ Config.ESC ∧ s.scanning.frameStart.isSome ∧ 2 ≤ s.scanning.pos ∧
        s.scanning.stored.length = s.params.dcap ∧ x = s.scanning.i := by
  by_cases hf : b = Config.FLAG
  · subst hf
    rw [step_wire_flag hin, exec_wireFlag]
    simp
  · by_cases he : b = Config.ESC
    · subst he
      rw [step_wire_escape hin, exec_wireEscape]
      simp
    · rw [step_wire_other hin hf he, controlByte_fault_iff]
      refine Iff.trans Scan.unescaped_error_iff ?_
      simp only [hf, he, ne_eq, not_false_eq_true, true_and]
      exact Iff.rfl

end Sys2Proof.Machine

namespace Sys2Proof.Proofs.WholeMachine

open Sys2Proof.Machine

/-- Settles O46: by the kind of input, and for an instruction by what it can do. -/
theorem stepKeepsInvariant : Obligations.StepKeepsInvariant := by
  intro s t hinv hstep
  have taken (rest : List Input) : ({ s with inputs := rest } : State).Inv := { hinv with }
  cases step_case s with
  | idle _ he =>
    rw [he] at hstep
    cases hstep
    exact hinv
  | issued _ rest _ i _ _ _ he => exact (taken rest).beginOperation.exec (execNext (he ▸ hstep))
  | malformed _ _ _ _ _ he => rw [he] at hstep; exact nomatch hstep
  | flag rest _ he => exact (taken rest).exec (execNext (he ▸ hstep))
  | escape rest _ he => exact (taken rest).exec (execNext (he ▸ hstep))
  | other _ rest _ _ _ he => exact (taken rest).controlByte (he ▸ hstep)
  | windowEnd rest _ he =>
    rw [he] at hstep
    cases hstep
    exact (taken rest).beginOperation.deliver _ _
  | filled x b rest _ hx he =>
    rw [he] at hstep
    cases hstep
    exact { hinv with
      bufWf := Memory.write_wf _ _ _ hinv.bufWf, bufBound := Memory.write_below _ _ _ _ hinv.bufBound hx.2 }
  | denied _ _ _ _ _ he => rw [he] at hstep; exact nomatch hstep

/-- Settles O47: an empty buffer and empty spaces meet every clause. -/
theorem resetIsEmptyAndInvariant : Obligations.ResetIsEmptyAndInvariant := fun p =>
  ⟨rfl, rfl, rfl, rfl, rfl, rfl, rfl, rfl, rfl, rfl, State.resetWith_inv p⟩

/-- Settles O48: of what an instruction can do, only the three operations' own ways touch buffer and tail. -/
theorem onlyBufferOpsChangeTheBlock : Obligations.OnlyBufferOpsChangeTheBlock := fun _ _ _ h ha he hc =>
  (execNext h).sameBlock ha he hc

/-- Settles O49: no way an instruction can go changes parameters or inputs, nor does any other input's step. -/
theorem stepKeepsParameters : Obligations.StepKeepsParameters := by
  intro s t hstep
  cases step_case s with
  | idle hin he =>
    rw [he] at hstep
    cases hstep
    exact ⟨rfl, by rw [hin]; rfl⟩
  | issued _ rest _ i hin _ _ he =>
    have hnext := execNext (he ▸ hstep)
    exact ⟨hnext.params, by rw [hnext.inputs, hin]; rfl⟩
  | malformed _ _ _ _ _ he => rw [he] at hstep; exact nomatch hstep
  | flag rest hin he =>
    have hnext := execNext (he ▸ hstep)
    exact ⟨hnext.params, by rw [hnext.inputs, hin]; rfl⟩
  | escape rest hin he =>
    have hnext := execNext (he ▸ hstep)
    exact ⟨hnext.params, by rw [hnext.inputs, hin]; rfl⟩
  | other _ rest hin _ _ he =>
    obtain ⟨sc, -, rfl⟩ := takeTurn_next (he ▸ hstep)
    exact ⟨by simp, by simp [hin]⟩
  | windowEnd rest hin he =>
    rw [he] at hstep
    cases hstep
    exact ⟨by simp, by simp [hin]⟩
  | filled x b rest hin _ he =>
    rw [he] at hstep
    cases hstep
    exact ⟨rfl, by rw [hin]; rfl⟩
  | denied _ _ _ _ _ he => rw [he] at hstep; exact nomatch hstep

/-- Settles O50: the two faults an instruction can end in, with the bound of R162 on each. -/
theorem onlyFrameScansFault : Obligations.OnlyFrameScansFault := by
  intro i s
  refine ⟨exec_ne_refused i s, fun f h => ?_⟩
  rcases exec_fault h with ⟨w, dcap, x, rfl, hrun⟩ | ⟨hport, c, x, hturn⟩
  · exact .inl ⟨w, dcap, rfl, Scan.lt_length_of_run_error hrun⟩
  · exact .inr ⟨hport, (Scan.unescaped_error_iff.1 hturn).2.2.1⟩

/-- Settles O55: by the kind of input; an issued operation is no control-byte row. -/
theorem stopsOfAStep : Obligations.StopsOfAStep := by
  intro s
  refine ⟨step_refused_iff s, fun lanes rest f hin h => ?_, fun b rest x hin => step_wire_fault_iff hin,
    fun f hin h => ?_⟩
  · cases hdec : decode .op lanes with
    | error e =>
      rw [step_issue_error hin hdec] at h
      exact nomatch h
    | ok d =>
      obtain ⟨i, spare⟩ := d
      have hport := decode_op_port hdec
      rw [step_issue_ok hin hdec] at h
      rcases exec_fault h with ⟨w, dcap, x, rfl, hrun⟩ | ⟨hctrl, -⟩
      · exact ⟨w, dcap, spare, rfl, Scan.lt_length_of_run_error hrun⟩
      · rw [hport] at hctrl
        exact nomatch hctrl
  · rcases hin with hin | ⟨rest, hin⟩ | ⟨x, b, rest, hin⟩
    · rw [step_idle hin] at h
      exact nomatch h
    · rw [step_windowEnd hin] at h
      exact nomatch h
    · by_cases hx : s.tail ≤ x ∧ x < s.params.cap
      · rw [step_fill_inside hin hx] at h
        exact nomatch h
      · rw [step_fill_outside hin hx] at h
        exact nomatch h

end Sys2Proof.Proofs.WholeMachine
end

section
/-! The scan presented byte by byte against the one operation (R152): as long as the scan goes on each step is one turn
of `Scan.run`, and the step that ends it delivers what `FRM.DEC` does. -/

namespace Sys2Proof.Machine

/-- Whatever the byte, a step on it is one turn of R152's loop, the look-ahead being the next byte presented. -/
theorem step_wire_turn {s : State} {b : Byte} {rest : List Input} (h : s.inputs = .wire b :: rest) :
    step s = State.takeTurn { s with inputs := rest }
      (s.scanning.turn s.params.dcap b (State.lookAhead { s with inputs := rest })) := by
  unfold Scan.turn
  by_cases hf : b = Config.FLAG
  · subst hf
    rw [if_pos rfl, step_wire_flag h]
    rfl
  · by_cases he : b = Config.ESC
    · subst he
      rw [if_neg hf, if_pos rfl, step_wire_escape h]
      rfl
    · rw [if_neg hf, if_neg he, step_wire_other h hf he]
      rfl

/-- The look-ahead into a window that is presented byte by byte (R152). -/
theorem State.lookAhead_wires {s : State} {w : List Byte} {rest : List Input}
    (h : s.inputs = w.map Input.wire ++ .windowEnd :: rest) : s.lookAhead = nextIsFlag w := by
  unfold State.lookAhead
  rw [h]
  cases w <;> rfl

theorem Core.run_succ_next (M : Host.Core) {s t : M.State} (h : M.step s = .next t) (k : Nat) :
    M.run (k + 1) s = M.run k t := by
  rw [Host.Core.run, h]

theorem Core.run_one_fault (M : Host.Core) {s : M.State} {f : M.Fault} (h : M.step s = .fault f) :
    M.run 1 s = .fault f := by
  rw [Host.Core.run, h]

theorem run_succ_next {s t : State} (h : step s = .next t) (k : Nat) :
    Host.Core.run core (k + 1) s = Host.Core.run core k t := Core.run_succ_next core h k

theorem run_one_fault {s : State} {f : Fault} (h : step s = .fault f) : Host.Core.run core 1 s = .fault f :=
  Core.run_one_fault core h

theorem run_one_next {s t : State} (h : step s = .next t) : Host.Core.run core 1 s = .next t := run_succ_next h 0

/-- A turn overflows at the scan index (R162). -/
theorem Scan.turn_error {dcap j : Nat} {b : Byte} {next : Bool} {sc : Scan} (h : sc.turn dcap b next = .error j) :
    j = sc.i := by
  unfold Scan.turn at h
  split at h
  · exact nomatch h
  · split at h
    · exact nomatch h
    · exact (Scan.unescaped_error_iff.1 h).2.2.2

/-- The state in which a scan of the window `w`, presented byte by byte, stands at the registers `sc`. -/
structure State.Presents (s : State) (sc : Scan) (w : List Byte) (rest : List Input) : Prop where
  scanning : s.scanning = sc
  goesOn : sc.frameStop = none
  inputs : s.inputs = w.map Input.wire ++ .windowEnd :: rest

/-- The first byte of the window is one turn of the scan. -/
theorem State.Presents.step_turn {s : State} {sc : Scan} {b : Byte} {w : List Byte} {rest : List Input}
    (h : s.Presents sc (b :: w) rest) :
    step s = State.takeTurn { s with inputs := w.map Input.wire ++ .windowEnd :: rest }
      (sc.turn s.params.dcap b (nextIsFlag w)) := by
  rw [step_wire_turn h.inputs, h.scanning, State.lookAhead_wires (w := w) rfl]
  rfl

/-- A turn that does not end the scan leaves the rest of the window presented to it. -/
theorem State.Presents.next {s : State} {sc sc1 : Scan} {b : Byte} {w : List Byte} {rest : List Input}
    (h : s.Presents sc (b :: w) rest) (ht : sc.turn s.params.dcap b (nextIsFlag w) = .ok sc1)
    (hn : sc1.frameStop = none) :
    ∃ t, step s = .next t ∧ t = { s with inputs := w.map Input.wire ++ .windowEnd :: rest, scan := some sc1 } ∧
      t.Presents sc1 w rest := by
  refine ⟨_, ?_, rfl, rfl, hn, rfl⟩
  rw [h.step_turn, takeTurn_goes_on ht hn]

/-- An overflow of the scan is the fault of the step on that byte. -/
theorem State.Presents.run_error {w : List Byte} {rest : List Input} {s : State} {sc : Scan} {i : Nat}
    (h : s.Presents sc w rest) (hrun : Scan.run s.params.dcap w sc = .error i) :
    ∃ k, i + 1 = sc.i + k ∧ Host.Core.run core k s = .fault (.dstOverflow i) := by
  induction w generalizing s sc with
  | nil => exact nomatch hrun
  | cons b w ih =>
    rw [Scan.run] at hrun
    cases ht : sc.turn s.params.dcap b (nextIsFlag w) with
    | error j =>
      rw [ht] at hrun
      cases hrun
      exact ⟨1, by rw [Scan.turn_error ht], run_one_fault (by rw [h.step_turn, ht]; rfl)⟩
    | ok sc1 =>
      rw [ht] at hrun
      dsimp only at hrun
      split at hrun
      · exact nomatch hrun
      · rename_i hn
        obtain ⟨t, hstep, rfl, hpres⟩ := h.next ht (by simpa using hn)
        obtain ⟨k, hk, hfault⟩ := ih hpres hrun
        rw [Scan.turn_i _ ht] at hk
        exact ⟨k + 1, by omega, by rw [run_succ_next hstep, hfault]⟩

/-- A scan that ends at its closing Flag delivers its outcome in the step on that Flag; one that does not, in the step on
the window's end. -/
theorem State.Presents.run_ok {w : List Byte} {rest : List Input} {s : State} {sc sc' : Scan}
    (h : s.Presents sc w rest) (hrun : Scan.run s.params.dcap w sc = .ok sc') :
    (∃ start stop k, sc'.frameStart = some start ∧ sc'.frameStop = some stop ∧ stop + 1 = sc.i + k ∧
      Host.Core.run core k s =
        .next (State.deliver { s with scan := none, inputs := s.inputs.drop k } s.params.dcap sc')) ∨
    (sc'.frameStop = none ∧ Host.Core.run core (w.length + 1) s =
      .next (State.deliver { s with scan := none, inputs := rest } s.params.dcap sc')) := by
  induction w generalizing s sc with
  | nil =>
    cases hrun
    refine .inr ⟨h.goesOn, run_one_next ?_⟩
    rw [step_windowEnd h.inputs, h.scanning]
  | cons b w ih =>
    rw [Scan.run] at hrun
    cases ht : sc.turn s.params.dcap b (nextIsFlag w) with
    | error j =>
      rw [ht] at hrun
      exact nomatch hrun
    | ok sc1 =>
      rw [ht] at hrun
      dsimp only at hrun
      rcases Scan.turn_stop _ h.goesOn ht with hn | ⟨hstop, -, -, start, hstart, hclosed⟩
      · rw [hn] at hrun
        obtain ⟨t, hstep, rfl, hpres⟩ := h.next ht hn
        rcases ih hpres hrun with ⟨start, stop, k, hs, he, hk, hdone⟩ | ⟨he, hdone⟩
        · rw [Scan.turn_i _ ht] at hk
          refine .inl ⟨start, stop, k + 1, hs, he, by omega, ?_⟩
          rw [run_succ_next hstep, hdone, h.inputs]
          rfl
        · exact .inr ⟨he, by rw [List.length_cons, run_succ_next hstep, hdone]⟩
      · rw [hstop] at hrun
        cases hrun
        refine .inl ⟨start, sc.i, 1, by rw [hclosed]; exact hstart, hstop, rfl, run_one_next ?_⟩
        rw [h.step_turn, ht, h.inputs]
        exact congrArg Host.Outcome.next (State.afterTurn_ends _ _ (by rw [hstop]; rfl))

/-- The end of a scan neither reads nor changes what is presented. -/
theorem State.deliver_with_inputs {s : State} (h : s.scan = none) (dcap : Nat) (sc : Scan) (inputs : List Input) :
    State.deliver { s with scan := none, inputs := inputs } dcap sc = { s.deliver dcap sc with inputs := inputs } := by
  rw [← h]
  unfold State.deliver
  split <;> rfl

end Sys2Proof.Machine

namespace Sys2Proof.Proofs.Refinement

open Sys2Proof.Machine

/-- Settles O36: the stepwise scan simulates `Scan.run`, from its start on. -/
theorem wireStepsRefineFrmDec : Obligations.WireStepsRefineFrmDec := by
  intro s w rest hscan hin
  have hpres : s.Presents Scan.start w rest := ⟨by rw [State.scanning, hscan]; rfl, rfl, hin⟩
  cases hrun : Scan.run s.params.dcap w Scan.start with
  | error i =>
    rw [exec_frmDec_error hrun]
    obtain ⟨k, hk, hfault⟩ := hpres.run_error hrun
    rw [show Scan.start.i = 0 from rfl, Nat.zero_add] at hk
    rw [← hk] at hfault
    exact hfault
  | ok sc =>
    rw [exec_frmDec_ok hrun]
    have hres := State.deliver_result s s.params.dcap sc
    rcases hpres.run_ok hrun with ⟨start, stop, k, hs, he, hk, hdone⟩ | ⟨he, hdone⟩
    · obtain ⟨hterm, hd⟩ := sc.finish_terminal hs he
      rw [show Scan.start.i = 0 from rfl, Nat.zero_add] at hk
      refine ⟨k, fun _ => by rw [hres, hd, hk], fun hno => absurd (hres ▸ hterm) hno, ?_⟩
      rw [hdone, State.deliver_with_inputs hscan]
    · have hno : ¬ IsTerminal (s.deliver s.params.dcap sc).result := by
        rw [hres, sc.finish_noFrame he]
        exact not_isTerminal_noFrame 0
      refine ⟨w.length + 1, fun hterm => absurd hterm hno, fun _ => rfl, ?_⟩
      have hrest : s.inputs.drop (w.length + 1) = rest := by
        rw [hin, ← List.drop_drop, List.drop_left' (List.length_map _)]
        rfl
      rw [hdone, State.deliver_with_inputs hscan, hrest]

end Sys2Proof.Proofs.Refinement
end

section
/-! The reassembly buffer's three writing operations and the two sequences of R78: `RX.PUSH` appends, `RX.POLL` decodes,
erases what the decode consumed and recovers from an overflow (R182 to R188). -/

namespace Sys2Proof.Machine

/-! ### The three writing operations -/

theorem exec_bufAppend_fits {n : Nat} {s : State} (h : n ≤ s.free) :
    exec (.bufAppend n) s = .next { s with tail := s.tail + n, result := .ok } := if_neg (Nat.not_lt.2 h)

theorem exec_bufAppend_refused {n : Nat} {s : State} (h : s.free < n) :
    exec (.bufAppend n) s = .next (s.withResult .invalidArgument) := if_pos h

theorem exec_bufErase_fits {k : Nat} {s : State} (h : k ≤ s.tail) :
    exec (.bufErase k) s = .next ((s.erasePrefix k).withResult .ok) := if_neg (Nat.not_lt.2 h)

theorem exec_bufErase_refused {k : Nat} {s : State} (h : s.tail < k) :
    exec (.bufErase k) s = .next (s.withResult .invalidArgument) := if_pos h

theorem exec_bufClear (s : State) : exec .bufClear s = .next (s.clearAll.withResult .ok) := rfl

/-- An erase changes buffer, tail and the count of free values only. -/
theorem State.erasePrefix_eq (s : State) (k : Nat) :
    s.erasePrefix k =
      { s with buf := (s.erasePrefix k).buf, tail := s.tail - k, draws := (s.erasePrefix k).draws } := by
  unfold State.erasePrefix
  split
  · subst_vars; rfl
  · rfl

@[simp] theorem State.erasePrefix_zero (s : State) : s.erasePrefix 0 = s := if_pos rfl

/-- So does a clear. -/
theorem State.clearAll_eq (s : State) :
    s.clearAll = { s with buf := s.clearAll.buf, tail := 0, draws := s.clearAll.draws } := by
  unfold State.clearAll
  split
  · rename_i h
    rw [← h]
  · rfl

theorem State.clearAll_of_empty {s : State} (h : s.tail = 0) : s.clearAll = s := if_pos h

/-! ### `RX.PUSH` -/

/-- The block after a push that fits. -/
def State.pushed (s : State) (bytes : List Byte) : State :=
  { s with
    buf := s.buf.writeAll s.tail bytes
    tail := s.tail + bytes.length
    result := .ok
    scan := none }

theorem State.pushed_data (s : State) (bytes : List Byte) : (s.pushed bytes).data = s.data ++ bytes :=
  s.data_of_writeAll bytes

theorem rxPush_eq {s : State} {bytes : List Byte} (h : bytes.length ≤ s.params.cap - s.tail) :
    rxPush bytes s = .next (s.pushed bytes) := by
  have hfit : bytes = [] ∨ s.tail + bytes.length ≤ s.params.cap := by
    cases bytes with
    | nil => exact .inl rfl
    | cons b bs =>
      rw [List.length_cons] at h ⊢
      exact .inr (by omega)
  have hfill := fillAll_eq bytes (s.beginOperation.withResult (.unused s.tail s.free)) s.tail (Nat.le_refl _) hfit
  rw [rxPush, issue, exec_bufUnused, andThen_next]
  show andThen (fillAll s.tail bytes (s.beginOperation.withResult (.unused s.tail s.free))) _ = _
  rw [hfill, andThen_next]
  exact exec_bufAppend_fits h

/-! ### `RX.POLL` -/

/-- The block `BUF.DATA` leaves, whose window `RX.POLL` decodes. -/
def State.windowed (s : State) : State := s.beginOperation.withResult (.window s.data s.tail)

/-- Behind the decode of its window a poll erases what the decode consumed and recovers from an overflow (R78). -/
theorem rxPoll_decoded {s : State} {dcap : Nat} {sc : Scan} (hrun : Scan.run dcap s.data Scan.start = .ok sc) :
    rxPoll dcap s =
      andThen (if 0 < sc.finish.discard then issue (.bufErase sc.finish.discard) (s.windowed.deliver dcap sc)
        else .next (s.windowed.deliver dcap sc)) fun s3 =>
      andThen (if sc.finish.status = some .noFrame ∧ s.full then issue .bufClear s3 else .next s3) fun s4 =>
        .next (s4.withResult sc.finish) := by
  have hdec : issue (.frmDec s.data dcap) s.windowed = .next (s.windowed.deliver dcap sc) :=
    exec_frmDec_ok hrun s.windowed
  rw [rxPoll, show issue .bufData s = .next s.windowed from rfl, andThen_next, hdec, andThen_next, State.deliver_result]

/-- A poll whose decode is `NoFrame` clears a full buffer and leaves any other (R188). -/
theorem rxPoll_noFrame {s : State} {dcap : Nat} {sc : Scan} (hrun : Scan.run dcap s.data Scan.start = .ok sc)
    (hfin : sc.finish = .noFrame 0) :
    rxPoll dcap s =
      .next ((if s.full then (s.windowed.deliver dcap sc).beginOperation.clearAll else s.windowed.deliver dcap sc).withResult
        (.noFrame 0)) := by
  have hnone : ¬ 0 < (Result.noFrame 0).discard := Nat.lt_irrefl 0
  rw [rxPoll_decoded hrun, hfin, if_neg hnone, andThen_next]
  cases hfull : s.full with
  | true => rfl
  | false => rfl

/-- A poll whose decode is terminal erases the bytes it consumed and keeps its result (R160). -/
theorem rxPoll_terminal {s : State} {dcap : Nat} {sc : Scan} (hrun : Scan.run dcap s.data Scan.start = .ok sc)
    (hterm : IsTerminal sc.finish) (hle : sc.finish.discard ≤ s.tail) :
    rxPoll dcap s =
      .next (((s.windowed.deliver dcap sc).beginOperation.erasePrefix sc.finish.discard).withResult sc.finish) := by
  obtain ⟨stop, -, hd⟩ := Scan.of_finish_terminal hterm
  have hstatus : ¬ (sc.finish.status = some .noFrame ∧ s.full) := by
    rintro ⟨hno, -⟩
    revert hterm hno
    cases sc.finish <;> simp [Result.status, IsTerminal]
  have herase : issue (.bufErase sc.finish.discard) (s.windowed.deliver dcap sc) =
      .next (((s.windowed.deliver dcap sc).beginOperation.erasePrefix sc.finish.discard).withResult .ok) :=
    exec_bufErase_fits (by rw [State.beginOperation_tail, State.deliver_tail]; exact hle)
  rw [rxPoll_decoded hrun, if_pos (by omega), herase, andThen_next, if_neg hstatus, andThen_next]
  rfl

/-- The decode's step of a poll leaves the readable data. -/
theorem State.windowed_deliver_data (s : State) (dcap : Nat) (sc : Scan) :
    (s.windowed.deliver dcap sc).data = s.data := by
  rw [State.data, State.deliver_buf, State.deliver_tail]
  rfl

theorem State.full_iff (s : State) : s.full = true ↔ s.tail = s.params.cap := by
  simp [State.full]

/-- A poll that finds no frame keeps the data of a buffer that is not full (R159, R188). -/
theorem rxPoll_keeps {s : State} {dcap : Nat} {sc : Scan} (hrun : Scan.run dcap s.data Scan.start = .ok sc)
    (hfin : sc.finish = .noFrame 0) (hfull : s.tail ≠ s.params.cap) :
    ∃ t, rxPoll dcap s = .next t ∧ t.result = .noFrame 0 ∧ t.tail = s.tail ∧ t.data = s.data ∧
      t.params = s.params := by
  refine ⟨_, rxPoll_noFrame hrun hfin, rfl, ?_⟩
  rw [if_neg (mt s.full_iff.1 hfull)]
  refine ⟨?_, s.windowed_deliver_data dcap sc, ?_⟩
  · rw [State.withResult_tail, State.deliver_tail]
    rfl
  · rw [State.withResult_params, State.deliver_params]
    rfl

end Sys2Proof.Machine

namespace Sys2Proof.Proofs.Reassembly

open Sys2Proof.Machine

/-- Settles O38: the two cases of R182 meet where exactly the free cells are asked for. -/
theorem bufAppendAdvancesTail : Obligations.BufAppendAdvancesTail := fun _ _ =>
  ⟨fun h => exec_bufAppend_fits h, fun h => exec_bufAppend_refused h⟩

/-- Settles O40: the copy loop moves the bytes behind the first `k` down to cell 0. -/
theorem bufEraseDropsOldestBytes : Obligations.BufEraseDropsOldestBytes := by
  intro s k
  refine ⟨fun h => ⟨(s.erasePrefix k).buf, (s.erasePrefix k).draws, ?_, ?_, s.erasePrefix_buf_outside k, ?_⟩,
    fun h => exec_bufErase_refused h⟩
  · rw [exec_bufErase_fits h, State.erasePrefix_eq]
    rfl
  · rw [← State.erasePrefix_data s k h, State.data, State.data, State.erasePrefix_tail]
  · rintro rfl
    rw [State.erasePrefix_zero]

/-- Settles O41: the tail is 0 afterwards, and an empty buffer is left as it is. -/
theorem bufClearEmptiesBuffer : Obligations.BufClearEmptiesBuffer := by
  intro s
  refine ⟨s.clearAll.buf, s.clearAll.draws, ?_, rfl, s.clearAll_buf_outside,
    fun h => by rw [State.clearAll_of_empty h]⟩
  rw [exec_bufClear, State.clearAll_eq]
  rfl

/-- Settles O43: the fill writes the cells from the tail on, and the append makes them readable. -/
theorem rxPushAppendsBytes : Obligations.RxPushAppendsBytes := fun s bytes h =>
  ⟨s.buf.writeAll s.tail bytes, rxPush_eq h, s.pushed_data bytes⟩

/-- Settles O44: with no bytes consumed only the overflow recovery can change the buffer. -/
theorem rxPollRecoversOverflow : Obligations.RxPollRecoversOverflow := by
  intro s dcap h
  obtain ⟨sc, hrun, hfin⟩ := decoded_ok_iff.1 h
  refine ⟨_, rxPoll_noFrame hrun hfin, rfl, fun hfull => ?_, fun hfull => ?_⟩
  · rw [if_pos (s.full_iff.2 hfull)]
    exact ⟨State.clearAll_tail _, State.clearAll_data _⟩
  · obtain ⟨t, hpoll, -, htail, hdata, -⟩ := rxPoll_keeps hrun hfin hfull
    rw [rxPoll_noFrame hrun hfin] at hpoll
    cases hpoll
    exact ⟨htail, hdata⟩

/-- Settles O45: the first piece is a proper part, which ends no scan; the two together are the frame. -/
theorem chunkedFrameIsReceived : Obligations.ChunkedFrameIsReceived := by
  intro s addr k q p f1 f2 dcap htail _ hcut hne hcap hd
  rw [List.length_append] at hcap
  have hpos := List.length_pos_of_ne_nil hne
  have hpart : (framedBytes addr k q p).take f1.length = f1 := by rw [hcut, List.take_left]
  have hdata1 : (s.pushed f1).data = f1 := by
    rw [State.pushed_data, List.length_eq_zero_iff.1 (s.length_data.trans htail), List.nil_append]
  obtain ⟨sc1, hrun1, hstop1⟩ := Scan.run_take_framedBytes addr k q p (j := f1.length) (dcap := dcap)
    (by rw [hcut, List.length_append]; omega) hd
  rw [hpart, ← hdata1] at hrun1
  obtain ⟨t2, hpoll1, hres2, htail2, hdata2, hparams2⟩ := rxPoll_keeps hrun1 (sc1.finish_noFrame hstop1)
    (by show s.tail + f1.length ≠ s.params.cap; omega)
  have htail2' : t2.tail = f1.length := by rw [htail2]; show s.tail + f1.length = _; omega
  have hdata3 : (t2.pushed f2).data = framedBytes addr k q p := by
    rw [State.pushed_data, hdata2, hdata1, hcut]
  obtain ⟨sc2, hrun2, hfin2⟩ := Scan.run_frame_alone addr k q p hd
  rw [← hdata3] at hrun2
  have hlen : (framedBytes addr k q p).length = t2.tail + f2.length := by rw [hcut, List.length_append, htail2']
  refine ⟨_, t2, _, _, rxPush_eq (by omega), hpoll1, hres2, hdata2.trans hdata1, rxPush_eq ?_,
    rxPoll_terminal hrun2 (by rw [hfin2]; trivial) (by rw [hfin2]; exact hlen.le), ?_, hfin2⟩
  · rw [hparams2, htail2']
    show f2.length ≤ s.params.cap - f1.length
    omega
  · rw [State.withResult_tail, State.erasePrefix_tail, State.beginOperation_tail, State.deliver_tail, hfin2]
    show t2.tail + f2.length - (framedBytes addr k q p).length = 0
    omega

end Sys2Proof.Proofs.Reassembly
end

section
/-! The host's session without its loops: the dispatch of a decode's result (R208 to R211), and a writer nobody answers
(R214 to R216). -/

namespace Sys2Proof.Machine

/-! ### A poll of a writer that nobody has answered -/

/-- The writer waits in attempt `k`, `w` milliseconds of it gone, nothing published (R214). -/
structure Session.Waiting (h : Session) (k w : Nat) : Prop where
  sender : ∃ q, h.sender = .awaitingAck q k w
  silent : h.writeResult = .none
  attempt : k ≤ h.writeRetries
  inTime : w < h.writeTimeout

/-- The milliseconds left until a writer that is not answered gives up (R214, R215). -/
def Session.remaining (h : Session) (k w : Nat) : Nat :=
  (h.writeRetries - k) * h.writeTimeout + (h.writeTimeout - w)

theorem Session.poll_silent (o : SessionOpen) (payload : List Byte) {h : Session} {q : Seq} {k w : Nat}
    (hs : h.sender = .awaitingAck q k w) (hr : h.writeResult = .none) :
    h.poll o payload =
      if w + 1 < h.writeTimeout then ({ h with sender := .awaitingAck q k (w + 1) }, none)
      else h.retry k .timeout := by
  unfold Session.poll
  rw [hs, hr]

/-- A poll without an answer counts a millisecond, or starts the next attempt, or gives up (R214 d, R215). -/
theorem Session.Waiting.poll_cases {h : Session} {k w : Nat} (hw : h.Waiting k w) (o : SessionOpen)
    (payload : List Byte) :
    (∃ h' k' w', h.poll o payload = (h', none) ∧ h'.Waiting k' w' ∧ h'.remaining k' w' + 1 = h.remaining k w) ∨
      (h.remaining k w = 1 ∧ h.poll o payload = (h.release, some (.error .timeout))) := by
  obtain ⟨⟨q, hq⟩, hr, hk, ht⟩ := hw
  rw [Session.poll_silent o payload hq hr]
  by_cases hlast : w + 1 < h.writeTimeout
  · rw [if_pos hlast]
    exact .inl ⟨_, k, w + 1, rfl, ⟨⟨q, rfl⟩, hr, hk, hlast⟩, by simp only [Session.remaining]; omega⟩
  · rw [if_neg hlast, Session.retry]
    by_cases hmore : k + 1 ≤ h.writeRetries
    · rw [if_pos hmore]
      refine .inl ⟨_, k + 1, 0, rfl, ⟨⟨_, rfl⟩, rfl, hmore, Nat.zero_lt_of_lt ht⟩, ?_⟩
      have hsplit : (h.writeRetries - k) * h.writeTimeout =
          (h.writeRetries - (k + 1)) * h.writeTimeout + h.writeTimeout := by
        rw [← Nat.succ_mul]
        congr 1
        omega
      simp only [Session.remaining]
      omega
    · rw [if_neg hmore]
      have hdone : h.writeRetries - k = 0 := by omega
      refine .inr ⟨?_, rfl⟩
      rw [Session.remaining, hdone, Nat.zero_mul]
      omega

/-- A writer nobody answers gives up after exactly the milliseconds that are left. -/
theorem Session.Waiting.pollTimes {n : Nat} (o : SessionOpen) (payload : List Byte) :
    ∀ {h : Session} {k w : Nat}, h.Waiting k w → h.remaining k w = n →
      (∀ m, m < n → (pollTimes o payload m h).2 = none) ∧
        ∃ h' : Session, Sys2Proof.pollTimes o payload n h = (h'.release, some (.error .timeout)) := by
  induction n with
  | zero =>
    intro h k w hw hn
    have := hw.inTime
    rw [Session.remaining] at hn
    omega
  | succ n ih =>
    intro h k w hw hn
    rcases hw.poll_cases o payload with ⟨h', k', w', hpoll, hw', hrem⟩ | ⟨hrem, hpoll⟩
    · obtain ⟨hbefore, h'', hend⟩ := ih hw' (by omega)
      refine ⟨fun m hm => ?_, h'', ?_⟩
      · cases m with
        | zero => rfl
        | succ m =>
          rw [Sys2Proof.pollTimes, hpoll]
          exact hbefore m (by omega)
      · rw [Sys2Proof.pollTimes, hpoll]
        exact hend
    · have hlast : n = 0 := by omega
      subst hlast
      refine ⟨fun m hm => ?_, h, ?_⟩
      · rw [Nat.lt_one_iff.1 hm]
        rfl
      · rw [Sys2Proof.pollTimes, hpoll]

/-- A write that begins waits in its first attempt (R213). -/
theorem Session.waiting_of_writeBegin {h h1 : Session} {payload : List Byte} (ht : 1 ≤ h.writeTimeout)
    (hb : h.writeBegin payload = some (.ok h1)) :
    h1.Waiting 0 0 ∧ h1.remaining 0 0 = h.writeTimeout * (1 + h.writeRetries) := by
  unfold Session.writeBegin at hb
  split at hb
  · exact nomatch hb
  · split at hb
    · exact nomatch hb
    · cases hb
      refine ⟨⟨⟨_, rfl⟩, rfl, Nat.zero_le _, ht⟩, ?_⟩
      simp only [Session.remaining, Nat.sub_zero]
      ring

end Sys2Proof.Machine

namespace Sys2Proof.Proofs.HostSession

open Sys2Proof.Machine

/-- Settles O51: the branch of an accepted Data frame. -/
theorem dataFrameIsAcknowledged : Obligations.DataFrameIsAcknowledged := by
  intro o h q a p l d hinc hdup
  have hsession : (h.dispatch o (.frame .data q a p l d)).session =
      { h with rxSeq := h.rxSeq + 1, lastDelivered := q } := by
    rw [Session.dispatch, hinc]
    rfl
  have hdelivery : (h.dispatch o (.frame .data q a p l d)).delivery = some ⟨p, a⟩ := by
    rw [Session.dispatch, hdup]
    rfl
  refine ⟨?_, ?_, hdelivery, rfl, rfl⟩
  · rw [hsession]
    exact BitVec.toNat_add h.rxSeq 1
  · rw [hsession]
    exact ⟨_, rfl⟩

/-- Settles O52: the other branches, one each. -/
theorem otherFramesAreDispatched : Obligations.OtherFramesAreDispatched := by
  intro o h q a p l d q? a? hnack
  refine ⟨⟨rfl, rfl, rfl⟩, ⟨rfl, rfl, rfl⟩, ⟨rfl, ?_, rfl⟩, fun kind? hkind => ?_, ⟨rfl, rfl, rfl⟩⟩
  · exact ⟨_, by rw [Session.dispatch, hnack]; rfl⟩
  · cases kind? with
    | none => exact ⟨rfl, rfl, rfl⟩
    | some kind =>
      cases kind with
      | data => exact absurd rfl hkind
      | ack => exact ⟨rfl, rfl, rfl⟩
      | nack => exact ⟨rfl, rfl, rfl⟩

/-- Settles O53: the wait of all attempts together is what is left at the start. -/
theorem unansweredWriteTimesOut : Obligations.UnansweredWriteTimesOut := by
  intro o h h1 payload ht hb
  obtain ⟨hwait, hrem⟩ := Session.waiting_of_writeBegin ht hb
  obtain ⟨hbefore, h', hend⟩ := hwait.pollTimes o payload hrem
  refine ⟨hbefore, ?_⟩
  rw [hend]
  exact ⟨rfl, rfl, rfl⟩

end Sys2Proof.Proofs.HostSession
end

section
/-! `read` (R205 to R212): a turn that receives bytes, the loop over a frame's pieces, and the ends without a payload. -/

namespace Sys2Proof.Machine

/-! ### The sub-steps of a turn -/

theorem decodeWindow_ok {dcap : Nat} {s : State} {sc : Scan} (h : Scan.run dcap s.data Scan.start = .ok sc) :
    decodeWindow dcap s = .done (s.windowed.deliver dcap sc) := decodeWindow_next (exec_frmDec_ok h s.windowed)

theorem decodeWindow_error {dcap i : Nat} {s : State} (h : Scan.run dcap s.data Scan.start = .error i) :
    decodeWindow dcap s = .fault (.dstOverflow i) (s.windowed.unspecifyDst dcap) :=
  decodeWindow_fault (exec_frmDec_error h s.windowed)

/-- What sub-step b of a turn that receives `bytes` works on: the block behind sub-step a's decode, if there was one, with
the bytes appended (R206). -/
structure Receives (s t : State) (first : Option Result) : Prop where
  data : t.data = s.data
  tail : t.tail = s.tail
  params : t.params = s.params
  first : first = none ∨ first = some (.noFrame 0)

/-- A turn with an empty buffer, or with one that holds no frame yet, appends the bytes and decodes again (R206). -/
theorem readTurn_receives (o : SessionOpen) {dstLen : Nat} {bytes : List Byte} {s : State} (hne : bytes ≠ [])
    (hfit : s.tail + bytes.length ≤ s.params.cap)
    (hold : s.tail = 0 ∨ decoded s.data dstLen s = .ok (.noFrame 0)) :
    ∃ first t, Receives s t first ∧
      readTurn o dstLen (TransportRead.ofBytes bytes) s =
        (first, (decodeWindow dstLen (t.pushed bytes)).andThen (Turn.run eraseDiscard)) := by
  by_cases h0 : s.tail = 0
  · exact ⟨none, s, ⟨rfl, rfl, rfl, .inl rfl⟩,
      by rw [readTurn_empty o dstLen _ s h0, readTransport_ofBytes dstLen bytes s hne hfit]; rfl⟩
  · obtain ⟨sc, hrun, hfin⟩ := decoded_ok_iff.1 (hold.resolve_left h0)
    have hpos := List.length_pos_of_ne_nil hne
    have htail : (s.windowed.deliver dstLen sc).tail = s.tail := State.deliver_tail _ _ _
    have hparams : (s.windowed.deliver dstLen sc).params = s.params := State.deliver_params _ _ _
    have hres : (s.windowed.deliver dstLen sc).result = .noFrame 0 := (State.deliver_result _ _ _).trans hfin
    refine ⟨some (.noFrame 0), s.windowed.deliver dstLen sc,
      ⟨s.windowed_deliver_data dstLen sc, htail, hparams, .inr rfl⟩, ?_⟩
    rw [readTurn_pending o dstLen _ s _ h0 (decodeWindow_ok hrun) hres (by rw [htail, hparams]; omega), hres,
      readTransport_ofBytes dstLen bytes _ hne (by rw [htail, hparams]; exact hfit)]
    rfl

/-! ### A run that receives a frame in pieces -/

/-- A `read` that has received the bytes `got` of a frame, nothing delivered and nothing sent yet; `h` is the session at
the start of the call. -/
structure ReadRun.Received (h : Session) (p : Config.Params) (got : List Byte) (r : ReadRun) : Prop where
  data : r.block.data = got
  params : r.block.params = p
  rxSeq : r.session.rxSeq = h.rxSeq
  writeResult : r.session.writeResult = h.writeResult
  running : r.session.stopped = false
  writes : r.writes = []

theorem ReadRun.Received.tail {h : Session} {p : Config.Params} {got : List Byte} {r : ReadRun}
    (hr : r.Received h p got) : r.block.tail = got.length := by
  rw [← hr.data, State.length_data]

/-- Sub-step a's decode, which found no frame, changes the last decode error only. -/
theorem ReadRun.Received.noteFirst {h : Session} {p : Config.Params} {got : List Byte} {r : ReadRun}
    (hr : r.Received h p got) (first : Option Result) : (r.noteFirst first).Received h p got := by
  cases first with
  | none => exact hr
  | some x => exact { hr with }

section pieces

variable {o : SessionOpen} {h : Session} {prm : Config.Params} {addr : Byte} {q : Seq} {p got c : List Byte}
  {dstLen : Nat} {written : Int} {r : ReadRun}

/-- A proper part of a frame in the buffer decodes to `NoFrame` (R159). -/
theorem decoded_prefix {s : State} {w w' : List Byte} (hw : framedBytes addr .data q p = w ++ w') (hne : w' ≠ [])
    (hd : p.length + 2 ≤ dstLen) : decoded w dstLen s = .ok (.noFrame 0) := by
  have hlt : w.length < (framedBytes addr .data q p).length := by
    rw [hw, List.length_append]
    exact Nat.lt_add_of_pos_right (List.length_pos_of_ne_nil hne)
  obtain ⟨sc, hrun, hstop⟩ := Scan.run_take_framedBytes addr .data q p hlt hd
  rw [hw, List.take_left] at hrun
  exact decoded_ok_iff.2 ⟨sc, hrun, sc.finish_noFrame hstop⟩

/-- A turn that receives the next piece of a frame works on the bytes received so far with that piece behind them. -/
theorem ReadRun.Received.turn (hr : r.Received h prm got) {rest : List Byte}
    (hcut : framedBytes addr .data q p = got ++ c ++ rest) (hne : c ≠ [])
    (hcap : (framedBytes addr .data q p).length ≤ prm.cap) (hd : p.length + 2 ≤ dstLen) :
    ∃ (r' : ReadRun) (t : State), r'.Received h prm got ∧ t.data = got ++ c ∧ t.params = prm ∧
      r.turn o dstLen ⟨false, TransportRead.ofBytes c, written⟩ =
        r'.conclude o written ((decodeWindow dstLen t).andThen (Turn.run eraseDiscard)) := by
  rw [hcut, List.length_append, List.length_append] at hcap
  have hold : r.block.tail = 0 ∨ decoded r.block.data dstLen r.block = .ok (.noFrame 0) := by
    refine .inr ?_
    rw [hr.data]
    exact decoded_prefix (hcut.trans (List.append_assoc _ _ _)) (by simp [hne]) hd
  obtain ⟨first, t, hrec, hturn⟩ := readTurn_receives o (dstLen := dstLen) hne
    (by rw [hr.tail, hr.params]; omega) hold
  refine ⟨r.noteFirst first, t.pushed c, hr.noteFirst first, ?_, ?_, ?_⟩
  · rw [State.pushed_data, hrec.data, hr.data]
  · show t.params = prm
    rw [hrec.params, hr.params]
  · rw [ReadRun.turn_running o dstLen _ r hr.running rfl]
    dsimp only
    rw [hturn]

/-- A piece that is not the last leaves the call waiting, with that piece received too (R211). -/
theorem ReadRun.Received.turn_waits (hr : r.Received h prm got) {rest : List Byte}
    (hcut : framedBytes addr .data q p = got ++ c ++ rest) (hne : c ≠ []) (hmore : rest ≠ [])
    (hcap : (framedBytes addr .data q p).length ≤ prm.cap) (hd : p.length + 2 ≤ dstLen) :
    (r.turn o dstLen ⟨false, TransportRead.ofBytes c, written⟩).Received h prm (got ++ c) ∧
      (r.turn o dstLen ⟨false, TransportRead.ofBytes c, written⟩).ending = .waiting := by
  obtain ⟨r', t, hr', hdata, hparams, hturn⟩ := hr.turn (o := o) (written := written) hcut hne hcap hd
  obtain ⟨sc, hrun, hfin⟩ := decoded_ok_iff.1 (decoded_prefix (s := t) hcut hmore hd)
  rw [← hdata] at hrun
  have hres : (t.windowed.deliver dstLen sc).result = .noFrame 0 := (State.deliver_result _ _ _).trans hfin
  have herase : Turn.run eraseDiscard (t.windowed.deliver dstLen sc) = .done (t.windowed.deliver dstLen sc) :=
    Turn.run_next (eraseDiscard_nothing _ (by rw [hres]; rfl))
  rw [hturn, decodeWindow_ok hrun, Turn.andThen_done, herase]
  simp only [ReadRun.conclude, ReadRun.dispatch, hres, Session.dispatch, ReadRun.deliver]
  refine ⟨⟨?_, ?_, hr'.rxSeq, hr'.writeResult, hr'.running, hr'.writes⟩, trivial⟩
  · rw [t.windowed_deliver_data, hdata]
  · rw [State.deliver_params]
    exact hparams

/-- What a `read` that delivers the frame's payload has done (R208). -/
structure ReadRun.Delivered (o : SessionOpen) (h : Session) (addr : Byte) (p : List Byte) (r : ReadRun) : Prop where
  ending : r.ending = .delivered ⟨p, addr⟩
  writes : r.writes = [framedBytes (o.replyAddr (some addr)) .ack (h.rxSeq + 1) []]
  rxSeq : r.session.rxSeq = h.rxSeq + BitVec.ofNat 3 o.rxSeqIncrements
  writeResult : r.session.writeResult = h.writeResult
  empty : r.block.tail = 0

/-- An Ack to a supported address fits a sink of 8 bytes (R139). -/
theorem length_ack_le {a : Byte} (ha : supportedAddr a) (n : Seq) : (framedBytes a .ack n []).length ≤ 8 :=
  length_framedBytes_le ha .ack n []

theorem supportedAddr_replyAddr (o : SessionOpen) {a : Byte} (ha : supportedAddr a) :
    supportedAddr (o.replyAddr (some a)) := by
  unfold SessionOpen.replyAddr
  split
  · exact ha
  · decide

/-- The Ack as an encode into the reader's own sink (R208, assumption 25). -/
theorem sendReply_ack {ocap : Nat} {a : Byte} (ha : supportedAddr a) (ho : 8 ≤ ocap) (n : Seq) (sink : Memory)
    (s : State) :
    sendReply ocap ⟨a, .ack, n⟩ sink s =
      .next (encodeDone (framedBytes a .ack n []) { s with out := sink, scan := none }) :=
  exec_frmEnc_fits (k := .ack) ⟨(fun h => nomatch h), Nat.le_trans (length_ack_le ha n) ho⟩
    { s with out := sink, scan := none }

/-- The dispatch of a whole Data frame: the Ack goes out, then the payload is delivered (R208). -/
theorem ReadRun.Received.dispatch_data (hr : r.Received h prm got) {s : State} {l d : Nat}
    (hres : s.result = .frame .data q addr p l d) (htail : s.tail = 0) (hdup : o.suppressDuplicates = false)
    (ha : supportedAddr addr) (ho : 8 ≤ o.replyCap) (hw : 0 < written) :
    ReadRun.Delivered o h addr p (ReadRun.dispatch o written { r with block := s }) := by
  unfold ReadRun.dispatch
  simp only [hres, Session.dispatch, hdup, Bool.false_and, Bool.false_eq_true, if_false]
  rw [sendReply_ack (supportedAddr_replyAddr o ha) ho]
  simp only [encodeDone_result, if_neg (Int.not_le.2 hw), ReadRun.deliver]
  exact ⟨rfl, by rw [hr.writes, hr.rxSeq]; rfl, by rw [hr.rxSeq], hr.writeResult, htail⟩

/-- The last piece completes the frame: it is acknowledged and delivered, and nothing of it stays in the buffer. -/
theorem ReadRun.Received.turn_delivers (hr : r.Received h prm got)
    (hcut : framedBytes addr .data q p = got ++ c) (hne : c ≠ [])
    (hcap : (framedBytes addr .data q p).length ≤ prm.cap) (hd : p.length + 2 ≤ dstLen)
    (hdup : o.suppressDuplicates = false) (ha : supportedAddr addr) (ho : 8 ≤ o.replyCap) (hw : 0 < written) :
    ReadRun.Delivered o h addr p (r.turn o dstLen ⟨false, TransportRead.ofBytes c, written⟩) := by
  obtain ⟨r', t, hr', hdata, -, hturn⟩ := hr.turn (o := o) (written := written) (rest := [])
    (by rw [List.append_nil, hcut]) hne hcap hd
  rw [← hcut] at hdata
  obtain ⟨sc, hrun, hfin⟩ := Scan.run_frame_alone addr .data q p (dcap := dstLen) hd
  rw [← hdata] at hrun
  have htail : (t.windowed.deliver dstLen sc).tail = (framedBytes addr .data q p).length := by
    rw [← hdata, State.length_data]
    exact State.deliver_tail _ _ _
  have hres := (State.deliver_result t.windowed dstLen sc).trans hfin
  have hdiscard : (t.windowed.deliver dstLen sc).result.discard = (framedBytes addr .data q p).length := by
    rw [hres]
    rfl
  have herase := Turn.run_next (eraseDiscard_erases (t.windowed.deliver dstLen sc)
    (by rw [hdiscard, framedBytes_eq]; simp) (by rw [hdiscard, htail]))
  rw [hturn, decodeWindow_ok hrun, Turn.andThen_done, herase]
  refine hr'.dispatch_data (s := { (t.windowed.deliver dstLen sc).beginOperation.erasePrefix _ with result := _ })
    hres ?_ hdup ha ho hw
  show (State.erasePrefix _ _).tail = 0
  rw [State.erasePrefix_tail, hdiscard, State.beginOperation_tail, htail, Nat.sub_self]

/-- The loop over the pieces of a frame (R205, R223). -/
theorem ReadRun.Received.loop {chunks : List (List Byte)} (hr : r.Received h prm got)
    (hcut : framedBytes addr .data q p = got ++ chunks.flatten) (hsome : chunks ≠ []) (hne : ∀ c ∈ chunks, c ≠ [])
    (hcap : (framedBytes addr .data q p).length ≤ prm.cap) (hd : p.length + 2 ≤ dstLen)
    (hdup : o.suppressDuplicates = false) (ha : supportedAddr addr) (ho : 8 ≤ o.replyCap) (hw : 0 < written) :
    ReadRun.Delivered o h addr p
      (ReadRun.loop o dstLen (chunks.map fun c => ⟨false, TransportRead.ofBytes c, written⟩) r) := by
  induction chunks generalizing got r with
  | nil => exact absurd rfl hsome
  | cons c cs ih =>
    have hc := hne c List.mem_cons_self
    rw [List.flatten_cons, ← List.append_assoc] at hcut
    rw [List.map_cons, ReadRun.loop]
    cases cs with
    | nil =>
      rw [List.flatten_nil, List.append_nil] at hcut
      have hdone := hr.turn_delivers hcut hc hcap hd hdup ha ho hw
      rw [hdone.ending]
      exact hdone
    | cons c' cs =>
      have hmore : (c' :: cs).flatten ≠ [] := by
        rw [List.flatten_cons]
        exact List.append_ne_nil_of_left_ne_nil (hne c' (by simp)) _
      obtain ⟨hr', hwait⟩ := hr.turn_waits (o := o) (written := written) hcut hc hmore hcap hd
      rw [hwait]
      exact ih hr' hcut (by simp) fun x hx => hne x (List.mem_cons_of_mem c hx)

end pieces

/-! ### The ends without a payload -/

theorem Session.read_accepts (o : SessionOpen) {dstLen : Nat} (turns : List TurnInput) (h : Session) {s : State}
    (hlen : 1 ≤ dstLen ∧ dstLen ≤ s.params.cap) :
    h.read o dstLen turns s = ReadRun.loop o dstLen turns ⟨h, s, [], .waiting⟩ :=
  if_pos (by simpa [readAccepts] using hlen)

theorem Session.read_rejects (o : SessionOpen) {dstLen : Nat} (turns : List TurnInput) (h : Session) {s : State}
    (hlen : ¬ (1 ≤ dstLen ∧ dstLen ≤ s.params.cap)) :
    h.read o dstLen turns s = ⟨h, s, [], .error .invalidArgument⟩ := if_neg (by simpa [readAccepts] using hlen)

/-- A turn that ends the call ends the loop. -/
theorem ReadRun.loop_ends {o : SessionOpen} {dstLen : Nat} {e : TurnInput} (es : List TurnInput) {r : ReadRun}
    (h : (r.turn o dstLen e).ending ≠ .waiting) : ReadRun.loop o dstLen (e :: es) r = r.turn o dstLen e := by
  rw [ReadRun.loop]
  split
  · exact absurd ‹_› h
  · rfl

/-- The first turn of a session that is not stopped. -/
theorem Session.read_first_turn (o : SessionOpen) {dstLen : Nat} {e : TurnInput} (es : List TurnInput) {h : Session}
    {s : State} (hlen : 1 ≤ dstLen ∧ dstLen ≤ s.params.cap) (hrun : h.stopped = false) (hopen : e.closed = false)
    {first : Option Result} {t : Turn} (hturn : readTurn o dstLen e.chunk s = (first, t))
    (hend : ((ReadRun.noteFirst first ⟨h, s, [], .waiting⟩).conclude o e.written t).ending ≠ .waiting) :
    h.read o dstLen (e :: es) s = (ReadRun.noteFirst first ⟨h, s, [], .waiting⟩).conclude o e.written t := by
  have hone := ReadRun.turn_running o dstLen e ⟨h, s, [], .waiting⟩ hrun hopen
  dsimp only at hone
  rw [hturn] at hone
  rw [Session.read_accepts o _ h hlen, ReadRun.loop_ends es (by rw [hone]; exact hend), hone]

@[simp] theorem ReadRun.noteFirst_writes (first : Option Result) (r : ReadRun) :
    (r.noteFirst first).writes = r.writes := by
  cases first <;> rfl

/-- A fault of sub-step a's decode (R240). -/
theorem readTurn_fault (o : SessionOpen) {dstLen i : Nat} (c : TransportRead) {s : State} (h : s.tail ≠ 0)
    (hdec : decoded s.data dstLen s = .error i) :
    readTurn o dstLen c s = (none, .fault (.dstOverflow i) (s.windowed.unspecifyDst dstLen)) := by
  unfold readTurn
  rw [if_neg (by simp [State.empty, h]), decodeWindow_error (decoded_error_iff.1 hdec)]

end Sys2Proof.Machine

namespace Sys2Proof.Proofs.Read

open Sys2Proof.Machine

/-- Settles O56: each piece but the last is a proper part with what came before, which decodes to no frame. -/
theorem readReceivesAnyChunking : Obligations.ReadReceivesAnyChunking := by
  intro o h s addr q p chunks dstLen written hw hdup hrun htail hframe hcut hne hcap ho hd hlen r
  have hstart : ReadRun.Received h s.params [] ⟨h, s, [], .waiting⟩ :=
    ⟨List.length_eq_zero_iff.1 (s.length_data.trans htail), rfl, rfl, rfl, hrun, rfl⟩
  have hsome : chunks ≠ [] := by
    rintro rfl
    rw [framedBytes_eq] at hcut
    exact nomatch hcut
  have hdone := hstart.loop (o := o) (written := written) hcut.symm hsome hne hcap hd hdup hframe.1 ho hw
  rw [← Session.read_accepts o _ h ⟨by omega, hlen⟩] at hdone
  exact ⟨hdone.ending, hdone.writes, hdone.rxSeq, hdone.writeResult, hdone.empty⟩

/-- Settles O57: each end is the first turn's. -/
theorem readEndsWithoutPayload : Obligations.ReadEndsWithoutPayload := by
  intro o h s dstLen e es
  refine ⟨fun hlen => Session.read_rejects o _ h (by omega), fun hlen => ⟨fun hstop => ?_, ?_, ?_, ?_⟩⟩
  · have hturn := ReadRun.turn_stopped o dstLen e ⟨h, s, [], .waiting⟩ hstop
    rw [Session.read_accepts o _ h hlen, ReadRun.loop_ends es (by rw [hturn]; exact nofun), hturn]
  · intro hrun hopen htail hplaced hvalue r
    have hchunk : e.chunk = ⟨[], e.chunk.value⟩ := by rw [← hplaced]
    have hturn := readTurn_empty o dstLen e.chunk s htail
    rw [hchunk, readTransport_failed dstLen e.chunk.value s hvalue, ← hchunk] at hturn
    have hr : r = _ := Session.read_first_turn o es hlen hrun hopen hturn nofun
    rw [hr]
    exact ⟨rfl, rfl, rfl, rfl, rfl, rfl⟩
  · intro i hrun hopen htail hdec r
    have hr : r = _ := Session.read_first_turn o es hlen hrun hopen (readTurn_fault o e.chunk htail hdec) nofun
    rw [hr]
    exact ⟨rfl, rfl, rfl, rfl, rfl⟩
  · intro i bytes hrun hopen hne hchunk hfit hold hdec r
    obtain ⟨first, t, hrec, hturn⟩ := readTurn_receives o hne hfit hold
    have hdata : (t.pushed bytes).data = s.data ++ bytes := by rw [State.pushed_data, hrec.data]
    rw [← hdata] at hdec
    rw [decodeWindow_error (decoded_error_iff.1 hdec), Turn.andThen_fault, ← hchunk] at hturn
    have hr : r = _ := Session.read_first_turn o es hlen hrun hopen hturn nofun
    rw [hr]
    refine ⟨rfl, ReadRun.noteFirst_writes _ _, ?_, hdata⟩
    show t.tail + bytes.length = _
    rw [hrec.tail]

end Sys2Proof.Proofs.Read
end

section
/-! `write` (R213 to R216): one attempt with nobody answering, one that is acknowledged, and the loop over all
attempts. -/

namespace Sys2Proof.Machine

/-! ### The frame of an attempt -/

/-- The block after an attempt: its Data frame is in the writer's scratch buffer (R214 b). -/
def attempted (addr : Option Byte) (payload : List Byte) (h : Session) (s : State) : State :=
  encodeDone (framedBytes (writeAddr addr) .data h.txSeq payload) s.beginOperation

/-- The Data frame of an attempt goes into the writer's scratch buffer when it fits (R214 b). -/
theorem Session.encodeAttempt_fits {h : Session} {addr : Option Byte} {payload : List Byte} {s : State}
    (hp : payload ≠ [])
    (hfit : (framedBytes (writeAddr addr) .data h.txSeq payload).length ≤ s.params.wcap) :
    h.encodeAttempt addr payload s =
      .next (attempted addr payload h s) :=
  exec_frmEnc_fits (k := .data) ⟨fun _ => hp, hfit⟩ s.beginOperation

section attempt

variable (o : SessionOpen) {addr : Option Byte} {payload : List Byte} {h : Session} {s : State} {written : Int}

variable (hp : payload ≠ []) (hfit : (framedBytes (writeAddr addr) .data h.txSeq payload).length ≤ s.params.wcap)
  (hw : 0 < written) (hr : h.writeResult = .none)

include hp hfit hw hr

/-- An attempt with a timeout transmits its frame and polls (R214). -/
theorem WriteRun.attempt_polls (ht : 1 ≤ h.writeTimeout) (published : List WriteResult) (writes : List (List Byte)) :
    WriteRun.attempt o addr payload ⟨written, published⟩ ⟨h, s, writes, .toSend⟩ =
      WriteRun.polls o payload published
        ⟨h, attempted addr payload h s, writes ++ [framedBytes (writeAddr addr) .data h.txSeq payload], .polling⟩ := by
  have hclear : ({ h with writeResult := .none } : Session) = h := by rw [← hr]
  have hwait : h.attempt payload (attempted addr payload h s).result written = (h, none) := by
    unfold Session.attempt
    rw [if_neg nofun, if_neg (by omega), if_neg (by omega)]
  unfold WriteRun.attempt
  rw [hclear]
  dsimp only
  rw [Session.encodeAttempt_fits hp hfit]
  dsimp only
  rw [hwait]
  rfl

/-- With no timeout the call returns as soon as the frame is out (R214 c). -/
theorem WriteRun.attempt_returns (ht : h.writeTimeout = 0) (published : List WriteResult)
    (writes : List (List Byte)) :
    WriteRun.attempt o addr payload ⟨written, published⟩ ⟨h, s, writes, .toSend⟩ =
      ⟨h.release, attempted addr payload h s, writes ++ [framedBytes (writeAddr addr) .data h.txSeq payload],
        .returned (.ok payload.length)⟩ := by
  have hclear : ({ h with writeResult := .none } : Session) = h := by rw [← hr]
  have hdone : h.attempt payload (attempted addr payload h s).result written =
      (h.release, some (.ok payload.length)) := by
    unfold Session.attempt
    rw [if_neg nofun, if_neg (by omega), if_pos ht]
  unfold WriteRun.attempt
  rw [hclear]
  dsimp only
  rw [Session.encodeAttempt_fits hp hfit]
  dsimp only
  rw [hdone]
  rfl

/-- An Ack at any poll of the attempt ends the call (R214 d). -/
theorem WriteRun.attempt_acknowledged {q : Seq} {k j : Nat} (hs : h.sender = .awaitingAck q k 0)
    (hj : j < h.writeTimeout) (writes : List (List Byte)) :
    WriteRun.attempt o addr payload ⟨written, List.replicate j .none ++ [.ack]⟩ ⟨h, s, writes, .toSend⟩ =
      ⟨{ h with writeResult := .ack }.release, attempted addr payload h s,
        writes ++ [framedBytes (writeAddr addr) .data h.txSeq payload], .returned (.ok payload.length)⟩ := by
  rw [WriteRun.attempt_polls o hp hfit hw hr (by omega),
    WriteRun.polls_silent o payload j _ h _ _ _ hs hr (by omega)]
  rfl

/-- The poll that ends an attempt nobody answered: the next attempt, or the timeout (R214, R215). -/
theorem WriteRun.attempt_silent {q : Seq} {k : Nat} (hs : h.sender = .awaitingAck q k 0) (ht : 1 ≤ h.writeTimeout)
    (writes : List (List Byte)) :
    WriteRun.attempt o addr payload ⟨written, List.replicate h.writeTimeout .none⟩ ⟨h, s, writes, .toSend⟩ =
      if k + 1 ≤ h.writeRetries then
        ⟨{ h with sender := .awaitingAck h.txSeq (k + 1) 0 }, attempted addr payload h s,
          writes ++ [framedBytes (writeAddr addr) .data h.txSeq payload], .toSend⟩
      else
        ⟨h.release, attempted addr payload h s, writes ++ [framedBytes (writeAddr addr) .data h.txSeq payload],
          .returned (.error .timeout)⟩ := by
  obtain ⟨n, hn⟩ := Nat.exists_eq_add_of_le' ht
  rw [WriteRun.attempt_polls o hp hfit hw hr ht, hn, List.replicate_succ', ← hn,
    WriteRun.polls_silent o payload n _ h _ _ _ hs hr (by omega)]
  have hpoll : ({ h with sender := .awaitingAck q k (0 + n) } : Session).poll o payload =
      ({ h with sender := .awaitingAck q k (0 + n) } : Session).retry k .timeout := by
    refine (Session.poll_silent o payload (h := { h with sender := .awaitingAck q k (0 + n) }) rfl hr).trans (if_neg ?_)
    show ¬ 0 + n + 1 < h.writeTimeout
    omega
  simp only [WriteRun.polls, Session.publish, hpoll, Session.retry]
  by_cases hmore : k + 1 ≤ h.writeRetries
  · rw [if_pos hmore, if_pos hmore]
    simp only [Sender.attempt, Option.some.injEq, Nat.add_eq_left, Nat.one_ne_zero, if_false]
    rw [hr]
  · rw [if_neg hmore, if_neg hmore]
    rfl

end attempt

/-! ### All attempts -/

/-- The attempts that are left, nobody answering any of them: each transmits the frame, the last one times out (R214 to
R216). -/
theorem WriteRun.loop_silent (o : SessionOpen) {addr : Option Byte} {payload : List Byte} {written : Int}
    {p : Config.Params}
    (hp : payload ≠ []) (hw : 0 < written) (n : Nat) :
    ∀ {h : Session} {s : State} {q : Seq} {k : Nat} (writes : List (List Byte)), s.params = p →
      (framedBytes (writeAddr addr) .data h.txSeq payload).length ≤ p.wcap → 1 ≤ h.writeTimeout →
      h.writeResult = .none → h.sender = .awaitingAck q k 0 → k + n = h.writeRetries →
      ∃ t, WriteRun.loop o addr payload
          (List.replicate (n + 1) ⟨written, List.replicate h.writeTimeout .none⟩) ⟨h, s, writes, .toSend⟩ =
        ⟨{ h with sender := .idle, writerLocked := false }, t,
          writes ++ List.replicate (n + 1) (framedBytes (writeAddr addr) .data h.txSeq payload),
          .returned (.error .timeout)⟩ := by
  induction n with
  | zero =>
    intro h s q k writes hs hfit ht hr hsend hk
    rw [List.replicate_succ, WriteRun.loop, WriteRun.attempt_silent o hp (hs ▸ hfit) hw hr hsend ht,
      if_neg (by omega)]
    exact ⟨_, rfl⟩
  | succ n ih =>
    intro h s q k writes hs hfit ht hr hsend hk
    rw [List.replicate_succ, WriteRun.loop, WriteRun.attempt_silent o hp (hs ▸ hfit) hw hr hsend ht,
      if_pos (by omega)]
    obtain ⟨t, hrest⟩ := ih (h := { h with sender := .awaitingAck h.txSeq (k + 1) 0 }) (s := attempted addr payload h s)
      (writes ++ [framedBytes (writeAddr addr) .data h.txSeq payload]) hs hfit ht hr rfl
      (by show k + 1 + n = h.writeRetries; omega)
    refine ⟨t, hrest.trans ?_⟩
    rw [List.append_assoc, List.singleton_append, ← List.replicate_succ]

/-- The session of a write that has the lock and is about to send (R213). -/
def Session.begun (h : Session) : Session :=
  { h with
    writerLocked := true
    txSeq := h.txSeq + 1
    writeResult := .none
    sender := .awaitingAck (h.txSeq + 1) 0 0 }

theorem Session.write_begins (o : SessionOpen) (addr : Option Byte) {payload : List Byte} (attempts : List AttemptInput)
    {h : Session} (s : State) (hp : payload ≠ []) (hl : h.writerLocked = false) :
    h.write o addr payload attempts s = WriteRun.loop o addr payload attempts ⟨h.begun, s, [], .toSend⟩ := by
  have hbegin : h.writeBegin payload = some (.ok h.begun) := by
    unfold Session.writeBegin
    rw [if_neg hp, hl]
    rfl
  unfold Session.write
  rw [hbegin]

/-- An attempt that returns ends the call. -/
theorem WriteRun.loop_returns {o : SessionOpen} {addr : Option Byte} {payload : List Byte} {e : AttemptInput}
    (es : List AttemptInput) {r r' : WriteRun} {w : Written} (h : r.attempt o addr payload e = r')
    (hr : r'.ending = .returned w) : WriteRun.loop o addr payload (e :: es) r = r' := by
  rw [WriteRun.loop, h, hr]

end Sys2Proof.Machine

namespace Sys2Proof.Proofs.Write

open Sys2Proof.Machine

/-- Settles O58: `tx_seq` is stepped once, so every attempt builds the same frame. -/
theorem writeTransmitsSameFrame : Obligations.WriteTransmitsSameFrame := by
  intro o h s addr payload written hw hp hl f hfit
  have hbegun : h.begun.writeResult = .none := rfl
  refine ⟨?_, ?_, ?_⟩
  · intro ht silent r
    obtain ⟨t, hloop⟩ := WriteRun.loop_silent o (addr := addr) hp hw h.writeRetries (h := h.begun) (s := s) []
      rfl hfit ht hbegun rfl (Nat.zero_add _)
    rw [Nat.add_comm h.writeRetries 1] at hloop
    have hr : r = _ := (Session.write_begins o addr _ s hp hl).trans hloop
    rw [hr]
    exact ⟨rfl, rfl, rfl, rfl, rfl⟩
  · intro j es hj r
    have hattempt := WriteRun.attempt_acknowledged o hp (h := h.begun) (s := s) hfit hw hbegun rfl hj []
    have hr : r = _ := (Session.write_begins o addr _ s hp hl).trans (WriteRun.loop_returns es hattempt rfl)
    rw [hr]
    exact ⟨rfl, rfl, rfl⟩
  · intro published es ht r
    have hattempt := WriteRun.attempt_returns o hp (h := h.begun) (s := s) hfit hw hbegun ht published []
    have hr : r = _ := (Session.write_begins o addr _ s hp hl).trans (WriteRun.loop_returns es hattempt rfl)
    rw [hr]
    exact ⟨rfl, rfl, rfl⟩

end Sys2Proof.Proofs.Write
end

section
/-! What the host's calls leave alone (R20, R29, R49, R219): no operation reads or keeps a scan, the reader's loop keeps
the writer's part of session and block, the writer's the reader's. -/

namespace Sys2Proof.Machine

/-! ### Operations that are issued -/

/-- An issued operation begins by dropping the scan (R20). -/
theorem execNext_of_issue {i : Instr} {s t : State} (h : issue i s = .next t) : ExecNext s.beginOperation i t :=
  execNext h

/-- An issued operation leaves no scan, and the sink unless it is an encode (R20, R76). -/
theorem issue_quiet {i : Instr} {s t : State} (hport : i.port = .op) (hi : ∀ a k q p ocap, i ≠ .frmEnc a k q p ocap)
    (h : issue i s = .next t) : t.scan = none ∧ t.out = s.out :=
  ⟨(execNext_of_issue h).scan hport, (execNext_of_issue h).out hi⟩

theorem andThen_eq_next {o : Outcome} {f : State → Outcome} {t : State} (h : andThen o f = .next t) :
    ∃ u, o = .next u ∧ f u = .next t := by
  cases o with
  | next u => exact ⟨u, rfl, h⟩
  | fault e => exact nomatch h
  | refused e => exact nomatch h

/-- A fill writes `buf` only. -/
theorem fillAll_quiet {bytes : List Byte} {index : Nat} {s t : State} (h : fillAll index bytes s = .next t) :
    t.scan = s.scan ∧ t.out = s.out := by
  induction bytes generalizing index s with
  | nil => cases h; exact ⟨rfl, rfl⟩
  | cons b bs ih =>
    obtain ⟨u, hcell, hrest⟩ := andThen_eq_next h
    unfold State.fillCell at hcell
    split at hcell
    · cases hcell
      exact ih (s := { s with buf := s.buf.write index b }) hrest
    · exact nomatch hcell

theorem rxPush_scan {bytes : List Byte} {s t : State} (h : rxPush bytes s = .next t) : t.scan = none := by
  obtain ⟨_, -, h⟩ := andThen_eq_next h
  obtain ⟨_, -, h⟩ := andThen_eq_next h
  exact (issue_quiet rfl (by nofun) h).1

theorem rxPoll_scan {dcap : Nat} {s t : State} (h : rxPoll dcap s = .next t) : t.scan = none := by
  obtain ⟨s1, -, h⟩ := andThen_eq_next h
  obtain ⟨s2, h2, h⟩ := andThen_eq_next h
  obtain ⟨s3, h3, h⟩ := andThen_eq_next h
  obtain ⟨s4, h4, h⟩ := andThen_eq_next h
  have hs3 : s3.scan = none := by
    split at h3
    · exact (issue_quiet rfl (by nofun) h3).1
    · cases h3; exact (issue_quiet rfl (by nofun) h2).1
  have hs4 : s4.scan = none := by
    split at h4
    · exact (issue_quiet rfl (by nofun) h4).1
    · cases h4; exact hs3
  cases h
  exact hs4

/-! ### A turn of the reader -/

/-- The block a turn leaves. -/
def Turn.block : Turn → State
  | .done s | .failed _ s | .fault _ s | .refused _ s => s

/-- No scan is in progress, and the sink holds what it held before the turn. -/
structure State.Quiet (out : Memory) (s : State) : Prop where
  scan : s.scan = none
  out : s.out = out

section quiet

variable {out : Memory}

theorem Turn.run_quiet {f : State → Outcome} {s : State} (hs : s.Quiet out)
    (hf : ∀ t, f s = .next t → t.Quiet out) : (Turn.run f s).block.Quiet out := by
  unfold Turn.run
  cases h : f s with
  | next t => exact hf t h
  | fault e => exact hs
  | refused e => exact hs

theorem Turn.andThen_quiet {t : Turn} {f : State → Turn} (ht : t.block.Quiet out)
    (hf : ∀ s, s.Quiet out → (f s).block.Quiet out) : (t.andThen f).block.Quiet out := by
  cases t with
  | done s => exact hf s ht
  | failed v s => exact ht
  | fault e s => exact ht
  | refused e s => exact ht

theorem State.Quiet.issue {i : Instr} {s : State} (hs : s.Quiet out) (hport : i.port = .op)
    (hi : ∀ a k q p ocap, i ≠ .frmEnc a k q p ocap) : (Turn.run (issue i) s).block.Quiet out :=
  Turn.run_quiet hs fun _ h => ⟨(issue_quiet hport hi h).1, (issue_quiet hport hi h).2.trans hs.out⟩

/-- The decode of a window drops a scan that was in progress. -/
theorem decodeWindow_quiet (dcap : Nat) (s : State) : (decodeWindow dcap s).block.Quiet s.out := by
  cases hrun : Scan.run dcap s.data Scan.start with
  | error i => rw [decodeWindow_error hrun]; exact ⟨rfl, rfl⟩
  | ok sc => rw [decodeWindow_ok hrun]; exact ⟨State.deliver_scan _ _ _, State.deliver_out _ _ _⟩

theorem recoverOverflow_quiet {s : State} (hs : s.Quiet out) : (Turn.run recoverOverflow s).block.Quiet out := by
  refine Turn.run_quiet hs fun t h => ?_
  unfold recoverOverflow at h
  split at h
  · obtain ⟨hscan, hout⟩ := issue_quiet rfl (by nofun) h
    exact ⟨hscan, hout.trans hs.out⟩
  · cases h; exact hs

theorem eraseDiscard_quiet {s : State} (hs : s.Quiet out) : (Turn.run eraseDiscard s).block.Quiet out := by
  refine Turn.run_quiet hs fun t h => ?_
  unfold eraseDiscard at h
  split at h
  · obtain ⟨u, hu, h⟩ := andThen_eq_next h
    obtain ⟨hscan, hout⟩ := issue_quiet rfl (by nofun) hu
    cases h
    exact ⟨hscan, hout.trans hs.out⟩
  · cases h; exact hs

theorem readTransport_quiet (dstLen : Nat) (c : TransportRead) (s : State) :
    (readTransport dstLen c s).block.Quiet s.out := by
  unfold readTransport
  refine Turn.andThen_quiet (t := .done (s.beginOperation.withResult (.unused s.tail s.free))) ⟨rfl, rfl⟩
    fun s1 h1 => ?_
  refine Turn.andThen_quiet (Turn.run_quiet h1 fun t ht => ?_) fun s2 h2 => ?_
  · obtain ⟨hscan, hout⟩ := fillAll_quiet ht
    exact ⟨hscan.trans h1.scan, hout.trans h1.out⟩
  · split
    · exact h2
    · refine Turn.andThen_quiet (h2.issue rfl (by nofun)) fun s3 h3 => ?_
      exact Turn.andThen_quiet (h3.out ▸ decodeWindow_quiet dstLen s3) fun s4 h4 => eraseDiscard_quiet h4

/-- Whatever a turn comes to, it leaves no scan, and the sink as it was. -/
theorem readTurn_quiet (o : SessionOpen) (dstLen : Nat) (c : TransportRead) (s : State) :
    (readTurn o dstLen c s).2.block.Quiet s.out := by
  have hdec := decodeWindow_quiet dstLen s
  unfold readTurn
  split
  · exact readTransport_quiet dstLen c s
  · split
    · rename_i t ht
      rw [ht] at hdec
      dsimp only
      split
      · exact eraseDiscard_quiet hdec
      · exact Turn.andThen_quiet (recoverOverflow_quiet hdec) fun u hu => hu.out ▸ readTransport_quiet dstLen c u
    · exact hdec

end quiet

/-! ### The reader's loop -/

/-- The fields of the session that are the writer's (R219). -/
def Session.writerPart (h : Session) : Seq × Bool × Sender := (h.txSeq, h.writerLocked, h.sender)

@[simp] theorem Session.dispatch_writerPart (o : SessionOpen) (h : Session) (r : Result) :
    (h.dispatch o r).session.writerPart = h.writerPart := by
  unfold Session.dispatch
  split <;> rfl

/-- What a `read` keeps: the writer's part of the session and its sink; its block is as before or has no scan. -/
structure ReadRun.Keeps (r r' : ReadRun) : Prop where
  block : r'.block = r.block ∨ r'.block.scan = none
  out : r'.block.out = r.block.out
  writer : r'.session.writerPart = r.session.writerPart

theorem ReadRun.Keeps.refl (r : ReadRun) : r.Keeps r := ⟨.inl rfl, rfl, rfl⟩

theorem ReadRun.Keeps.trans {r r' r'' : ReadRun} (h : r.Keeps r') (h' : r'.Keeps r'') : r.Keeps r'' where
  block := by
    rcases h'.block with e | e
    · rw [e]; exact h.block
    · exact .inr e
  out := h'.out.trans h.out
  writer := h'.writer.trans h.writer

/-- A reply leaves no scan. -/
theorem sendReply_scan {ocap : Nat} {p : Reply} {sink : Memory} {s t : State} (h : sendReply ocap p sink s = .next t) :
    t.scan = none :=
  (execNext_of_issue (i := .frmEnc p.addr p.kind.code p.seq [] ocap) (s := { s with out := sink }) h).scan rfl

theorem ReadRun.dispatch_keeps (o : SessionOpen) (written : Int) (r : ReadRun) : r.Keeps (r.dispatch o written) := by
  have hwriter := Session.dispatch_writerPart o r.session r.block.result
  unfold ReadRun.dispatch
  dsimp only
  split
  · exact ⟨.inl rfl, rfl, hwriter⟩
  · split
    · rename_i t ht
      have hscan := sendReply_scan ht
      split
      · split
        · exact ⟨.inr hscan, rfl, hwriter⟩
        · exact ⟨.inr hscan, rfl, hwriter⟩
      · exact ⟨.inr hscan, rfl, hwriter⟩
    · exact ⟨.inl rfl, rfl, hwriter⟩
    · exact ⟨.inl rfl, rfl, hwriter⟩

theorem ReadRun.conclude_keeps (o : SessionOpen) (written : Int) {r : ReadRun} {t : Turn}
    (ht : t.block.Quiet r.block.out) : r.Keeps (r.conclude o written t) := by
  cases t with
  | done s =>
    have hs : r.Keeps { r with block := s } := ⟨.inr ht.scan, ht.out, rfl⟩
    exact hs.trans (ReadRun.dispatch_keeps o written _)
  | failed v s => exact ⟨.inr ht.scan, ht.out, rfl⟩
  | fault f s => exact ⟨.inr ht.scan, ht.out, rfl⟩
  | refused x s => exact ⟨.inr ht.scan, ht.out, rfl⟩

theorem ReadRun.noteFirst_keeps (first : Option Result) (r : ReadRun) :
    r.Keeps (r.noteFirst first) ∧ (r.noteFirst first).block = r.block := by
  cases first <;> exact ⟨⟨.inl rfl, rfl, rfl⟩, rfl⟩

theorem ReadRun.turn_keeps (o : SessionOpen) (dstLen : Nat) (e : TurnInput) (r : ReadRun) :
    r.Keeps (r.turn o dstLen e) := by
  by_cases h : r.session.stopped = true ∨ e.closed = true
  · rw [ReadRun.turn_stopped o dstLen e r h]
    exact ⟨.inl rfl, rfl, rfl⟩
  · obtain ⟨hrun, hopen⟩ := not_or.1 h
    rw [ReadRun.turn_running o dstLen e r (by simpa using hrun) (by simpa using hopen)]
    obtain ⟨hnote, hblock⟩ := r.noteFirst_keeps (readTurn o dstLen e.chunk r.block).1
    have hquiet := readTurn_quiet o dstLen e.chunk r.block
    exact hnote.trans (ReadRun.conclude_keeps o e.written (hblock.symm ▸ hquiet))

theorem ReadRun.loop_keeps (o : SessionOpen) (dstLen : Nat) (turns : List TurnInput) (r : ReadRun) :
    r.Keeps (ReadRun.loop o dstLen turns r) := by
  induction turns generalizing r with
  | nil => exact .refl r
  | cons e es ih =>
    rw [ReadRun.loop]
    have hturn := ReadRun.turn_keeps o dstLen e r
    split
    · exact hturn.trans (ih _)
    · exact hturn

theorem Session.read_keeps (o : SessionOpen) (h : Session) (s : State) (dstLen : Nat) (turns : List TurnInput) :
    ReadRun.Keeps ⟨h, s, [], .waiting⟩ (h.read o dstLen turns s) := by
  by_cases hlen : 1 ≤ dstLen ∧ dstLen ≤ s.params.cap
  · rw [Session.read_accepts o turns h hlen]
    exact ReadRun.loop_keeps o dstLen turns _
  · rw [Session.read_rejects o turns h hlen]
    exact ⟨.inl rfl, rfl, rfl⟩

/-! ### The writer's loop -/

/-- The fields of the session that are the reader's (R219). -/
def Session.readerPart (h : Session) : Seq × Seq × Memory × Bool × Option SessionError :=
  (h.rxSeq, h.lastDelivered, h.replyOut, h.stopped, h.lastError)

theorem Session.publish_readerPart (h : Session) (w : WriteResult) : (h.publish w).readerPart = h.readerPart := by
  cases w <;> rfl

theorem Session.retry_readerPart (h : Session) (k : Nat) (e : SessionError) :
    (h.retry k e).1.readerPart = h.readerPart := by
  unfold Session.retry
  split <;> rfl

theorem Session.poll_readerPart (o : SessionOpen) (h : Session) (payload : List Byte) :
    (h.poll o payload).1.readerPart = h.readerPart := by
  unfold Session.poll
  split
  · rfl
  · split
    · rfl
    · exact Session.retry_readerPart _ _ _
    · split
      · rfl
      · exact Session.retry_readerPart _ _ _

theorem Session.attempt_readerPart (h : Session) (payload : List Byte) (sent : Result) (value : Int) :
    (h.attempt payload sent value).1.readerPart = h.readerPart := by
  unfold Session.attempt
  split
  · rfl
  · split
    · rfl
    · split <;> rfl

/-- What a `write` keeps: the reader's part of the session, the reassembly buffer and the destination; its block is as
before or has no scan. -/
structure WriteRun.Keeps (r r' : WriteRun) : Prop where
  block : r'.block = r.block ∨ r'.block.scan = none
  same : SameBlock r.block r'.block
  dst : r'.block.dst = r.block.dst
  reader : r'.session.readerPart = r.session.readerPart

theorem WriteRun.Keeps.of_session {r r' : WriteRun} (hb : r'.block = r.block)
    (hs : r'.session.readerPart = r.session.readerPart) : r.Keeps r' :=
  ⟨.inl hb, by rw [hb]; exact ⟨rfl, rfl, rfl⟩, by rw [hb], hs⟩

theorem WriteRun.Keeps.trans {r r' r'' : WriteRun} (h : r.Keeps r') (h' : r'.Keeps r'') : r.Keeps r'' where
  block := by
    rcases h'.block with e | e
    · rw [e]; exact h.block
    · exact .inr e
  same := by
    obtain ⟨hbuf, htail, hparams⟩ := h.same
    obtain ⟨hbuf', htail', hparams'⟩ := h'.same
    exact ⟨hbuf'.trans hbuf, htail'.trans htail, hparams'.trans hparams⟩
  dst := h'.dst.trans h.dst
  reader := h'.reader.trans h.reader

theorem WriteRun.polls_keeps (o : SessionOpen) (payload : List Byte) (ws : List WriteResult) (r : WriteRun) :
    r.Keeps (WriteRun.polls o payload ws r) := by
  induction ws generalizing r with
  | nil => exact .of_session rfl rfl
  | cons w ws ih =>
    have hreader := (Session.poll_readerPart o (r.session.publish w) payload).trans
      (Session.publish_readerPart r.session w)
    rw [WriteRun.polls]
    split
    · rename_i hpoll
      rw [hpoll] at hreader
      exact .of_session rfl hreader
    · rename_i h hpoll
      rw [hpoll] at hreader
      split
      · exact (WriteRun.Keeps.of_session (r := r) (r' := { r with session := h }) rfl hreader).trans (ih _)
      · exact .of_session rfl hreader

/-- An encode writes the sink and the result port only. -/
theorem ExecNext.frmEnc_dst {a : Byte} {k : BitVec 2} {q : Seq} {p : List Byte} {ocap : Nat} {s t : State}
    (h : ExecNext s (.frmEnc a k q p ocap) t) : t.dst = s.dst := by
  cases h with
  | answered => rfl
  | encoded => rfl
  | turned _ _ hport => exact absurd rfl hport

theorem WriteRun.attempt_keeps (o : SessionOpen) (addr : Option Byte) (payload : List Byte) (e : AttemptInput)
    (r : WriteRun) : r.Keeps (r.attempt o addr payload e) := by
  unfold WriteRun.attempt
  dsimp only
  split
  · rename_i t ht
    have hnext := execNext_of_issue (i := .frmEnc (writeAddr addr) Kind.data.code r.session.txSeq payload _) ht
    have hblock (h : Session) (hh : h.readerPart = r.session.readerPart) (ws : List (List Byte)) (x : WriteEnd) :
        r.Keeps ⟨h, t, ws, x⟩ :=
      ⟨.inr (hnext.scan rfl), hnext.sameBlock (by nofun) (by nofun) (by nofun), hnext.frmEnc_dst, hh⟩
    have hreader := Session.attempt_readerPart { r.session with writeResult := .none } payload t.result e.written
    split
    · rename_i hsent
      rw [hsent] at hreader
      exact hblock _ hreader _ _
    · rename_i hsent
      rw [hsent] at hreader
      exact (hblock _ hreader _ _).trans (WriteRun.polls_keeps o payload _ _)
  · exact .of_session rfl rfl
  · exact .of_session rfl rfl

theorem WriteRun.loop_keeps (o : SessionOpen) (addr : Option Byte) (payload : List Byte) (es : List AttemptInput)
    (r : WriteRun) : r.Keeps (WriteRun.loop o addr payload es r) := by
  induction es generalizing r with
  | nil => exact .of_session rfl rfl
  | cons e es ih =>
    rw [WriteRun.loop]
    have hattempt := WriteRun.attempt_keeps o addr payload e r
    split
    · exact hattempt.trans (ih _)
    · exact hattempt

theorem Session.write_keeps (o : SessionOpen) (h : Session) (s : State) (addr : Option Byte) (payload : List Byte)
    (attempts : List AttemptInput) :
    WriteRun.Keeps ⟨h, s, [], .toSend⟩ (h.write o addr payload attempts s) := by
  by_cases hp : payload = []
  · unfold Session.write Session.writeBegin
    rw [if_pos hp]
    exact .of_session rfl rfl
  · cases hl : h.writerLocked with
    | true =>
      unfold Session.write Session.writeBegin
      rw [if_neg hp, hl]
      exact .of_session rfl rfl
    | false =>
      rw [Session.write_begins o addr attempts s hp hl]
      exact (WriteRun.Keeps.of_session (r := ⟨h, s, [], .toSend⟩) (r' := ⟨h.begun, s, [], .toSend⟩) rfl rfl).trans
        (WriteRun.loop_keeps o addr payload attempts _)

/-- Behind a held lock a `write` does nothing (R213). -/
theorem Session.write_locked (o : SessionOpen) {h : Session} (s : State) (addr : Option Byte) (payload : List Byte)
    (attempts : List AttemptInput) (hl : h.writerLocked = true) :
    (h.write o addr payload attempts s).block = s ∧ (h.write o addr payload attempts s).session = h ∧
      (h.write o addr payload attempts s).writes = [] := by
  unfold Session.write Session.writeBegin
  by_cases hp : payload = []
  · rw [if_pos hp]
    exact ⟨rfl, rfl, rfl⟩
  · rw [if_neg hp, hl]
    exact ⟨rfl, rfl, rfl⟩

/-- A step on an issue does not look at the scan in progress (R20). -/
theorem step_issue_congr {s : State} {lanes : List Byte} {rest : List Input} (h : s.inputs = .issue lanes :: rest)
    (sc : Option Scan) : step { s with scan := sc } = step s := by
  cases hdec : decode .op lanes with
  | error e => rw [step_issue_error h hdec, step_issue_error (s := { s with scan := sc }) h hdec]
  | ok d => rw [step_issue_ok h hdec, step_issue_ok (s := { s with scan := sc }) h hdec]

theorem step_issue_scan {s t : State} {lanes : List Byte} {rest : List Input} (h : s.inputs = .issue lanes :: rest)
    (hstep : step s = .next t) : t.scan = none := by
  cases hdec : decode .op lanes with
  | error e =>
    rw [step_issue_error h hdec] at hstep
    exact nomatch hstep
  | ok d =>
    rw [step_issue_ok h hdec] at hstep
    exact (execNext hstep).scan (decode_op_port hdec)

end Sys2Proof.Machine

namespace Sys2Proof.Proofs.Roles

open Sys2Proof.Machine

/-- Settles O59: every operation of the four begins by dropping the scan. -/
theorem noScanSurvivesAnOperation : Obligations.NoScanSurvivesAnOperation :=
  ⟨fun _ _ _ _ hin => ⟨step_issue_congr hin, step_issue_scan hin⟩,
    fun _ _ _ => ⟨fun _ => rfl, rxPush_scan⟩,
    fun _ _ _ => ⟨fun _ => rfl, rxPoll_scan⟩,
    fun o h s dstLen turns => (Session.read_keeps o h s dstLen turns).block,
    fun o h s addr payload attempts => (Session.write_keeps o h s addr payload attempts).block⟩

/-- Settles O60: each loop keeps the other role's part of the session, turn by turn. -/
theorem rolesKeepToTheirOwn : Obligations.RolesKeepToTheirOwn := by
  refine ⟨?_, ?_⟩
  · intro o h s dstLen turns r
    obtain ⟨-, hout, hwriter⟩ := Session.read_keeps o h s dstLen turns
    simp only [Session.writerPart, Prod.mk.injEq] at hwriter
    obtain ⟨htx, hlock, hsender⟩ := hwriter
    exact ⟨hout, htx, hlock, hsender⟩
  · intro o h s addr payload attempts r
    obtain ⟨-, hsame, hdst, hreader⟩ := Session.write_keeps o h s addr payload attempts
    simp only [Session.readerPart, Prod.mk.injEq] at hreader
    obtain ⟨hrx, hlast, hreply, hstopped, herror⟩ := hreader
    exact ⟨hsame, hdst, hrx, hlast, hreply, hstopped, herror, Session.write_locked o s addr payload attempts⟩

end Sys2Proof.Proofs.Roles
end
